-- ==== Sys2Proof/Word.lean ====
section
/-! DEFINITION. Words, bytes, indices and the plainest bit operations on them (00_scope R6-R8, R10, R12). -/

namespace Sys2Proof

/-- A 32-bit register word (R80), also a count, a weight or a bit counter (R7, R8). -/
abbrev Word := BitVec 32

/-- An 8-bit byte; a symbol is a byte value (R6). -/
abbrev Byte := BitVec 8

/-- A 9-bit node index (R10, R54). -/
abbrev NodeIdx := BitVec 9

/-- A 4-bit register index (R80). -/
abbrev RegIdx := BitVec 4

/-- `NIL`, the node index that means "no child" (R10). -/
def NIL : NodeIdx := 0x1FF#9

/-- The largest value of a 32-bit counter, `2^32 - 1` (R7, R8). -/
def maxCount : Nat := 4294967295

/-- All 256 symbols in ascending order (R6, R202). -/
def allSyms : List Byte := (List.range 256).map (BitVec.ofNat 8)

end Sys2Proof
end

