-- ==== Sys2Proof/Syntax.lean ====
section
/-! DEFINITION. The commands of HUFFCORE, one constructor per row of the opcode table (30_encoding R124).
The second operand of LOADF, DECSTART, RDCODE and RDNODE is not part of the word: it is the ARG value captured
with it (R123), so it is state (PEND), not syntax. -/

namespace Sys2Proof

/-- The fourteen commands (R124). A form-S command carries its `SYM` field (R121). -/
inductive Instr where
  | nop
  | clear
  | count (sym : Byte)
  | loadf (sym : Byte)
  | build
  | gencode
  | encb (sym : Byte)
  | encend
  | decstart
  | decb (b : Byte)
  | decend
  | rdfreq (sym : Byte)
  | rdcode (sym : Byte)
  | rdnode
deriving DecidableEq, Repr

end Sys2Proof
end

