-- ==== Sys2Proof/WellFormed.lean ====
section
/-! DEFINITION. Well-formedness. A command's only field is an 8-bit symbol, and its type already bounds it, so
every `Instr` is well formed. The statements of the host's assembler (30_encoding R129-R131) carry plain numbers, and
R130 makes the assembler reject an operand outside its range: `Stmt.wellFormed` is that check. -/

namespace Sys2Proof

/-- Well-formed commands: R121 admits all 256 values of `SYM`, and the type admits no other. -/
def Instr.wellFormed : Instr → Bool
  | .nop | .clear | .build | .gencode | .encend | .decstart | .decend | .rdnode => true
  | .count _ | .loadf _ | .encb _ | .decb _ | .rdfreq _ | .rdcode _ => true

/-- Statements of a host program (R129-R133), operands as written: numbers not yet checked against a range.
A variable is named by a number (log 14). -/
inductive Stmt where
  | wr (reg imm : Nat)
  | rd (reg var : Nat)
  | poll
  | drain
  | cmdw (imm : Nat)
  | nop
  | clear
  | count (s : Nat)
  | loadf (s k : Nat)
  | build
  | gencode
  | encb (s : Nat)
  | encend
  | decstart (n : Nat)
  | decb (b : Nat)
  | decend
  | rdfreq (s : Nat)
  | rdcode (s wi : Nat)
  | rdnode (i : Nat)
deriving DecidableEq, Repr

/-- The assembler's range check: `s`, `b` 0..255; `wi` 0..7; `i` 0..510; `k`, `n` and immediates 0..2^32-1;
register indices 0..15 (R129, R130). -/
def Stmt.wellFormed : Stmt → Bool
  | .wr reg imm => decide (reg < 16) && decide (imm < 2 ^ 32)
  | .rd reg _ => decide (reg < 16)
  | .cmdw imm => decide (imm < 2 ^ 32)
  | .count s | .encb s | .rdfreq s => decide (s < 256)
  | .decb b => decide (b < 256)
  | .loadf s k => decide (s < 256) && decide (k < 2 ^ 32)
  | .decstart n => decide (n < 2 ^ 32)
  | .rdcode s wi => decide (s < 256) && decide (wi < 8)
  | .rdnode i => decide (i ≤ 510)
  | .poll | .drain | .nop | .clear | .build | .gencode | .encend | .decend => true

end Sys2Proof
end

