-- ==== Sys2Proof/Decode.lean ====
section
/-! DEFINITION. Command words: fields, decoder, encoder and the opcode map (30_encoding R120-R128). -/

namespace Sys2Proof

/-- `OPC = w[7:0]` (R120). -/
def opcField (w : Word) : BitVec 8 := w.extractLsb' 0 8

/-- `SYM = w[15:8]`, used as it is (R121). -/
def symField (w : Word) : Byte := w.extractLsb' 8 8

/-- `RSV = w[31:16]` (R122). -/
def rsvField (w : Word) : BitVec 16 := w.extractLsb' 16 16

/-- Why a word decodes as `ILLEGAL`: the three cases of R126. The block records only `ILLEGAL_CMD` (R327); the
names are the model's. A word in several cases is named by the first that applies in the order of `decode`. -/
inductive Illegal where
  /-- `RSV != 0` (R122). -/
  | reservedBits
  /-- A form-N opcode with `SYM != 0`. -/
  | symbolNotZero
  /-- `OPC` in `0x0E..0xFF` (R127). -/
  | reservedOpcode
deriving DecidableEq, Repr

/-- A form-N row matches only with `SYM = 0` (R125). -/
def formN (sym : Byte) (i : Instr) : Except Illegal Instr :=
  if sym = 0#8 then .ok i else .error .symbolNotZero

/-- `Decode(w)`, total on all words (R126). -/
def decode (w : Word) : Except Illegal Instr :=
  if rsvField w ≠ 0#16 then .error .reservedBits
  else match (opcField w).toNat with
    | 0x00 => formN (symField w) .nop
    | 0x01 => formN (symField w) .clear
    | 0x02 => .ok (.count (symField w))
    | 0x03 => .ok (.loadf (symField w))
    | 0x04 => formN (symField w) .build
    | 0x05 => formN (symField w) .gencode
    | 0x06 => .ok (.encb (symField w))
    | 0x07 => formN (symField w) .encend
    | 0x08 => formN (symField w) .decstart
    | 0x09 => .ok (.decb (symField w))
    | 0x0A => formN (symField w) .decend
    | 0x0B => .ok (.rdfreq (symField w))
    | 0x0C => .ok (.rdcode (symField w))
    | 0x0D => formN (symField w) .rdnode
    | _ => .error .reservedOpcode

/-- The opcode of each command (R124). -/
def Instr.opc : Instr → BitVec 8
  | .nop => 0x00#8
  | .clear => 0x01#8
  | .count _ => 0x02#8
  | .loadf _ => 0x03#8
  | .build => 0x04#8
  | .gencode => 0x05#8
  | .encb _ => 0x06#8
  | .encend => 0x07#8
  | .decstart => 0x08#8
  | .decb _ => 0x09#8
  | .decend => 0x0A#8
  | .rdfreq _ => 0x0B#8
  | .rdcode _ => 0x0C#8
  | .rdnode => 0x0D#8

/-- The `SYM` field of each command; 0 in form N (R121). -/
def Instr.sym : Instr → Byte
  | .count c | .loadf c | .encb c | .decb c | .rdfreq c | .rdcode c => c
  | .nop | .clear | .build | .gencode | .encend | .decstart | .decend | .rdnode => 0#8

/-- The word written to CMD for a command, `{16'h0, sym, opc}` (R120, R130). -/
def encode (i : Instr) : Word := 0#16 ++ i.sym ++ i.opc

/-- One row of the opcode map: mask and match of R125. -/
structure OpcodeRow where
  mnemonic : String
  mask : Word
  pattern : Word
deriving DecidableEq, Repr

/-- The mask of a form-N row (R125). -/
def maskN : Word := 0xFFFFFFFF#32

/-- The mask of a form-S row (R125). -/
def maskS : Word := 0xFFFF00FF#32

/-- The opcode map of R124 with the masks of R125, row by row. -/
def opcodeRows : List OpcodeRow :=
  [⟨"NOP", maskN, 0x00#32⟩, ⟨"CLEAR", maskN, 0x01#32⟩, ⟨"COUNT", maskS, 0x02#32⟩, ⟨"LOADF", maskS, 0x03#32⟩] ++
  [⟨"BUILD", maskN, 0x04#32⟩, ⟨"GENCODE", maskN, 0x05#32⟩, ⟨"ENCB", maskS, 0x06#32⟩, ⟨"ENCEND", maskN, 0x07#32⟩] ++
  [⟨"DECSTART", maskN, 0x08#32⟩, ⟨"DECB", maskS, 0x09#32⟩, ⟨"DECEND", maskN, 0x0A#32⟩, ⟨"RDFREQ", maskS, 0x0B#32⟩] ++
  [⟨"RDCODE", maskS, 0x0C#32⟩, ⟨"RDNODE", maskN, 0x0D#32⟩]

/-- The row matches the word (R125). -/
def OpcodeRow.matchesWord (r : OpcodeRow) (w : Word) : Bool := (w &&& r.mask) == r.pattern

/-- The mnemonic of each command, as the opcode map spells it (R124). -/
def Instr.mnemonic : Instr → String
  | .nop => "NOP"
  | .clear => "CLEAR"
  | .count _ => "COUNT"
  | .loadf _ => "LOADF"
  | .build => "BUILD"
  | .gencode => "GENCODE"
  | .encb _ => "ENCB"
  | .encend => "ENCEND"
  | .decstart => "DECSTART"
  | .decb _ => "DECB"
  | .decend => "DECEND"
  | .rdfreq _ => "RDFREQ"
  | .rdcode _ => "RDCODE"
  | .rdnode => "RDNODE"

/-- The command word whose low `nbits` bits are those of `w` and whose other bits are 0, in the opcode table's
numbering: bit 0 is the least significant bit of the one 32-bit word (R120, R128). -/
def tableWord (nbits w : Nat) : Word := BitVec.ofNat 32 (w % 2 ^ nbits)

/-- What the decoder reads from the table's word (the host's question). -/
def decodeTableWord (nbits w : Nat) : Option Instr :=
  match decode (tableWord nbits w) with
  | .ok i => some i
  | .error _ => none

end Sys2Proof
end

