-- ==== Sys2Proof/Machine/Records.lean ====
section
/-! DEFINITION. The records State is made of: tree nodes, codes, error codes, the pending command, and the
plain data that says what the HOST and RESET agents do (10_state, 30_encoding R129, 40_command_model R150). -/

namespace Sys2Proof.Machine

/-- The two variants of a tree node (R54). -/
inductive NodeKind where
  | leaf
  | internal
deriving DecidableEq, Repr, Inhabited

/-- One entry of the arena `NODE` (R54). -/
structure NodeRec where
  kind : NodeKind
  sym : Byte
  weight : Word
  left : NodeIdx
  right : NodeIdx
deriving DecidableEq, Repr, Inhabited

/-- One entry of the code table (R56): the bits, first step from the root first (R13). Its length is the list's
own (log 13). -/
structure CodeRec where
  bits : List Bool
deriving DecidableEq, Repr, Inhabited

/-- `len` of a code; 0 means "no code" (R56). -/
def CodeRec.len (c : CodeRec) : Nat := c.bits.length

/-- The error codes of R320. Codes 8..15 are never produced, and no value here stands for one. -/
inductive ErrCode where
  | none
  | emptyInput
  | unknownSymbol
  | truncatedStream
  | badCode
  | sequence
  | overflow
  | illegalCmd
deriving DecidableEq, Repr

/-- The pending command: the word and the ARG value captured with it (R32). -/
structure PendCmd where
  word : Word
  arg : Word
deriving DecidableEq, Repr

/-- One statement the host has still to perform, after the assembler's expansion (R129, R131-R133). Each step of
the HOST agent performs one register access of it (R150). -/
inductive HostOp where
  /-- `WR reg, imm` (R129). -/
  | wr (idx : RegIdx) (w : Word)
  /-- `RD reg -> var` (R129). -/
  | rd (idx : RegIdx) (var : Nat)
  /-- At `RD STATUS` of the `POLL` loop (R132). -/
  | poll
  /-- At `RD OUT` of the `POLL` loop, after a status with OUTNE = 1 (R132). -/
  | pollOut
  /-- At `RD OUT` of the `DRAIN` loop (R133). -/
  | drain
deriving DecidableEq, Repr

/-- The HOST agent (R129, R150): what it has still to perform, the bytes it popped (`HOUT`), its variables. -/
structure HostAgent where
  prog : List HostOp
  hout : List Byte
  vars : List (Nat × Word)
deriving DecidableEq, Repr

/-- Whose step comes next in the interleaving (20_memory R91, R150). -/
inductive Turn where
  /-- The engine may perform the pending command (R153). -/
  | engine
  /-- The host performs its next register access (R81). -/
  | host
  /-- `rst_n` is sampled low: a reset event (R360). -/
  | reset
deriving DecidableEq, Repr

end Sys2Proof.Machine
end

