-- ==== Sys2Proof/Config.lean ====
section
/-! DEFINITION. What an instance fixes (OUT_DEPTH, PORT_BASE) and the free values: opaque constants with no body, of
which no proof can know a value (93_implementation_defined I2, I3, I5, I6). -/

namespace Sys2Proof

/-- The parameters of one instance. `outDepth` is `OUT_DEPTH` with the bounds of R9; every claim is about every
depth in range. -/
structure Config where
  outDepth : Nat
  depth_min : 32 ≤ outDepth
  depth_max : outDepth ≤ 255
deriving DecidableEq, Repr

/-- The reference value of R9: 64 (log 1). -/
def Config.reference : Config := ⟨64, by decide, by decide⟩

/-- `PORT_BASE` (R89, I6): where the port sits in the host's address space. No rule of the spec reads it (log 15). -/
opaque Config.portBase : Nat

/-- The `n`-th draw: what a read returns of a register that is not exact while busy (R160, I2; log 5). -/
opaque Config.draw (n : Nat) : Word

/-- A node record whose contents the spec leaves unspecified (R54, R63, I3; log 6). -/
opaque Config.unspecifiedNode (i : NodeIdx) : Machine.NodeRec

/-- A code record whose contents the spec leaves unspecified (R56, R63, I3; log 6). -/
opaque Config.unspecifiedCode (c : Byte) : Machine.CodeRec

end Sys2Proof
end

