-- ==== Sys2Proof/Machine/State.lean ====
section
/-! DEFINITION. The machine's state as plain data, the reasons a step could stop, and the state after reset (10_state
R32-R62). The fields from `pend` to `dpos` are the block's own state; `host`, `sched` and `draws` are the model's
(the other agents, logs 3, 4, 5); `config` is the instance's parameter (log 1). -/

namespace Sys2Proof.Machine

/-- Everything the spec gives the machine (10_state R62), the host agent and the coming turns. -/
structure State where
  /-- `PEND` (R32). -/
  pend : Option PendCmd
  /-- `ARG` (R37). -/
  arg : Word
  /-- `RES0` (R38). -/
  res0 : Word
  /-- `RES1` (R39). -/
  res1 : Word
  /-- `TV`, tree valid (R49). -/
  tv : Bool
  /-- `CV`, codes valid (R49). -/
  cv : Bool
  /-- `DA`, decode active (R49). -/
  da : Bool
  /-- `ERR` (R50). -/
  err : ErrCode
  /-- `LOST` (R51). -/
  lost : Bool
  /-- `FREQ[0..255]` (R52). -/
  freq : Vector Word 256
  /-- `TOTAL` (R46). -/
  total : Word
  /-- `NSYM`, 0..256 (R53). -/
  nsym : BitVec 9
  /-- `NODE` (R54): the entries allocated so far; an index past the end has unspecified contents (log 6). -/
  node : List NodeRec
  /-- `ROOT` (R55). -/
  root : NodeIdx
  /-- `NCOUNT`, a 10-bit counter (R55). -/
  ncount : BitVec 10
  /-- `CODE[0..255]` (R56); `none` is an entry of unspecified contents (log 6). -/
  code : Vector (Option CodeRec) 256
  /-- `OUT`, head first (R57). -/
  out : List Byte
  /-- `PACC` (R58). -/
  pacc : Byte
  /-- `PFILL` (R58). -/
  pfill : BitVec 3
  /-- `EBITS` (R42). -/
  ebits : Word
  /-- `BITCNT` (R41). -/
  bitcnt : Word
  /-- `DREM` (R43). -/
  drem : Word
  /-- `DCOUNT` (R44). -/
  dcount : Word
  /-- `DPOS` (R47). -/
  dpos : NodeIdx
  /-- The HOST agent (R150; log 3). -/
  host : HostAgent
  /-- The coming turns of the interleaving (R91; log 4). -/
  sched : List Turn
  /-- How many draws were made (R160; log 5). -/
  draws : Nat
  /-- The instance's parameters (R9; log 1). -/
  config : Config
deriving DecidableEq, Repr

/-- Reasons the machine stops with a fault: none. `Exec` is total (R154) and every error of the spec is a code in
`ERR`, after which the machine goes on (R155, R332; log 21). -/
inductive Fault where
deriving DecidableEq, Repr

/-- Reasons the model gives an instruction no meaning. -/
inductive Refusal where
  /-- An instruction without a meaning yet, named by its mnemonic; raised by a refused arm of `exec` only, of which
  there is none. Safe: the run stops. -/
  | notModelled (mnemonic : String)
deriving DecidableEq, Repr

/-- The state after reset (R62), with an idle host, no turn scheduled and the reference depth (logs 1, 3, 4, 5, 6). -/
def State.reset : State where
  pend := none
  arg := 0#32
  res0 := 0#32
  res1 := 0#32
  tv := false
  cv := false
  da := false
  err := .none
  lost := false
  freq := Vector.replicate 256 0#32
  total := 0#32
  nsym := 0#9
  node := []
  root := 0#9
  ncount := 0#10
  code := Vector.replicate 256 none
  out := []
  pacc := 0#8
  pfill := 0#3
  ebits := 0#32
  bitcnt := 0#32
  drem := 0#32
  dcount := 0#32
  dpos := 0#9
  host := ⟨[], [], []⟩
  sched := []
  draws := 0
  config := Config.reference

end Sys2Proof.Machine
end

