-- ==== Sys2Proof/Machine/Ops.lean ====
section
/-! DEFINITION. The operations shared by all commands: access to the internal memories (20_memory R84), taking an error
and leaving it (40_command_model R155, 46_pipeline R301), committing output or holding (R156, R157), the two shapes of a
perform (R154), and the reset event (70_reset_and_hazards R360). -/

namespace Sys2Proof.Machine

/-- `FREQ[c]` read (R52, R84). -/
def State.freqAt (s : State) (c : Byte) : Word := s.freq[c.toNat]'c.isLt

/-- `FREQ[c] <- k` (R52, R84). -/
def State.setFreq (s : State) (c : Byte) (k : Word) : State := { s with freq := s.freq.set c.toNat k c.isLt }

/-- `NODE[i]` read (R54, R84); an entry of unspecified contents reads as a free value (R63; log 6). -/
def State.nodeAt (s : State) (i : NodeIdx) : NodeRec := (s.node[i.toNat]?).getD (Config.unspecifiedNode i)

/-- `CODE[c]` read (R56, R84); an entry of unspecified contents reads as a free value (R63; log 6). -/
def State.codeAt (s : State) (c : Byte) : CodeRec := (s.code[c.toNat]'c.isLt).getD (Config.unspecifiedCode c)

/-- A command completes: `PEND <- none`, so `BUSY = 0` (R153, R159). -/
def State.done (s : State) : State := { s with pend := none }

/-- `Fail(s, e)` and completion: `ERR <- e`, `OUT <- []`, `PEND <- none`, nothing else (R155, R332). -/
def State.fail (s : State) (e : ErrCode) : State := { s with err := e, out := [], pend := none }

/-- The reset event: every piece of the block's state at its reset value (R62, R360). The other agents and the
instance's parameters are not the block's state. -/
def State.resetBlock (s : State) : State :=
  { State.reset with host := s.host, sched := s.sched, draws := s.draws, config := s.config }

/-- What `CLEAR` leaves: the reset values, `ARG` kept (R301, R362). It is the only return from the error state (R334). -/
def State.clearBlock (s : State) : State := { s.resetBlock with arg := s.arg }

/-- `RES0 <- x`, `RES1 <- y` (R38, R39). -/
def State.setRes (s : State) (x y : Word) : State := { s with res0 := x, res1 := y }

/-- `Enabled` for the list of bytes a command appends (R157). A command that appends nothing is always enabled. -/
def State.fits (s : State) (outl : List Byte) : Bool :=
  outl.isEmpty || decide (s.out.length + outl.length ≤ s.config.outDepth)

/-- A successful command completes in state `t` with output `outl`: the bytes go to the tail of `OUT` at once (R156),
or, where they do not fit, the command is held and nothing changes (R157; log 9). -/
def State.commit (s t : State) (outl : List Byte) : State :=
  if s.fits outl then { t with out := t.out ++ outl, pend := none } else s

/-- What a command's own pseudocode gives: the new state and the bytes to append, or an error (R14, R154). -/
abbrev Body := Except ErrCode (State × List Byte)

/-- The perform of a command that the error gate stops (R154): while `ERR != 0` it completes with no effect; then the
phase check; then the command's own checks and effect. -/
def State.performGated (s : State) (phaseOk : Bool) (body : Body) : State :=
  if s.err ≠ .none then s.done
  else if phaseOk then
    match body with
    | .ok (t, outl) => s.commit t outl
    | .error e => s.fail e
  else s.fail .sequence

/-- The perform of a command that the error gate lets through, that never fails and appends nothing: NOP, CLEAR and
the read-back commands (R154, R161). -/
def performAlways (t : State) : State := t.done

end Sys2Proof.Machine
end

