-- ==== Sys2Proof/Machine/Operands.lean ====
section
/-! DEFINITION. The second operands, taken from the captured `ARG` (30_encoding R123). -/

namespace Sys2Proof.Machine

/-- `a`, the value of ARG captured at issue (R123, R151). With no command pending it is the ARG that an issue would
capture now (log 7). -/
def State.capturedArg (s : State) : Word :=
  match s.pend with
  | some p => p.arg
  | none => s.arg

/-- LOADF's count `k = a[31:0]` (R123). -/
def State.operandCount (s : State) : Word := s.capturedArg

/-- DECSTART's valid-bit count `n = a[31:0]` (R123). -/
def State.operandBits (s : State) : Word := s.capturedArg

/-- RDCODE's window index `wi = a[2:0]`; the other bits are ignored (R123). -/
def State.operandWindow (s : State) : BitVec 3 := s.capturedArg.extractLsb' 0 3

/-- RDNODE's node index `i = a[8:0]`; the other bits are ignored (R123). -/
def State.operandNode (s : State) : NodeIdx := s.capturedArg.extractLsb' 0 9

end Sys2Proof.Machine
end

