-- ==== Sys2Proof/Machine/Flags.lean ====
section
/-! DEFINITION. The error codes' numbers, the phase conditions, and the words of the status-like registers computed
from state (10_state R35, R45, R47, R48; 40_command_model R162; 60_exceptions R320). -/

namespace Sys2Proof.Machine

/-- The 4-bit code of R320. -/
def ErrCode.code : ErrCode → BitVec 4
  | .none => 0#4
  | .emptyInput => 1#4
  | .unknownSymbol => 2#4
  | .truncatedStream => 3#4
  | .badCode => 4#4
  | .sequence => 5#4
  | .overflow => 6#4
  | .illegalCmd => 7#4

/-- `PhaseOK(c, s)`, the table of R162. -/
def phaseOk (i : Instr) (s : State) : Bool :=
  match i with
  | .nop | .clear | .rdfreq _ | .rdcode _ | .rdnode => true
  | .count _ | .loadf _ | .build => !s.tv
  | .gencode => s.tv && !s.cv
  | .encb _ | .encend => s.cv
  | .decstart => s.tv && !s.da
  | .decb _ | .decend => s.da

/-- `BUSY`: 1 when a command is pending (R32, R35, R159). -/
def State.busy (s : State) : Bool := s.pend.isSome

/-- `OUTNE` (R35). -/
def State.outNonEmpty (s : State) : Bool := !s.out.isEmpty

/-- `OUTFULL` (R35). -/
def State.outFull (s : State) : Bool := s.out.length == s.config.outDepth

/-- One bit of a register word. -/
def bit (b : Bool) : BitVec 1 := BitVec.ofBool b

/-- The word `STATUS` reads as (R35). -/
def State.statusWord (s : State) : Word :=
  0#8 ++ BitVec.ofNat 8 s.out.length ++ 0#4 ++ s.err.code ++ 0#1 ++ bit s.outFull ++ bit s.outNonEmpty ++
    bit s.lost ++ bit s.da ++ bit s.cv ++ bit s.tv ++ bit s.busy

/-- The word `TREEINFO` reads as (R45). -/
def State.treeInfoWord (s : State) : Word := 0#5 ++ s.nsym ++ s.ncount.extractLsb' 0 9 ++ s.root

/-- The word `DPOS` reads as (R47). -/
def State.dposWord (s : State) : Word := 0#23 ++ s.dpos

/-- The word `PACK` reads as (R48). -/
def State.packWord (s : State) : Word := 0#21 ++ s.pfill ++ s.pacc

/-- The word a read of `OUT` returns (R40). -/
def State.outWord (s : State) : Word :=
  match s.out with
  | [] => 0#32
  | b :: _ => 0#23 ++ 1#1 ++ b

end Sys2Proof.Machine
end

