-- ==== Sys2Proof/Machine/CodeTable.lean ====
section
/-! DEFINITION. The code table: GENCODE and RDCODE (43_codetable). -/

namespace Sys2Proof.Machine

/-- The code table as it is while `GENCODE` fills it. -/
abbrev CodeTable := Vector (Option CodeRec) 256

/-- `CODE[c] <- {len: len(p), bits: p}` (R230). -/
def CodeTable.assign (t : CodeTable) (c : Byte) (p : List Bool) : CodeTable := t.set c.toNat (some ⟨p⟩) c.isLt

/-- The table before the traversal: every symbol with `len = 0` (R230). -/
def noCodes : CodeTable := Vector.replicate 256 (some ⟨[]⟩)

/-- The levels of a tree `visit` can walk: a code is at most 255 bits, so a leaf is at most 255 steps below the
root (R10, R210, R230). -/
def maxLevels : Nat := 256

/-- `visit(i, p)` of R230 over the nodes `nd`, left before right. `none` where the tree is deeper than the levels
given, which no tree made by BUILD is (R210; log 12). -/
def visit (nd : NodeIdx → NodeRec) : Nat → NodeIdx → List Bool → CodeTable → Option CodeTable
  | 0, _, _, _ => none
  | levels + 1, i, p, t =>
    match (nd i).kind with
    | .leaf => some (t.assign (nd i).sym p)
    | .internal =>
      match (if (nd i).left = NIL then some t else visit nd levels (nd i).left (p ++ [false]) t) with
      | none => none
      | some t1 => if (nd i).right = NIL then some t1 else visit nd levels (nd i).right (p ++ [true]) t1

/-- The code table of the tree below `root` (R230); its contents are unspecified where the traversal would pass
255 levels (log 12). -/
def codeTableOf (nd : NodeIdx → NodeRec) (root : NodeIdx) : CodeTable :=
  (visit nd maxLevels root [] noCodes).getD (Vector.replicate 256 none)

/-- The pseudocode of `GENCODE` (R230). -/
def gencodeBody (s : State) : Body :=
  .ok ({ s with code := codeTableOf s.nodeAt s.root, cv := true }, [])

/-- `GENCODE` (R230). -/
def execGencode (s : State) : Host.Outcome State Fault Refusal :=
  .next (s.performGated (phaseOk .gencode s) (gencodeBody s))

/-- Bit `k` of a code, 0 past its length (R231). -/
def codeBit (bits : List Bool) (k : Nat) : Bool := (bits[k]?).getD false

/-- The 32-bit window `wi` of a code: code bit `32*wi + j` is bit `31 - j` of the word (R231). -/
def windowWord (bits : List Bool) (wi : Nat) : Word :=
  (List.range 32).foldl (fun w j => if codeBit bits (32 * wi + j) then w ||| (0x80000000#32 >>> j) else w) 0#32

/-- `RES0` and `RES1` of `RDCODE c, wi` (R231). -/
def rdcodeResult (c : Byte) (wi : BitVec 3) (s : State) : Word × Word :=
  if s.cv then
    if (s.codeAt c).len > 0 then
      (1#1 ++ 0#23 ++ BitVec.ofNat 8 (s.codeAt c).len, windowWord (s.codeAt c).bits wi.toNat)
    else (0#32, 0#32)
  else (0#32, 0#32)

/-- `RDCODE c, wi` with `wi` from the captured ARG (R231, R123). -/
def execRdcode (c : Byte) (s : State) : Host.Outcome State Fault Refusal :=
  .next (performAlways
    (s.setRes (rdcodeResult c s.operandWindow s).1 (rdcodeResult c s.operandWindow s).2))

end Sys2Proof.Machine
end

