-- ==== Sys2Proof/Machine/Control.lean ====
section
/-! DEFINITION. The control commands NOP and CLEAR, and the perform of an illegal word (46_pipeline R300, R301;
30_encoding R126). -/

namespace Sys2Proof.Machine

/-- `NOP` (R300). -/
def execNop (s : State) : Host.Outcome State Fault Refusal := .next (performAlways s)

/-- `CLEAR` (R301): OUT is emptied (R57, R301; log 8), ARG kept. -/
def execClear (s : State) : Host.Outcome State Fault Refusal := .next (performAlways s.clearBlock)

/-- The perform of a word that decodes as ILLEGAL: `raise ILLEGAL_CMD`, subject to the error gate (R126, R154). -/
def performIllegal (s : State) : State := if s.err ≠ .none then s.done else s.fail .illegalCmd

end Sys2Proof.Machine
end

