-- ==== Sys2Proof/Machine/Decoder.lean ====
section
/-! DEFINITION. The decoder: DECSTART, DECB and DECEND (45_decode). -/

namespace Sys2Proof.Machine

/-- The tree walk while a command runs: the walk position, the declared bits left, the symbols counted and the
bytes emitted so far (R270, R271). -/
structure Walk where
  dpos : NodeIdx
  drem : Word
  dcount : Word
  emitted : List Byte
deriving DecidableEq, Repr

/-- `Step(bit)` over the nodes `nd` (R271): left on 0, right on 1; a missing child is BAD_CODE (R275). -/
def walkStep (nd : NodeIdx → NodeRec) (root : NodeIdx) (bit : Bool) (w : Walk) : Except ErrCode Walk :=
  let child := if bit then (nd w.dpos).right else (nd w.dpos).left
  if child = NIL then .error .badCode
  else match (nd child).kind with
    | .leaf => .ok { w with dpos := root, dcount := w.dcount + 1#32, emitted := w.emitted ++ [(nd child).sym] }
    | .internal => .ok { w with dpos := child }

/-- The bits of `b` at the positions listed, in that order, each taken only while declared bits are left (R270, R273,
R274). -/
def walkBits (nd : NodeIdx → NodeRec) (root : NodeIdx) (b : Byte) : List Nat → Walk → Except ErrCode Walk
  | [], w => .ok w
  | i :: rest, w =>
    if w.drem = 0#32 then .ok w
    else match walkStep nd root (b.getLsbD i) { w with drem := w.drem - 1#32 } with
      | .error e => .error e
      | .ok w' => walkBits nd root b rest w'

/-- Bit 7 down to bit 0 (R270). -/
def bitPositions : List Nat := [7, 6, 5, 4, 3, 2, 1, 0]

/-- The walk at the start of a command. -/
def State.walk (s : State) : Walk := ⟨s.dpos, s.drem, s.dcount, []⟩

/-- The pseudocode of `DECSTART n` (R272). -/
def decstartBody (n : Word) (s : State) : Body :=
  .ok ({ s with drem := n, dpos := s.root, dcount := 0#32, da := true }, [])

/-- `DECSTART n` with `n` from the captured ARG (R272, R123). -/
def execDecstart (s : State) : Host.Outcome State Fault Refusal :=
  .next (s.performGated (phaseOk .decstart s) (decstartBody s.operandBits s))

/-- The pseudocode of `DECB b` (R273). -/
def decbBody (b : Byte) (s : State) : Body :=
  match walkBits s.nodeAt s.root b bitPositions s.walk with
  | .error e => .error e
  | .ok w => .ok ({ s with dpos := w.dpos, drem := w.drem, dcount := w.dcount }, w.emitted)

/-- `DECB b` (R273). -/
def execDecb (b : Byte) (s : State) : Host.Outcome State Fault Refusal :=
  .next (s.performGated (phaseOk (.decb b) s) (decbBody b s))

/-- The pseudocode of `DECEND` (R276). -/
def decendBody (s : State) : Body :=
  if s.drem ≠ 0#32 ∨ s.dpos ≠ s.root then .error .truncatedStream
  else .ok ({ s with da := false, res0 := s.dcount, res1 := 0#32 }, [])

/-- `DECEND` (R276). -/
def execDecend (s : State) : Host.Outcome State Fault Refusal :=
  .next (s.performGated (phaseOk .decend s) (decendBody s))

end Sys2Proof.Machine
end

