-- ==== Sys2Proof/Machine/Encoder.lean ====
section
/-! DEFINITION. The encoder and bit packer: ENCB and ENCEND (44_encode). -/

namespace Sys2Proof.Machine

/-- The bit packer while a command runs: the partial byte, its fill, and the bytes emitted so far (R58, R250). -/
structure Packer where
  pacc : Byte
  pfill : BitVec 3
  emitted : List Byte
deriving DecidableEq, Repr

/-- `v[k] <- b`. -/
def setBit (v : Byte) (k : Nat) (b : Bool) : Byte := if b then v ||| (1#8 <<< k) else v &&& ~~~(1#8 <<< k)

/-- `PutBit(b)` (R250): the next free position is `7 - PFILL`, so bits fill a byte from bit 7 down (R254). -/
def Packer.putBit (p : Packer) (b : Bool) : Packer :=
  let acc := setBit p.pacc (7 - p.pfill.toNat) b
  if p.pfill.toNat + 1 = 8 then ⟨0#8, 0#3, p.emitted ++ [acc]⟩
  else ⟨acc, p.pfill + 1#3, p.emitted⟩

/-- All bits of a code, its first bit first (R251, R252). -/
def Packer.putBits (p : Packer) (bits : List Bool) : Packer := bits.foldl Packer.putBit p

/-- The packer at the start of a command. -/
def State.packer (s : State) : Packer := ⟨s.pacc, s.pfill, []⟩

/-- The pseudocode of `ENCB c` (R252): UNKNOWN_SYMBOL, then OVERFLOW, then the bits. -/
def encbBody (c : Byte) (s : State) : Body :=
  let code := s.codeAt c
  if code.len = 0 then .error .unknownSymbol
  else if s.ebits.toNat + code.len > maxCount then .error .overflow
  else
    let p := s.packer.putBits code.bits
    .ok ({ s with pacc := p.pacc, pfill := p.pfill, ebits := BitVec.ofNat 32 (s.ebits.toNat + code.len) }, p.emitted)

/-- `ENCB c` (R252). -/
def execEncb (c : Byte) (s : State) : Host.Outcome State Fault Refusal :=
  .next (s.performGated (phaseOk (.encb c) s) (encbBody c s))

/-- The pseudocode of `ENCEND` (R256). The partial byte is emitted as it stands (R255). -/
def encendBody (s : State) : Body :=
  .ok ({ s with
    bitcnt := s.ebits
    res0 := s.ebits
    res1 := BitVec.ofNat 32 ((s.ebits.toNat + 7) / 8)
    ebits := 0#32
    pacc := 0#8
    pfill := 0#3 }, if s.pfill = 0#3 then [] else [s.pacc])

/-- `ENCEND` (R256). -/
def execEncend (s : State) : Host.Outcome State Fault Refusal :=
  .next (s.performGated (phaseOk .encend s) (encendBody s))

end Sys2Proof.Machine
end

