-- ==== Sys2Proof/Machine/Frequency.lean ====
section
/-! DEFINITION. The frequency table commands COUNT, LOADF and RDFREQ (41_frequency). -/

namespace Sys2Proof.Machine

/-- The pseudocode of `COUNT c` (R180). -/
def countBody (c : Byte) (s : State) : Body :=
  if s.total.toNat = maxCount then .error .overflow
  else .ok ({ s.setFreq c (s.freqAt c + 1#32) with
      nsym := if s.freqAt c = 0#32 then s.nsym + 1#9 else s.nsym
      total := s.total + 1#32 }, [])

/-- `COUNT c` (R180). -/
def execCount (c : Byte) (s : State) : Host.Outcome State Fault Refusal :=
  .next (s.performGated (phaseOk (.count c) s) (countBody c s))

/-- `TOTAL - FREQ[c] + k` in exact integer arithmetic (R181). -/
def loadTotal (c : Byte) (k : Word) (s : State) : Int :=
  (s.total.toNat : Int) - (s.freqAt c).toNat + k.toNat

/-- `NSYM` after `FREQ[c] <- k` (R181). -/
def loadNsym (c : Byte) (k : Word) (s : State) : BitVec 9 :=
  if s.freqAt c = 0#32 ∧ k ≠ 0#32 then s.nsym + 1#9
  else if s.freqAt c ≠ 0#32 ∧ k = 0#32 then s.nsym - 1#9
  else s.nsym

/-- The pseudocode of `LOADF c, k` (R181). -/
def loadfBody (c : Byte) (k : Word) (s : State) : Body :=
  if loadTotal c k s > (maxCount : Int) then .error .overflow
  else .ok ({ s.setFreq c k with
      nsym := loadNsym c k s
      total := BitVec.ofInt 32 (loadTotal c k s) }, [])

/-- `LOADF c, k` with `k` from the captured ARG (R181, R123). -/
def execLoadf (c : Byte) (s : State) : Host.Outcome State Fault Refusal :=
  .next (s.performGated (phaseOk (.loadf c) s) (loadfBody c s.operandCount s))

/-- `RDFREQ c` (R182). -/
def execRdfreq (c : Byte) (s : State) : Host.Outcome State Fault Refusal :=
  .next (performAlways (s.setRes (s.freqAt c) (s.nsym.setWidth 32)))

end Sys2Proof.Machine
end

