-- ==== Sys2Proof/Machine/Tree.lean ====
section
/-! DEFINITION. The tree builder: BUILD and RDNODE (42_tree). -/

namespace Sys2Proof.Machine

/-- The priority key of a node: its weight, then its index (R200). -/
structure Key where
  weight : Word
  idx : Nat
deriving DecidableEq, Repr

/-- `key(i) < key(j)`, lexicographic (R200). -/
def Key.less (a b : Key) : Bool :=
  decide (a.weight.toNat < b.weight.toNat) || (a.weight == b.weight && decide (a.idx < b.idx))

/-- `ExtractMin`: the least key and the rest of the collection (R201). -/
def extractMin : List Key → Option (Key × List Key)
  | [] => none
  | k :: q =>
    match extractMin q with
    | none => some (k, [])
    | some (m, r) => if k.less m then some (k, m :: r) else some (m, k :: r)

/-- A leaf (R54, R202). -/
def leafNode (c : Byte) (w : Word) : NodeRec := ⟨.leaf, c, w, NIL, NIL⟩

/-- An internal node (R54, R203). -/
def internalNode (w : Word) (l r : NodeIdx) : NodeRec := ⟨.internal, 0#8, w, l, r⟩

/-- Leaf allocation: one leaf per symbol with a frequency entry, in ascending symbol value (R202). -/
def leafNodes (freq : Byte → Word) : List NodeRec :=
  allSyms.filterMap fun c => if freq c = 0#32 then none else some (leafNode c (freq c))

/-- The keys of the nodes from index `i` on (R200). -/
def keysFrom : Nat → List NodeRec → List Key
  | _, [] => []
  | i, nd :: rest => ⟨nd.weight, i⟩ :: keysFrom (i + 1) rest

/-- Combination (R203): `passes` runs of the loop on the collection `q` and the nodes allocated so far; the first
extracted is the left child, the second the right. The loop ends when fewer than two keys are left. -/
def combine : Nat → List Key → List NodeRec → List NodeRec
  | 0, _, nodes => nodes
  | passes + 1, q, nodes =>
    match extractMin q with
    | none => nodes
    | some (x, q1) =>
      match extractMin q1 with
      | none => nodes
      | some (y, q2) =>
        combine passes (⟨x.weight + y.weight, nodes.length⟩ :: q2)
          (nodes ++ [internalNode (x.weight + y.weight) (BitVec.ofNat 9 x.idx) (BitVec.ofNat 9 y.idx)])

/-- The single-symbol wrapper over the lone leaf (R205). -/
def wrapNodes (leaf : NodeRec) : List NodeRec := [leaf, internalNode leaf.weight 0#9 NIL]

/-- The arena `BUILD` leaves: a function of the frequency table alone (R202-R205, R208). -/
def treeNodes (freq : Byte → Word) : List NodeRec :=
  match leafNodes freq with
  | [leaf] => wrapNodes leaf
  | leaves => combine (leaves.length - 1) (keysFrom 0 leaves) leaves

/-- The pseudocode of `BUILD` (R206): the root is the last node allocated (R204, R205). -/
def buildBody (s : State) : Body :=
  if s.nsym = 0#9 then .error .emptyInput
  else
    let nodes := treeNodes s.freqAt
    .ok ({ s with
      node := nodes
      ncount := BitVec.ofNat 10 nodes.length
      root := BitVec.ofNat 9 (nodes.length - 1)
      tv := true }, [])

/-- `BUILD` (R206). -/
def execBuild (s : State) : Host.Outcome State Fault Refusal :=
  .next (s.performGated (phaseOk .build s) (buildBody s))

/-- The word `RES1` that `RDNODE` gives for a node (R209). -/
def nodeWord (nd : NodeRec) : Word :=
  1#1 ++ bit (nd.kind == .internal) ++ 0#4 ++ nd.sym ++ nd.right ++ nd.left

/-- `RES0` and `RES1` of `RDNODE i` (R209). -/
def rdnodeResult (i : NodeIdx) (s : State) : Word × Word :=
  if i.toNat < s.ncount.toNat then ((s.nodeAt i).weight, nodeWord (s.nodeAt i)) else (0#32, 0#32)

/-- `RDNODE i` with `i` from the captured ARG (R209, R123). -/
def execRdnode (s : State) : Host.Outcome State Fault Refusal :=
  .next (performAlways
    (s.setRes (rdnodeResult s.operandNode s).1 (rdnodeResult s.operandNode s).2))

end Sys2Proof.Machine
end

