-- ==== Sys2Proof/Machine/Dispatch.lean ====
section
/-! DEFINITION. `exec`: the perform of one decoded command (40_command_model R153, R154), one arm per constructor. -/

namespace Sys2Proof.Machine

def exec (i : Instr) (s : State) : Host.Outcome State Fault Refusal :=
  match i with
  | .nop => Sys2Proof.Machine.execNop s
  | .clear => Sys2Proof.Machine.execClear s
  | .count c => Sys2Proof.Machine.execCount c s
  | .loadf c => Sys2Proof.Machine.execLoadf c s
  | .build => Sys2Proof.Machine.execBuild s
  | .gencode => Sys2Proof.Machine.execGencode s
  | .encb c => Sys2Proof.Machine.execEncb c s
  | .encend => Sys2Proof.Machine.execEncend s
  | .decstart => Sys2Proof.Machine.execDecstart s
  | .decb b => Sys2Proof.Machine.execDecb b s
  | .decend => Sys2Proof.Machine.execDecend s
  | .rdfreq c => Sys2Proof.Machine.execRdfreq c s
  | .rdcode c => Sys2Proof.Machine.execRdcode c s
  | .rdnode => Sys2Proof.Machine.execRdnode s

end Sys2Proof.Machine
end

