-- ==== Sys2Proof/Machine/Port.lean ====
section
/-! DEFINITION. The register port: the HOST's read and write transactions (20_memory R80-R88, 10_state R33-R48,
40_command_model R151, R152, R160). -/

namespace Sys2Proof.Machine

/-- The sixteen registers (10_state's register map). -/
inductive Reg where
  | id | ctrl | status | cmd | arg | res0 | res1 | out
  | bitcnt | ebits | drem | dcount | treeinfo | total | dpos | pack
deriving DecidableEq, Repr

/-- The register a 4-bit index names; every index names one (R80). -/
def Reg.ofIdx (idx : RegIdx) : Reg :=
  match idx.toNat with
  | 0 => .id
  | 1 => .ctrl
  | 2 => .status
  | 3 => .cmd
  | 4 => .arg
  | 5 => .res0
  | 6 => .res1
  | 7 => .out
  | 8 => .bitcnt
  | 9 => .ebits
  | 10 => .drem
  | 11 => .dcount
  | 12 => .treeinfo
  | 13 => .total
  | 14 => .dpos
  | _ => .pack

/-- The index of a register. -/
def Reg.idx : Reg → RegIdx
  | .id => 0#4
  | .ctrl => 1#4
  | .status => 2#4
  | .cmd => 3#4
  | .arg => 4#4
  | .res0 => 5#4
  | .res1 => 6#4
  | .out => 7#4
  | .bitcnt => 8#4
  | .ebits => 9#4
  | .drem => 10#4
  | .dcount => 11#4
  | .treeinfo => 12#4
  | .total => 13#4
  | .dpos => 14#4
  | .pack => 15#4

/-- `ID`, hardwired (R33). -/
def idWord : Word := 0x48430001#32

/-- The registers whose reads are exact while `BUSY = 1` (R160). -/
def Reg.exactWhileBusy : Reg → Bool
  | .id | .ctrl | .status | .cmd | .arg | .out => true
  | .res0 | .res1 | .bitcnt | .ebits | .drem | .dcount | .treeinfo | .total | .dpos | .pack => false

/-- The exact word of each register, computed from state (R33-R48). -/
def State.regWord (s : State) : Reg → Word
  | .id => idWord
  | .ctrl => 0#32
  | .status => s.statusWord
  | .cmd => 0#32
  | .arg => s.arg
  | .res0 => s.res0
  | .res1 => s.res1
  | .out => s.outWord
  | .bitcnt => s.bitcnt
  | .ebits => s.ebits
  | .drem => s.drem
  | .dcount => s.dcount
  | .treeinfo => s.treeInfoWord
  | .total => s.total
  | .dpos => s.dposWord
  | .pack => s.packWord

/-- The side effect of a read: a read of `OUT` removes the head byte when there is one; no other read has one
(R40, R88). -/
def State.afterRead (s : State) : Reg → State
  | .out => { s with out := s.out.tail }
  | .id | .ctrl | .status | .cmd | .arg | .res0 | .res1 | .bitcnt | .ebits | .drem | .dcount | .treeinfo | .total
  | .dpos | .pack => s

/-- `read(idx)` (R81): the word returned and the state after. While busy, a register that is not exact returns a fresh
draw (R160; log 5). -/
def portRead (idx : RegIdx) (s : State) : State × Word :=
  if s.busy && !(Reg.ofIdx idx).exactWhileBusy then ({ s with draws := s.draws + 1 }, Config.draw s.draws)
  else (s.afterRead (Reg.ofIdx idx), s.regWord (Reg.ofIdx idx))

/-- `write(CMD, w)`: issue the command with the current ARG (R151), or, while one is pending, discard the word and set
LOST (R152). -/
def State.issue (s : State) (w : Word) : State :=
  match s.pend with
  | none => { s with pend := some ⟨w, s.arg⟩ }
  | some _ => { s with lost := true }

/-- `write(CTRL, w)`: a reset event when bit 0 is 1, no effect otherwise (R34). -/
def State.writeCtrl (s : State) (w : Word) : State := if w.getLsbD 0 then s.resetBlock else s

/-- `write(idx, w)` (R81): CTRL, CMD and ARG take it; a write to a read-only register is ignored (R86, R88). -/
def portWrite (idx : RegIdx) (w : Word) (s : State) : State :=
  match Reg.ofIdx idx with
  | .ctrl => s.writeCtrl w
  | .cmd => s.issue w
  | .arg => { s with arg := w }
  | .id | .status | .res0 | .res1 | .out | .bitcnt | .ebits | .drem | .dcount | .treeinfo | .total | .dpos
  | .pack => s

end Sys2Proof.Machine
end

