-- ==== Sys2Proof/Machine/HostAgent.lean ====
section
/-! DEFINITION. One step of the HOST agent: one register access of its next statement (40_command_model R150; 30_encoding
R129, R132, R133; logs 3, 10, 14). -/

namespace Sys2Proof.Machine

/-- Bind a host variable: the list stays sorted by variable, one entry each (log 14). -/
def bindVar : List (Nat × Word) → Nat → Word → List (Nat × Word)
  | [], v, x => [(v, x)]
  | (u, y) :: rest, v, x =>
    if v < u then (v, x) :: (u, y) :: rest
    else if v = u then (v, x) :: rest
    else (u, y) :: bindVar rest v x

/-- The value of a host variable, if it was bound. -/
def lookupVar : List (Nat × Word) → Nat → Option Word
  | [], _ => none
  | (u, y) :: rest, v => if v = u then some y else lookupVar rest v

/-- The host goes on at `prog`. -/
def State.withProg (s : State) (prog : List HostOp) : State := { s with host := { s.host with prog := prog } }

/-- `HOUT <- HOUT ++ [b]` (R129). -/
def State.pushHout (s : State) (b : Byte) : State := { s with host := { s.host with hout := s.host.hout ++ [b] } }

/-- The host binds a variable (R129). -/
def State.bindHostVar (s : State) (v : Nat) (x : Word) : State :=
  { s with host := { s.host with vars := bindVar s.host.vars v x } }

/-- The access at `RD STATUS` of POLL (R132): on OUTNE go to `RD OUT`, on BUSY read STATUS again, else exit. -/
def pollAccess (rest : List HostOp) (s : State) : State :=
  let r := portRead (Reg.status).idx s
  if r.2.getLsbD 5 then r.1.withProg (.pollOut :: rest)
  else if r.2.getLsbD 0 then r.1.withProg (.poll :: rest)
  else r.1.withProg rest

/-- The access at `RD OUT` of POLL (R132): the loop appends `v[7:0]` and starts again (log 10). -/
def pollOutAccess (rest : List HostOp) (s : State) : State :=
  let r := portRead (Reg.out).idx s
  (r.1.pushHout (r.2.extractLsb' 0 8)).withProg (.poll :: rest)

/-- The access of DRAIN (R133): on VALID append the byte and read again, else exit. -/
def drainAccess (rest : List HostOp) (s : State) : State :=
  let r := portRead (Reg.out).idx s
  if r.2.getLsbD 8 then (r.1.pushHout (r.2.extractLsb' 0 8)).withProg (.drain :: rest) else r.1.withProg rest

/-- `RD reg -> var` (R129): the word read is bound to the variable, and nothing else happens to the host. That a byte
popped by a bare `RD OUT -> var` does not join HOUT is the model's reading (log 24). -/
def rdAccess (idx : RegIdx) (v : Nat) (rest : List HostOp) (s : State) : State :=
  let r := portRead idx s
  (r.1.bindHostVar v r.2).withProg rest

/-- One step of the HOST: one access of its next statement (R150); a host that has performed its last statement does
nothing. -/
def hostTurn (s : State) : State :=
  match s.host.prog with
  | [] => s
  | .wr idx w :: rest => (portWrite idx w s).withProg rest
  | .rd idx v :: rest => rdAccess idx v rest s
  | .poll :: rest => pollAccess rest s
  | .pollOut :: rest => pollOutAccess rest s
  | .drain :: rest => drainAccess rest s

end Sys2Proof.Machine
end

