-- ==== Sys2Proof/Machine/Engine.lean ====
section
/-! DEFINITION. The turns of the three agents (40_command_model R150, R153; 20_memory R91; log 4). -/

namespace Sys2Proof.Machine

/-- A turn of the ENGINE: perform the pending command, if there is one (R150, R153). A held command stays (R157). -/
def engineTurn (s : State) : Host.Outcome State Fault Refusal :=
  match s.pend with
  | none => .next s
  | some p =>
    match decode p.word with
    | .ok i => exec i s
    | .error _ => .next (performIllegal s)

/-- One turn of the interleaving (R91). -/
def takeTurn (t : Turn) (s : State) : Host.Outcome State Fault Refusal :=
  match t with
  | .engine => engineTurn s
  | .host => .next (hostTurn s)
  | .reset => .next s.resetBlock

/-- Where no turn is scheduled: the engine performs a pending command that is enabled, else the host goes on (log 4). A
host that has ended leaves the state as it is (R341). -/
def defaultTurn (s : State) : Host.Outcome State Fault Refusal :=
  match engineTurn s with
  | .next t => if s.busy && !t.busy then .next t else .next (hostTurn s)
  | .fault r => .fault r
  | .refused r => .refused r

end Sys2Proof.Machine
end

