-- ==== Sys2Proof/Machine/Step.lean ====
section
/-! DEFINITION. One step of the machine: the next turn of the interleaving (20_memory R91; logs 2, 4). -/

namespace Sys2Proof.Machine

/-- One atomic event of the interleaving (R91). -/
def step (s : State) : Host.Outcome State Fault Refusal :=
  match s.sched with
  | [] => defaultTurn s
  | t :: rest => takeTurn t { s with sched := rest }

/-- The command word `w` issued with the current ARG, and the next turn the engine's: the very next step performs it.
The block fetches nothing (R31, R94); `PEND` stands where a processor keeps its position (R32; log 2). -/
def State.withFetchWord (s : State) (nbits w : Nat) : State :=
  { s with pend := some ⟨tableWord nbits w, s.arg⟩, sched := .engine :: s.sched }

end Sys2Proof.Machine
end

