-- ==== Sys2Proof/Machine/Pipeline.lean ====
section
/-! DEFINITION. The assembler's expansion of host statements (30_encoding R129-R131) and the host procedures Compress
and Decompress (46_pipeline R303-R305). They bind the host, not the block. -/

namespace Sys2Proof.Machine

/-- A mnemonic statement without an ARG operand: `WR CMD, word`, then `POLL` (R131). -/
def issueOps (i : Instr) : List HostOp := [.wr (Reg.cmd).idx (encode i), .poll]

/-- A mnemonic statement with an ARG operand: `WR ARG` first (R131). -/
def issueArgOps (i : Instr) (a : Nat) : List HostOp := .wr (Reg.arg).idx (BitVec.ofNat 32 a) :: issueOps i

/-- The register accesses of a statement whose operands are in range (R129, R130, R131). -/
def Stmt.ops : Stmt → List HostOp
  | .wr reg imm => [.wr (BitVec.ofNat 4 reg) (BitVec.ofNat 32 imm)]
  | .rd reg v => [.rd (BitVec.ofNat 4 reg) v]
  | .poll => [.poll]
  | .drain => [.drain]
  | .cmdw imm => [.wr (Reg.cmd).idx (BitVec.ofNat 32 imm), .poll]
  | .nop => issueOps .nop
  | .clear => issueOps .clear
  | .count c => issueOps (.count (BitVec.ofNat 8 c))
  | .loadf c k => issueArgOps (.loadf (BitVec.ofNat 8 c)) k
  | .build => issueOps .build
  | .gencode => issueOps .gencode
  | .encb c => issueOps (.encb (BitVec.ofNat 8 c))
  | .encend => issueOps .encend
  | .decstart n => issueArgOps .decstart n
  | .decb b => issueOps (.decb (BitVec.ofNat 8 b))
  | .decend => issueOps .decend
  | .rdfreq c => issueOps (.rdfreq (BitVec.ofNat 8 c))
  | .rdcode c wi => issueArgOps (.rdcode (BitVec.ofNat 8 c)) wi
  | .rdnode i => issueArgOps .rdnode i

/-- The assembler: a program with an operand outside its range is rejected, never truncated (R130). -/
def assemble (p : List Stmt) : Option (List HostOp) :=
  if p.all Stmt.wellFormed then some (p.flatMap Stmt.ops) else none

/-- The variable `L` of R303. -/
def varBits : Nat := 256

/-- The variable `st` of R303 and R304. -/
def varStatus : Nat := 257

/-- `Compress(B)` (R303); on an empty buffer the host issues no command (R305). The variable of `F[s]` is `s`. -/
def compressProgram (buf : List Byte) : List Stmt :=
  if buf.isEmpty then []
  else [.clear] ++ buf.map (fun b => .count b.toNat) ++ [.build, .gencode] ++
    buf.map (fun b => .encb b.toNat) ++ [.encend, .rd 8 varBits] ++
    (List.range 256).flatMap (fun c => [.rdfreq c, .rd 5 c]) ++ [.rd 2 varStatus]

/-- `Decompress(P, L, F)` (R304), `table` listing `F[0]` to `F[255]`; the empty case issues no command (R305). R304 lets
the LOADF statements come in any order: that they come in ascending symbol order is this program's choice (log 23).
With no entry in the table but a packed byte or a nonzero bit count, a case neither rule covers, the program of R304
runs all the same, which is the model's choice (log 25). -/
def decompressProgram (packed : List Byte) (bits : Word) (table : List Word) : List Stmt :=
  if packed.isEmpty && bits == 0#32 && table.all (· == 0#32) then []
  else [.clear] ++
    table.zipIdx.filterMap (fun e => if e.1 = 0#32 then none else some (.loadf e.2 e.1.toNat)) ++
    [.build, .decstart bits.toNat] ++ packed.map (fun b => .decb b.toNat) ++ [.decend, .rd 2 varStatus]

/-- The host's check of the status it read last: `ERR = 0` and `LOST = 0` (R303, R304, R375). -/
def statusGood (st : Word) : Bool := st.extractLsb' 8 4 == 0#4 && !st.getLsbD 4

/-- What `Compress` gives: packed bytes, valid-bit count, frequency table (R303). -/
structure Compressed where
  packed : List Byte
  bits : Word
  table : List Word
deriving DecidableEq, Repr

/-- The result of `Compress(buf)` in the state where its program ended; `none` is failure, and HOUT is discarded
(R303, R305). -/
def compressResult (buf : List Byte) (s : State) : Option Compressed :=
  if buf.isEmpty then some ⟨[], 0#32, List.replicate 256 0#32⟩
  else
    match lookupVar s.host.vars varStatus with
    | none => none
    | some st =>
      if statusGood st then
        some ⟨s.host.hout, (lookupVar s.host.vars varBits).getD 0#32,
          (List.range 256).map fun c => (lookupVar s.host.vars c).getD 0#32⟩
      else none

/-- The result of `Decompress(packed, bits, table)` in the state where its program ended (R304, R305). -/
def decompressResult (packed : List Byte) (bits : Word) (table : List Word) (s : State) : Option (List Byte) :=
  if packed.isEmpty && bits == 0#32 && table.all (· == 0#32) then some []
  else
    match lookupVar s.host.vars varStatus with
    | none => none
    | some st => if statusGood st then some s.host.hout else none

end Sys2Proof.Machine
end

