-- ==== Sys2Proof/Safety.lean ====
section
/-! DEFINITION. The terms claims are stated in: frames, the invariants of 10_state R61, bit sequences (00_scope R13,
44_encode R254, R257), paths in the tree (43_codetable R232), sequences of commands, and what a clean entry and a good end of a
run are (70_reset_and_hazards R383, R384). -/

namespace Sys2Proof.Machine

/-! ### Frames -/

/-- One name per field of State. -/
inductive Part where
  | pend | arg | res0 | res1 | tv | cv | da | err | lost | freq | total | nsym | node | root | ncount | code | out
  | pacc | pfill | ebits | bitcnt | drem | dcount | dpos | host | sched | draws | config
deriving DecidableEq, Repr

/-- The two states agree on one field. -/
def Part.same (p : Part) (s t : State) : Prop :=
  match p with
  | .pend => t.pend = s.pend
  | .arg => t.arg = s.arg
  | .res0 => t.res0 = s.res0
  | .res1 => t.res1 = s.res1
  | .tv => t.tv = s.tv
  | .cv => t.cv = s.cv
  | .da => t.da = s.da
  | .err => t.err = s.err
  | .lost => t.lost = s.lost
  | .freq => t.freq = s.freq
  | .total => t.total = s.total
  | .nsym => t.nsym = s.nsym
  | .node => t.node = s.node
  | .root => t.root = s.root
  | .ncount => t.ncount = s.ncount
  | .code => t.code = s.code
  | .out => t.out = s.out
  | .pacc => t.pacc = s.pacc
  | .pfill => t.pfill = s.pfill
  | .ebits => t.ebits = s.ebits
  | .bitcnt => t.bitcnt = s.bitcnt
  | .drem => t.drem = s.drem
  | .dcount => t.dcount = s.dcount
  | .dpos => t.dpos = s.dpos
  | .host => t.host = s.host
  | .sched => t.sched = s.sched
  | .draws => t.draws = s.draws
  | .config => t.config = s.config

/-- The frame: every field but those listed is as before. -/
def SameBut (written : List Part) (s t : State) : Prop := ∀ p : Part, p ∉ written → p.same s t

/-- The state a command writes when it succeeds, by the "Writes" line of its rule (41_frequency to 46_pipeline). -/
def writesOf : Instr → List Part
  | .nop => []
  | .clear =>
    [.res0, .res1, .tv, .cv, .da, .err, .lost, .freq, .total, .nsym, .node, .root, .ncount, .code, .out, .pacc, .pfill,
      .ebits, .bitcnt, .drem, .dcount, .dpos]
  | .count _ | .loadf _ => [.freq, .total, .nsym]
  | .build => [.node, .ncount, .root, .tv]
  | .gencode => [.code, .cv]
  | .encb _ => [.pacc, .pfill, .ebits, .out]
  | .encend => [.bitcnt, .res0, .res1, .ebits, .pacc, .pfill, .out]
  | .decstart => [.drem, .dpos, .dcount, .da]
  | .decb _ => [.drem, .dpos, .dcount, .out]
  | .decend => [.da, .res0, .res1]
  | .rdfreq _ | .rdcode _ | .rdnode => [.res0, .res1]

/-- The command fails with `e` (R155, R332): ERR is `e`, OUT is emptied, PEND is none, nothing else changes. -/
def FailsWith (e : ErrCode) (i : Instr) (s : State) : Prop :=
  ∃ t, exec i s = .next t ∧ t.err = e ∧ t.out = [] ∧ t.pend = none ∧ SameBut [.err, .out, .pend] s t

/-! ### Invariants (R61) -/

/-- The sum of all frequency entries (R46, R61). -/
def freqSum (freq : Byte → Word) : Nat := (allSyms.map fun c => (freq c).toNat).sum

/-- The number of symbols with an entry (R53, R61). -/
def entryCount (freq : Byte → Word) : Nat := (allSyms.filter fun c => decide (freq c ≠ 0#32)).length

/-- R61, 1: TOTAL is the sum of FREQ. -/
abbrev InvTotal (s : State) : Prop := s.total.toNat = freqSum s.freqAt

/-- R61, 2: NSYM is the number of symbols with an entry. -/
abbrev InvNsym (s : State) : Prop := s.nsym.toNat = entryCount s.freqAt

/-- R61, 3: codes and an open decode need a tree. -/
abbrev InvPhase (s : State) : Prop := (s.cv = true → s.tv = true) ∧ (s.da = true → s.tv = true)

/-- R61, 4, without a tree. -/
abbrev InvNoTree (s : State) : Prop := s.tv = false → s.root = 0#9 ∧ s.ncount = 0#10

/-- R61, 4 and 5, with a tree: its size and root, and NODE is what BUILD makes of FREQ as it stands (R208). -/
abbrev InvTree (s : State) : Prop :=
  s.tv = true →
    1 ≤ s.nsym.toNat ∧
    s.ncount.toNat = (if s.nsym.toNat = 1 then 2 else 2 * s.nsym.toNat - 1) ∧
    s.root.toNat = s.ncount.toNat - 1 ∧
    s.node = treeNodes s.freqAt

/-- With codes, CODE is what GENCODE makes of the tree (R230, R302). -/
abbrev InvCode (s : State) : Prop := s.cv = true → s.code = codeTableOf s.nodeAt s.root

/-- R61, 6: PFILL is EBITS mod 8, and the free bits of PACC are 0. -/
abbrev InvPacker (s : State) : Prop :=
  s.pfill.toNat = s.ebits.toNat % 8 ∧ ∀ k < 8 - s.pfill.toNat, s.pacc.getLsbD k = false

/-- R61, 7: the walk position of an open decode is an internal node in use. -/
abbrev InvWalk (s : State) : Prop :=
  s.da = true → s.dpos.toNat < s.ncount.toNat ∧ (s.nodeAt s.dpos).kind = .internal

/-- R61, 8: the queue is within its depth. -/
abbrev InvQueue (s : State) : Prop := s.out.length ≤ s.config.outDepth

/-- R61, 9: under an error the queue is empty. -/
abbrev InvError (s : State) : Prop := s.err ≠ .none → s.out = []

/-- R17, R271: the symbols decoded and the bits left never pass the declared count, so DCOUNT cannot overflow. -/
abbrev InvDecodeCount (s : State) : Prop := s.dcount.toNat + s.drem.toNat ≤ maxCount

/-- The invariants of R61 together, with those R17, R302 and R271 add. -/
abbrev Inv (s : State) : Prop :=
  InvTotal s ∧ InvNsym s ∧ InvPhase s ∧ InvNoTree s ∧ InvTree s ∧ InvCode s ∧ InvPacker s ∧ InvWalk s ∧
    InvQueue s ∧ InvError s ∧ InvDecodeCount s

/-! ### Bit sequences -/

/-- The bits of a byte, bit 7 first (R83, R254, R270). -/
def byteBits (b : Byte) : List Bool := bitPositions.map b.getLsbD

/-- The bit sequence of a packed buffer (R83). -/
def bytesBits (bytes : List Byte) : List Bool := bytes.flatMap byteBits

/-- The bits already placed in the partial byte (R58). -/
def State.partialBits (s : State) : List Bool := (byteBits s.pacc).take s.pfill.toNat

/-- `pack` of R257: groups of 8 bits, MSB first, the last group filled with 0. The first argument bounds the number of
groups. -/
def packGroups : Nat → List Bool → List Byte
  | 0, _ => []
  | groups + 1, bits =>
    if bits.isEmpty then []
    else (List.range 8).foldl (fun b j => setBit b (7 - j) (codeBit bits j)) 0#8 :: packGroups groups (bits.drop 8)

/-- `pack(bits)` (R257). -/
def pack (bits : List Bool) : List Byte := packGroups bits.length bits

/-- The bit sequence of a symbol sequence under the code table (R251). -/
def State.codeBits (s : State) (syms : List Byte) : List Bool := syms.flatMap fun c => (s.codeAt c).bits

/-! ### Paths -/

/-- One step from node `i`: left on 0, right on 1 (R13, R271). -/
def childOf (nd : NodeIdx → NodeRec) (i : NodeIdx) (b : Bool) : NodeIdx := if b then (nd i).right else (nd i).left

/-- The path `p` leads from node `i` to node `j`, every step from an internal node to a child that is there (R232). -/
def pathTo (nd : NodeIdx → NodeRec) : NodeIdx → List Bool → NodeIdx → Prop
  | i, [], j => i = j
  | i, b :: p, j => (nd i).kind = .internal ∧ childOf nd i b ≠ NIL ∧ pathTo nd (childOf nd i b) p j

/-- The tree walk over a bit sequence from position `i`: the end position and the symbols emitted; `none` when a step
selects a missing child (R271, R273, R275). -/
def decodeBits (nd : NodeIdx → NodeRec) (root : NodeIdx) : NodeIdx → List Bool → Option (NodeIdx × List Byte)
  | i, [] => some (i, [])
  | i, b :: rest =>
    if childOf nd i b = NIL then none
    else match (nd (childOf nd i b)).kind with
      | .leaf => (decodeBits nd root root rest).map fun r => (r.1, (nd (childOf nd i b)).sym :: r.2)
      | .internal => decodeBits nd root (childOf nd i b) rest

/-! ### Sequences of commands -/

/-- The host issues a command with an ARG value, through the port (R131), the engine performs it, and the host drains
OUT (R132): the state after and the bytes drained. `none` where the command is held. -/
def issueAndDrain (i : Instr) (a : Word) (s : State) : Option (State × List Byte) :=
  match engineTurn (portWrite (Reg.cmd).idx (encode i) (portWrite (Reg.arg).idx a s)) with
  | .next t => if t.busy then none else some ({ t with out := [] }, t.out)
  | .fault _ => none
  | .refused _ => none

/-- A sequence of commands with their ARG values; the bytes drained, in order. -/
def runCommands : List (Instr × Word) → State → Option (State × List Byte)
  | [], s => some (s, [])
  | (i, a) :: rest, s =>
    match issueAndDrain i a s with
    | none => none
    | some (t, bytes) => (runCommands rest t).map fun r => (r.1, bytes ++ r.2)

/-- Commands whose ARG value does not matter, issued with ARG = 0. -/
def plain (is : List Instr) : List (Instr × Word) := is.map fun i => (i, 0#32)

/-- The commands of `Compress(buf)` up to the closing of the stream (R303). -/
def compressCommands (buf : List Byte) : List (Instr × Word) :=
  plain ([.clear] ++ buf.map .count ++ [.build, .gencode] ++ buf.map .encb ++ [.encend])

/-- The commands of `Decompress(packed, bits, table)`, the entries of `table` loaded in the order `order` (R304). -/
def decompressCommands (packed : List Byte) (bits : Word) (table : Byte → Word) (order : List Byte) :
    List (Instr × Word) :=
  plain [.clear] ++ order.map (fun c => (.loadf c, table c)) ++ plain [.build] ++ [(.decstart, bits)] ++
    plain (packed.map .decb ++ [.decend])

/-! ### Entry and end of a run -/

/-- The clean entry of R384: the state after a reset event or a completed CLEAR, so every piece of state at its reset
value (R62) but ARG, which CLEAR keeps (R362), and NODE and CODE, which both leave unspecified (R63). Nothing is asked of
the other agents. -/
def State.cleanEntry (s : State) : Bool :=
  decide ({ s with node := s.clearBlock.node, code := s.clearBlock.code } = s.clearBlock)

/-- A run of the host program has ended (R383). That the host has read OUT until `VALID = 0` is read as: OUT is empty,
whoever emptied it, with no such read asked for. This is the model's reading (log 26). -/
def State.ended (s : State) : Bool := s.host.prog.isEmpty && s.pend.isNone && s.out.isEmpty

/-- The premises of every claim about a run's output: `ERR = 0` and `LOST = 0` at its end (R375, R383). -/
def State.goodEnd (s : State) : Bool := s.ended && s.err == .none && !s.lost

end Sys2Proof.Machine
end

