-- ==== Sys2Proof/Certificates/Slice0/Obligations.lean ====
section
/-! DEFINITION. The statements for the provers, each from the numbered rules its docstring names. -/

open Sys2Proof Sys2Proof.Machine

/-! ### Encoding (30_encoding) -/

/-- R120, R124, R126: decoding is the exact inverse of encoding; every word has at most one command and every command
exactly one word. -/
def Obligations.DecodeIsTheInverseOfEncode : Prop :=
  ∀ (w : Word) (i : Instr), decode w = .ok i ↔ encode i = w

/-- R125: the rows are form N (whole word compared) or form S (SYM free); no word matches two rows; a word decodes to a
command exactly when that command's row matches. -/
def Obligations.OpcodeRowsMatchAtMostOneCommand : Prop :=
  (∀ r ∈ opcodeRows, (r.mask = 0xFFFFFFFF#32 ∨ r.mask = 0xFFFF00FF#32) ∧ r.pattern.toNat ≤ 0x0D) ∧
  (∀ (w : Word) (r r' : OpcodeRow), r ∈ opcodeRows → r' ∈ opcodeRows →
    w &&& r.mask = r.pattern → w &&& r'.mask = r'.pattern → r = r') ∧
  (∀ (w : Word) (m : String),
    (∃ r ∈ opcodeRows, r.mnemonic = m ∧ w &&& r.mask = r.pattern) ↔ ∃ i, decode w = .ok i ∧ i.mnemonic = m)

/-- R126, R127: the words that decode as ILLEGAL are exactly the three kinds; the perform of one raises ILLEGAL_CMD when
`ERR = 0` and has no effect when `ERR != 0`. -/
def Obligations.IllegalWordsRaiseIllegalCmd : Prop :=
  (∀ w : Word, (∃ e, decode w = .error e) ↔
    0x0E ≤ w.toNat % 256 ∨ w.toNat / 65536 ≠ 0 ∨
      (w.toNat % 256 ∈ [0x00, 0x01, 0x04, 0x05, 0x07, 0x08, 0x0A, 0x0D] ∧ w.toNat / 256 % 256 ≠ 0)) ∧
  (∀ (s : State) (p : PendCmd) (e : Illegal), s.pend = some p → decode p.word = .error e → s.err = .none →
    ∃ t, engineTurn s = .next t ∧ t.err = .illegalCmd ∧ t.err.code = 7#4 ∧ t.out = [] ∧ t.pend = none ∧
      SameBut [.err, .out, .pend] s t) ∧
  (∀ (s : State) (p : PendCmd) (e : Illegal), s.pend = some p → decode p.word = .error e → s.err ≠ .none →
    ∃ t, engineTurn s = .next t ∧ t.pend = none ∧ SameBut [.pend] s t)

/-- R124, R130, 95_test_vectors P1, P2: words the spec writes out decode to the commands it gives for them. -/
def Obligations.SpecWordsDecodeAsWritten : Prop :=
  decode 0x00000000#32 = .ok .nop ∧ decode 0x00000001#32 = .ok .clear ∧ decode 0x00006102#32 = .ok (.count 0x61#8) ∧
  decode 0x00006103#32 = .ok (.loadf 0x61#8) ∧ decode 0x00000004#32 = .ok .build ∧
  decode 0x00000005#32 = .ok .gencode ∧ decode 0x00006306#32 = .ok (.encb 0x63#8) ∧
  decode 0x00000007#32 = .ok .encend ∧ decode 0x00000008#32 = .ok .decstart ∧
  decode 0x00001F09#32 = .ok (.decb 0x1F#8) ∧ decode 0x0000000A#32 = .ok .decend ∧
  decode 0x0000610B#32 = .ok (.rdfreq 0x61#8) ∧ decode 0x0000630C#32 = .ok (.rdcode 0x63#8) ∧
  decode 0x0000000D#32 = .ok .rdnode

/-! ### The interleaving and the engine (20_memory, 40_command_model) -/

/-- R91, R153, R154: at the engine's turn the step is `exec` of the pending command; the model's own ways to reach that
turn (log 2, log 4) are the scheduled turn, `withFetchWord`, and the default turn when the command is enabled. -/
def Obligations.StepPerformsThePendingCommand : Prop :=
  (∀ (s : State) (p : PendCmd) (i : Instr) (rest : List Turn), s.sched = .engine :: rest → s.pend = some p →
    decode p.word = .ok i → step s = exec i { s with sched := rest }) ∧
  (∀ (s : State) (nbits w : Nat) (i : Instr), decodeTableWord nbits w = some i →
    step (s.withFetchWord nbits w) = exec i { s with pend := some ⟨tableWord nbits w, s.arg⟩ }) ∧
  (∀ (s t : State) (p : PendCmd) (i : Instr), s.sched = [] → s.pend = some p → decode p.word = .ok i →
    exec i s = .next t → t.pend = none → step s = .next t)

/-- R154, R341: `Exec` is total, so every step answers a next state; the engine does nothing without a pending command;
an idle block with an idle host (log 18) holds its state. -/
def Obligations.EveryStepAnswersANextState : Prop :=
  (∀ s : State, ∃ t, step s = .next t) ∧
  (∀ s : State, s.pend = none → engineTurn s = .next s) ∧
  (∀ s : State, s.pend = none → s.host.prog = [] → s.sched = [] → step s = .next s)

/-- R155, R332: a perform that sets an error does so from `ERR = 0`, empties OUT, completes, and changes nothing
else. -/
def Obligations.FailingCommandChangesOnlyErrAndOut : Prop :=
  ∀ s t : State, engineTurn s = .next t → t.err ≠ .none → t.err ≠ s.err →
    s.err = .none ∧ t.out = [] ∧ t.pend = none ∧ SameBut [.err, .out, .pend] s t

/-- R333, R334: under an error, every step of any agent leaves ERR, an empty OUT and all codec state as they are, except
a CLEAR or a reset event, after which `ERR = 0` and the whole operation is discarded. The pin's reset event is the
model's turn `.reset` (log 19). -/
def Obligations.ErrorStateIsLeftOnlyByClearOrReset : Prop :=
  ∀ s t : State, Inv s → s.err ≠ .none → step s = .next t →
    (t.err = s.err ∧ t.out = [] ∧ SameBut [.pend, .arg, .res0, .res1, .lost, .host, .sched, .draws] s t) ∨
    (t.err = .none ∧ SameBut [.arg, .host, .sched] s.resetBlock t ∧
      ((∃ p, s.pend = some p ∧ decode p.word = .ok .clear) ∨ s.sched.head? = some .reset ∨
        ∃ w rest, s.host.prog = .wr 1#4 w :: rest ∧ w.getLsbD 0 = true))

/-- R320, R326, R331: the numbers of the error codes, that no code passes 7, and which commands raise which. -/
def Obligations.ErrorCodesAndWhoRaisesThem : Prop :=
  (ErrCode.code .none = 0#4 ∧ ErrCode.code .emptyInput = 1#4 ∧ ErrCode.code .unknownSymbol = 2#4 ∧
    ErrCode.code .truncatedStream = 3#4 ∧ ErrCode.code .badCode = 4#4 ∧ ErrCode.code .sequence = 5#4 ∧
    ErrCode.code .overflow = 6#4 ∧ ErrCode.code .illegalCmd = 7#4) ∧
  (∀ s : State, s.err.code.toNat ≤ 7) ∧
  (∀ (s t : State) (p : PendCmd), s.pend = some p → engineTurn s = .next t → s.err = .none → t.err ≠ .none →
    match t.err with
    | .none => False
    | .emptyInput => decode p.word = .ok .build
    | .unknownSymbol => ∃ c, decode p.word = .ok (.encb c)
    | .truncatedStream => decode p.word = .ok .decend
    | .badCode => ∃ b, decode p.word = .ok (.decb b)
    | .sequence => ∃ i, decode p.word = .ok i ∧ i ≠ .nop ∧ i ≠ .clear ∧ i ≠ .rdnode ∧ (∀ c, i ≠ .rdfreq c) ∧
        ∀ c, i ≠ .rdcode c
    | .overflow => ∃ c, decode p.word = .ok (.count c) ∨ decode p.word = .ok (.loadf c) ∨
        decode p.word = .ok (.encb c)
    | .illegalCmd => ∃ e, decode p.word = .error e)

/-- R162, R325: the table of phase conditions; a command whose condition is false raises SEQUENCE and changes nothing
else, and one whose condition is true does not raise it. -/
def Obligations.PhaseTableDecidesSequence : Prop :=
  ∀ (i : Instr) (s : State), s.err = .none →
    let ok : Prop := match i with
      | .nop | .clear | .rdfreq _ | .rdcode _ | .rdnode => True
      | .count _ | .loadf _ | .build => s.tv = false
      | .gencode => s.tv = true ∧ s.cv = false
      | .encb _ | .encend => s.cv = true
      | .decstart => s.tv = true ∧ s.da = false
      | .decb _ | .decend => s.da = true
    (¬ ok → FailsWith .sequence i s) ∧
    (ok → ∃ t, exec i s = .next t ∧ t.err ≠ .sequence)

/-- R163: the phase flags change only as the table says. -/
def Obligations.PhaseFlagsChangeOnlyByTheTable : Prop :=
  ∀ (i : Instr) (s t : State), Inv s → exec i s = .next t →
    (t.tv, t.cv, t.da) = (s.tv, s.cv, s.da) ∨
    (i = .clear ∧ (t.tv, t.cv, t.da) = (false, false, false)) ∨
    (i = .build ∧ (s.tv, s.cv, s.da) = (false, false, false) ∧ (t.tv, t.cv, t.da) = (true, false, false)) ∨
    (i = .gencode ∧ (s.tv, s.cv) = (true, false) ∧ (t.tv, t.cv, t.da) = (true, true, s.da)) ∨
    (i = .decstart ∧ (s.tv, s.da) = (true, false) ∧ (t.tv, t.cv, t.da) = (true, s.cv, true)) ∨
    (i = .decend ∧ (s.tv, s.da) = (true, true) ∧ (t.tv, t.cv, t.da) = (true, s.cv, false))

/-- R38, R39, R161: a step changes RES0 or RES1 only by the six commands named, or by a reset event, which zeroes
both. The pin's reset event is the model's turn `.reset` (log 19). -/
def Obligations.ResultRegistersWrittenOnlyBySixCommands : Prop :=
  ∀ s t : State, step s = .next t → (t.res0 ≠ s.res0 ∨ t.res1 ≠ s.res1) →
    (∃ p i, s.pend = some p ∧ decode p.word = .ok i ∧
      (i = .clear ∨ i = .encend ∨ i = .decend ∨ i = .rdnode ∨ (∃ c, i = .rdfreq c) ∨ ∃ c, i = .rdcode c)) ∨
    (t.res0 = 0#32 ∧ t.res1 = 0#32 ∧
      (s.sched.head? = some .reset ∨ ∃ w rest, s.host.prog = .wr 1#4 w :: rest ∧ w.getLsbD 0 = true))

/-- R37, R151, R372: the host's write sets ARG and nothing else, a read returns it even while busy, no command changes it,
and a command already issued keeps the value captured at its issue. -/
def Obligations.ArgIsSetOnlyByTheHost : Prop :=
  (∀ (s : State) (w : Word), (portWrite 4#4 w s).arg = w ∧ SameBut [.arg] s (portWrite 4#4 w s) ∧
    (portRead 4#4 (portWrite 4#4 w s)).2 = w) ∧
  (∀ s t : State, engineTurn s = .next t → t.arg = s.arg) ∧
  (∀ s : State, s.resetBlock.arg = 0#32) ∧
  (∀ (s : State) (w w' : Word), s.pend = none →
    (portWrite 4#4 w' (portWrite 3#4 w s)).pend = some ⟨w, s.arg⟩)

/-- R51, R328: a step sets LOST only by a CMD write while a command is pending, and clears it only by CLEAR or a reset
event; LOST has no effect on any command. The pin's reset event is the model's turn `.reset` (log 19). -/
def Obligations.LostIsSetAndClearedAsStated : Prop :=
  (∀ s t : State, step s = .next t → s.lost = false → t.lost = true →
    s.pend ≠ none ∧ ∃ w rest, s.host.prog = .wr 3#4 w :: rest) ∧
  (∀ s t : State, step s = .next t → s.lost = true → t.lost = false →
    (∃ p, s.pend = some p ∧ decode p.word = .ok .clear) ∨ s.sched.head? = some .reset ∨
      ∃ w rest, s.host.prog = .wr 1#4 w :: rest ∧ w.getLsbD 0 = true) ∧
  (∀ (s : State) (w : Word), s.pend ≠ none → (portWrite 3#4 w s).lost = true) ∧
  (∀ s t : State, exec .clear s = .next t → t.lost = false) ∧
  (∀ s : State, s.resetBlock.lost = false) ∧
  (∀ (i : Instr) (s t : State) (b : Bool), exec i s = .next t → i ≠ .clear →
    exec i { s with lost := b } = .next { t with lost := b })

/-- R155, R161 and the "Writes" line of every command rule: a perform that records no new error changes, besides PEND,
only what its rule lists. -/
def Obligations.EveryCommandWritesOnlyWhatItsRuleLists : Prop :=
  ∀ (i : Instr) (s t : State), exec i s = .next t →
    SameBut (.pend :: writesOf i) s t ∨ (s.err = .none ∧ t.err ≠ .none ∧ SameBut [.err, .out, .pend] s t)

/-- R157, R156: ENCB, ENCEND and DECB are held, and nothing at all changes, while the bytes they would append do not fit;
a command pending on an empty OUT always performs. -/
def Obligations.CommandsAreHeldOnlyForRoomInOut : Prop :=
  (∀ (s : State) (c : Byte), s.err = .none → s.cv = true → 0 < (s.codeAt c).len →
    s.ebits.toNat + (s.codeAt c).len ≤ 4294967295 → 8 ≤ s.pfill.toNat + (s.codeAt c).len →
    s.config.outDepth < s.out.length + (s.pfill.toNat + (s.codeAt c).len) / 8 → exec (.encb c) s = .next s) ∧
  (∀ s : State, s.err = .none → s.cv = true → 0 < s.pfill.toNat → s.config.outDepth < s.out.length + 1 →
    exec .encend s = .next s) ∧
  (∀ (s : State) (b : Byte) (j : NodeIdx) (syms : List Byte), s.err = .none → s.da = true →
    decodeBits s.nodeAt s.root s.dpos ((byteBits b).take s.drem.toNat) = some (j, syms) → syms ≠ [] →
    s.config.outDepth < s.out.length + syms.length → exec (.decb b) s = .next s) ∧
  (∀ (s : State) (p : PendCmd), Inv s → s.pend = some p → s.out = [] →
    ∃ t, engineTurn s = .next t ∧ t.pend = none)

/-- R158: once the pending command is enabled, any step of the host short of a reset leaves it pending and enabled. -/
def Obligations.EnabledCommandStaysEnabled : Prop :=
  ∀ (s t : State) (p : PendCmd), s.pend = some p → engineTurn s = .next t → t.pend = none →
    (∀ w rest, s.host.prog = .wr 1#4 w :: rest → w.getLsbD 0 = false) →
    (hostTurn s).pend = some p ∧ ∃ u, engineTurn (hostTurn s) = .next u ∧ u.pend = none

/-- R253: the most bytes one perform appends: 32 for ENCB, 1 for ENCEND, 8 for DECB, none for any other command. -/
def Obligations.OutputOfOneCommandIsBounded : Prop :=
  ∀ (i : Instr) (s t : State), Inv s → exec i s = .next t → t.err = .none → i ≠ .clear →
    ∃ outl, t.out = s.out ++ outl ∧
      outl.length ≤ (match i with
        | .encb _ => 32
        | .encend => 1
        | .decb _ => 8
        | .nop | .clear | .count _ | .loadf _ | .build | .gencode | .decstart | .decend | .rdfreq _ | .rdcode _
        | .rdnode => 0)

/-! ### The register port (10_state, 20_memory) -/

/-- R151, R152, R36: a CMD write with nothing pending captures the word and ARG and changes nothing else; with a command
pending it sets LOST and changes nothing else; CMD reads 0. -/
def Obligations.CmdWriteIssuesOrSetsLost : Prop :=
  (∀ (s : State) (w : Word), s.pend = none →
    (portWrite 3#4 w s).pend = some ⟨w, s.arg⟩ ∧ SameBut [.pend] s (portWrite 3#4 w s)) ∧
  (∀ (s : State) (w : Word) (p : PendCmd), s.pend = some p →
    (portWrite 3#4 w s).lost = true ∧ SameBut [.lost] s (portWrite 3#4 w s)) ∧
  (∀ s : State, portRead 3#4 s = (s, 0#32))

/-- R35: every field of STATUS, exact also while busy, reserved bits 0; reading clears nothing and writing is ignored. -/
def Obligations.StatusFieldsAreExact : Prop :=
  ∀ s : State, InvQueue s →
    ∃ w : Word, portRead 2#4 s = (s, w) ∧
      w.getLsbD 0 = s.pend.isSome ∧ w.getLsbD 1 = s.tv ∧ w.getLsbD 2 = s.cv ∧ w.getLsbD 3 = s.da ∧
      w.getLsbD 4 = s.lost ∧ w.getLsbD 5 = decide (s.out.length > 0) ∧
      w.getLsbD 6 = decide (s.out.length = s.config.outDepth) ∧ w.getLsbD 7 = false ∧
      w.extractLsb' 8 4 = s.err.code ∧ w.extractLsb' 12 4 = 0#4 ∧
      (w.extractLsb' 16 8).toNat = s.out.length ∧ w.extractLsb' 24 8 = 0#8 ∧
      ∀ x : Word, portWrite 2#4 x s = s

/-- R40, R374: a read of OUT returns VALID with the head byte and removes it, or 0 and no change when OUT is empty; also
while busy; writes are ignored. -/
def Obligations.OutReadPopsTheHead : Prop :=
  (∀ (s : State) (b : Byte) (rest : List Byte), s.out = b :: rest →
    (portRead 7#4 s).2.toNat = 256 + b.toNat ∧ (portRead 7#4 s).1.out = rest ∧
      SameBut [.out] s (portRead 7#4 s).1) ∧
  (∀ s : State, s.out = [] → portRead 7#4 s = (s, 0#32)) ∧
  (∀ (s : State) (w : Word), portWrite 7#4 w s = s)

/-- R160, R87, R88: while busy ID, CTRL, CMD and ARG read exactly and the ten other registers return a fresh draw (the
`n`-th value of an opaque constant, log 5), changing nothing of the block; when not busy every register but OUT reads
its exact word with no side effect. -/
def Obligations.ReadsWhileBusyAreDraws : Prop :=
  (∀ (s : State) (idx : RegIdx), s.pend ≠ none →
    idx ∈ [5#4, 6#4, 8#4, 9#4, 10#4, 11#4, 12#4, 13#4, 14#4, 15#4] →
    (portRead idx s).2 = Config.draw s.draws ∧ (portRead idx s).1.draws = s.draws + 1 ∧
      SameBut [.draws] s (portRead idx s).1) ∧
  (∀ s : State, portRead 0#4 s = (s, 0x48430001#32) ∧ portRead 1#4 s = (s, 0#32) ∧ portRead 3#4 s = (s, 0#32) ∧
    portRead 4#4 s = (s, s.arg)) ∧
  (∀ s : State, s.pend = none →
    portRead 5#4 s = (s, s.res0) ∧ portRead 6#4 s = (s, s.res1) ∧ portRead 8#4 s = (s, s.bitcnt) ∧
    portRead 9#4 s = (s, s.ebits) ∧ portRead 10#4 s = (s, s.drem) ∧ portRead 11#4 s = (s, s.dcount) ∧
    portRead 13#4 s = (s, s.total))

/-- R45, R47, R48, R86: the fields of TREEINFO, DPOS and PACK when not busy, with their reserved bits 0. -/
def Obligations.TreeInfoDposAndPackFields : Prop :=
  ∀ s : State, Inv s → s.pend = none →
    (∃ w : Word, portRead 12#4 s = (s, w) ∧ w.extractLsb' 0 9 = s.root ∧
      (w.extractLsb' 9 9).toNat = s.ncount.toNat ∧ (w.extractLsb' 18 9).toNat = entryCount s.freqAt ∧
      w.extractLsb' 27 5 = 0#5 ∧ (s.tv = false → w.extractLsb' 0 18 = 0#18)) ∧
    (∃ w : Word, portRead 14#4 s = (s, w) ∧ w.extractLsb' 0 9 = s.dpos ∧ w.extractLsb' 9 23 = 0#23) ∧
    (∃ w : Word, portRead 15#4 s = (s, w) ∧ w.extractLsb' 0 8 = s.pacc ∧ w.extractLsb' 8 3 = s.pfill ∧
      w.extractLsb' 11 21 = 0#21)

/-- R86: a write to a read-only register is ignored entirely. -/
def Obligations.WritesToReadOnlyRegistersAreIgnored : Prop :=
  ∀ (s : State) (w : Word) (idx : RegIdx),
    idx ∈ [0#4, 2#4, 5#4, 6#4, 7#4, 8#4, 9#4, 10#4, 11#4, 12#4, 13#4, 14#4, 15#4] → portWrite idx w s = s

/-! ### Reset and CLEAR (10_state, 46_pipeline, 70_reset_and_hazards) -/

/-- R62, R360, R361: a reset event, by the pin or by CTRL bit 0, in any state, leaves every piece of state at its reset
value (NODE and CODE are unspecified: nothing is said of them), discards a pending command, and every register reads 0
but ID. A CTRL write with bit 0 = 0 has no effect (R34). The pin's reset event is the model's turn `.reset`
(log 19); what the host holds and the schedule are no state of the spec's table, and nothing is said of them. -/
def Obligations.ResetEventLeavesTheResetValues : Prop :=
  let isReset (t : State) : Prop :=
    t.pend = none ∧ t.arg = 0#32 ∧ t.res0 = 0#32 ∧ t.res1 = 0#32 ∧ t.tv = false ∧ t.cv = false ∧ t.da = false ∧
    t.err = .none ∧ t.lost = false ∧ (∀ c, t.freqAt c = 0#32) ∧ t.total = 0#32 ∧ t.nsym = 0#9 ∧ t.root = 0#9 ∧
    t.ncount = 0#10 ∧ t.out = [] ∧ t.pacc = 0#8 ∧ t.pfill = 0#3 ∧ t.ebits = 0#32 ∧ t.bitcnt = 0#32 ∧
    t.drem = 0#32 ∧ t.dcount = 0#32 ∧ t.dpos = 0#9 ∧ (portRead 0#4 t).2 = 0x48430001#32 ∧
    ∀ idx : RegIdx, idx ≠ 0#4 → (portRead idx t).2 = 0#32
  isReset State.reset ∧
  (∀ (s : State) (rest : List Turn), s.sched = .reset :: rest → ∃ t, step s = .next t ∧ isReset t) ∧
  (∀ (s : State) (w : Word), w.getLsbD 0 = true → isReset (portWrite 1#4 w s)) ∧
  (∀ (s : State) (w : Word), w.getLsbD 0 = false → portWrite 1#4 w s = s)

/-- R301, R362: CLEAR completes in every state, error state included; it leaves what a reset event leaves, except that
ARG is unchanged; STATUS and TREEINFO then read 0. R301 leaves NODE and CODE unspecified: that both hold after CLEAR what
they hold after a reset event is the model's choice (log 6). -/
def Obligations.ClearLeavesTheResetStateButArg : Prop :=
  ∀ s : State, ∃ t, exec .clear s = .next t ∧ t.arg = s.arg ∧ SameBut [.arg] s.resetBlock t ∧
    t.err = .none ∧ t.lost = false ∧ t.out = [] ∧ t.pend = none ∧ t.res0 = 0#32 ∧ t.res1 = 0#32 ∧
    (∀ c, t.freqAt c = 0#32) ∧ (portRead 2#4 t).2 = 0#32 ∧ (portRead 12#4 t).2 = 0#32

/-- R300: NOP completes in every state and writes nothing. -/
def Obligations.NopWritesNothing : Prop :=
  ∀ s : State, ∃ t, exec .nop s = .next t ∧ t.pend = none ∧ SameBut [.pend] s t

/-! ### Frequency table (41_frequency) -/

/-- R180: COUNT, its result, its OVERFLOW and its phase check. -/
def Obligations.CountAddsOneOccurrence : Prop :=
  ∀ (s : State) (c : Byte), Inv s → s.err = .none →
    (s.tv = true → FailsWith .sequence (.count c) s) ∧
    (s.tv = false → s.total.toNat ≠ 4294967295 → ∃ t, exec (.count c) s = .next t ∧ t.pend = none ∧
      (t.freqAt c).toNat = (s.freqAt c).toNat + 1 ∧ (∀ d, d ≠ c → t.freqAt d = s.freqAt d) ∧
      t.total.toNat = s.total.toNat + 1 ∧
      t.nsym.toNat = s.nsym.toNat + (if s.freqAt c = 0#32 then 1 else 0) ∧
      SameBut [.freq, .total, .nsym, .pend] s t) ∧
    (s.tv = false → s.total.toNat = 4294967295 → FailsWith .overflow (.count c) s)

/-- R181: LOADF, the count taken from the captured ARG, its OVERFLOW and its phase check. -/
def Obligations.LoadfReplacesOneEntry : Prop :=
  ∀ (s : State) (p : PendCmd) (c : Byte), Inv s → s.pend = some p → s.err = .none →
    (s.tv = true → FailsWith .sequence (.loadf c) s) ∧
    (s.tv = false → s.total.toNat - (s.freqAt c).toNat + p.arg.toNat ≤ 4294967295 →
      ∃ t, exec (.loadf c) s = .next t ∧ t.pend = none ∧ t.freqAt c = p.arg ∧
        (∀ d, d ≠ c → t.freqAt d = s.freqAt d) ∧
        t.total.toNat = s.total.toNat - (s.freqAt c).toNat + p.arg.toNat ∧
        t.nsym.toNat + (if s.freqAt c = 0#32 then 0 else 1) = s.nsym.toNat + (if p.arg = 0#32 then 0 else 1) ∧
        SameBut [.freq, .total, .nsym, .pend] s t) ∧
    (s.tv = false → 4294967295 < s.total.toNat - (s.freqAt c).toNat + p.arg.toNat →
      FailsWith .overflow (.loadf c) s)

/-- R182: RDFREQ, in every state, error state included. -/
def Obligations.RdfreqReadsTheEntry : Prop :=
  ∀ (s : State) (c : Byte), ∃ t, exec (.rdfreq c) s = .next t ∧ t.pend = none ∧ t.res0 = s.freqAt c ∧
    t.res1.toNat = s.nsym.toNat ∧ SameBut [.res0, .res1, .pend] s t

/-- R183: CLEAR, then COUNT of each byte of a buffer of at most `2^32 - 1` bytes, gives the histogram, the length and the
number of distinct bytes, with no error. -/
def Obligations.CountingABufferGivesItsHistogram : Prop :=
  ∀ (s : State) (buf : List Byte), s.pend = none → buf.length ≤ 4294967295 →
    ∃ t, runCommands (plain ([.clear] ++ buf.map .count)) s = some (t, []) ∧ t.err = .none ∧
      (∀ c, (t.freqAt c).toNat = buf.count c) ∧ t.total.toNat = buf.length ∧
      t.nsym.toNat = buf.dedup.length

/-- R184: CLEAR, then LOADF of the entries of a table in any order, reproduces the table. -/
def Obligations.LoadingATableInAnyOrderReproducesIt : Prop :=
  ∀ (s : State) (table : Byte → Word) (order : List Byte), s.pend = none →
    freqSum table ≤ 4294967295 → order.Nodup → (∀ c, c ∈ order ↔ table c ≠ 0#32) →
    ∃ t, runCommands (plain [.clear] ++ order.map (fun c => (.loadf c, table c))) s = some (t, []) ∧
      t.err = .none ∧ t.freqAt = table

/-! ### Tree (42_tree) -/

/-- R200, R201: keys are ordered totally, and ExtractMin takes the least key and keeps the rest. -/
def Obligations.ExtractMinTakesTheLeastKey : Prop :=
  (∀ a b : Key, a ≠ b → (a.less b = true ∧ b.less a = false) ∨ (a.less b = false ∧ b.less a = true)) ∧
  (∀ q : List Key, q ≠ [] → ∃ m r, extractMin q = some (m, r) ∧ q.Perm (m :: r) ∧ ∀ k ∈ r, k.less m = false)

/-- R204, R205, R206: BUILD completes on a table with an entry, sets TV, and sizes the tree; it raises EMPTY_INPUT on an
empty one, and SEQUENCE where there is a tree. -/
def Obligations.BuildSizesTheTree : Prop :=
  ∀ s : State, Inv s → s.err = .none →
    (s.tv = true → FailsWith .sequence .build s) ∧
    (s.tv = false → s.nsym ≠ 0#9 → ∃ t, exec .build s = .next t ∧ t.pend = none ∧ t.tv = true ∧
      t.ncount.toNat = (if s.nsym.toNat = 1 then 2 else 2 * s.nsym.toNat - 1) ∧
      t.root.toNat = t.ncount.toNat - 1 ∧ t.node.length = t.ncount.toNat ∧
      SameBut [.node, .ncount, .root, .tv, .pend] s t) ∧
    (s.tv = false → s.nsym = 0#9 → FailsWith .emptyInput .build s)

/-- R202: under a valid tree, nodes `0..NSYM-1` are the leaves of the symbols with an entry, in ascending symbol order,
each with its frequency as weight and no children. -/
def Obligations.LeavesStandInAscendingSymbolOrder : Prop :=
  ∀ s : State, Inv s → s.tv = true →
    s.node.take s.nsym.toNat =
      (allSyms.filter fun c => decide (s.freqAt c ≠ 0#32)).map fun c => ⟨.leaf, c, s.freqAt c, 0x1FF#9, 0x1FF#9⟩

/-- R205: with one symbol the tree is the leaf and its wrapper, and, with codes, the symbol's code is `[0]`. -/
def Obligations.SingleSymbolGetsAWrapper : Prop :=
  ∀ (s : State) (c : Byte), Inv s → s.tv = true → (∀ d, s.freqAt d ≠ 0#32 ↔ d = c) →
    s.node = [⟨.leaf, c, s.freqAt c, 0x1FF#9, 0x1FF#9⟩, ⟨.internal, 0#8, s.freqAt c, 0#9, 0x1FF#9⟩] ∧
      s.ncount = 2#10 ∧ s.root = 1#9 ∧ (s.cv = true → (s.codeAt c).bits = [false])

/-- R203, R204: with two or more symbols, nodes `NSYM..NCOUNT-1` are internal, with symbol 0 and two children of smaller
index, which are not NIL. -/
def Obligations.InternalNodesHaveTwoOlderChildren : Prop :=
  ∀ (s : State) (i : NodeIdx), Inv s → s.tv = true → 2 ≤ s.nsym.toNat → s.nsym.toNat ≤ i.toNat →
    i.toNat < s.ncount.toNat →
    (s.nodeAt i).kind = .internal ∧ (s.nodeAt i).sym = 0#8 ∧
    (s.nodeAt i).left ≠ 0x1FF#9 ∧ (s.nodeAt i).right ≠ 0x1FF#9 ∧
    (s.nodeAt i).left.toNat < i.toNat ∧ (s.nodeAt i).right.toNat < i.toNat

/-- R203: the trees are extracted in the order of their keys: of one pass the first extracted is the left child, and
every key of a pass is less than every key of the next. With R202, R204 and R210 this fixes the tree. -/
def Obligations.ChildrenAreExtractedInKeyOrder : Prop :=
  let key (s : State) (i : NodeIdx) : Key := ⟨(s.nodeAt i).weight, i.toNat⟩
  (∀ (s : State) (i : NodeIdx), Inv s → s.tv = true → 2 ≤ s.nsym.toNat → s.nsym.toNat ≤ i.toNat →
    i.toNat < s.ncount.toNat →
    (key s (s.nodeAt i).left).less (key s (s.nodeAt i).right) = true) ∧
  (∀ (s : State) (i j : NodeIdx), Inv s → s.tv = true → 2 ≤ s.nsym.toNat → s.nsym.toNat ≤ i.toNat →
    j.toNat = i.toNat + 1 → j.toNat < s.ncount.toNat →
    (key s (s.nodeAt i).right).less (key s (s.nodeAt j).left) = true)

/-- R207: every internal node's weight is the sum of its children's weights, NIL counting 0, and the root's weight is
TOTAL. -/
def Obligations.WeightsAreSumsAndRootIsTotal : Prop :=
  let weight (s : State) (i : NodeIdx) : Nat := if i = 0x1FF#9 then 0 else (s.nodeAt i).weight.toNat
  ∀ s : State, Inv s → s.tv = true →
    (∀ i : NodeIdx, i.toNat < s.ncount.toNat → (s.nodeAt i).kind = .internal →
      weight s i = weight s (s.nodeAt i).left + weight s (s.nodeAt i).right) ∧
    weight s s.root = s.total.toNat

/-- R210: every node in use is reached from ROOT by exactly one path; the root is no leaf; a leaf is at depth 1 to
`NSYM - 1`, or exactly 1 with one symbol. -/
def Obligations.TreeIsStrictAndDepthBounded : Prop :=
  ∀ s : State, Inv s → s.tv = true →
    (∀ i : NodeIdx, i.toNat < s.ncount.toNat → ∃! p, pathTo s.nodeAt s.root p i) ∧
    (s.nodeAt s.root).kind = .internal ∧
    (∀ (i : NodeIdx) (p : List Bool), i.toNat < s.ncount.toNat → (s.nodeAt i).kind = .leaf →
      pathTo s.nodeAt s.root p i →
      1 ≤ p.length ∧ p.length ≤ (if s.nsym.toNat = 1 then 1 else s.nsym.toNat - 1))

/-- R208: two BUILDs from equal FREQ contents give the same tree, whatever else the states hold. -/
def Obligations.TreeIsAFunctionOfTheTable : Prop :=
  ∀ s s' t t' : State, Inv s → Inv s' → s.err = .none → s'.err = .none → s.tv = false → s'.tv = false →
    s.nsym ≠ 0#9 → (∀ c, s.freqAt c = s'.freqAt c) → exec .build s = .next t → exec .build s' = .next t' →
    t.node = t'.node ∧ t.root = t'.root ∧ t.ncount = t'.ncount

/-- R209: RDNODE, in every state, error state included: the fields of a node in use, 0 otherwise; so, under the
invariants, 0 for `NIL` and for every index without a tree. The index is `ARG[8:0]` (R123). -/
def Obligations.RdnodeReadsTheNode : Prop :=
  ∀ (s : State) (p : PendCmd), s.pend = some p →
    ∃ t, exec .rdnode s = .next t ∧ t.pend = none ∧ SameBut [.res0, .res1, .pend] s t ∧
      (p.arg.toNat % 512 < s.ncount.toNat →
        ∀ nd, nd = s.nodeAt (BitVec.ofNat 9 p.arg.toNat) →
        t.res0 = nd.weight ∧ t.res1.getLsbD 31 = true ∧ t.res1.getLsbD 30 = decide (nd.kind = .internal) ∧
        t.res1.extractLsb' 26 4 = 0#4 ∧ t.res1.extractLsb' 18 8 = nd.sym ∧ t.res1.extractLsb' 9 9 = nd.right ∧
        t.res1.extractLsb' 0 9 = nd.left) ∧
      (s.ncount.toNat ≤ p.arg.toNat % 512 → t.res0 = 0#32 ∧ t.res1 = 0#32) ∧
      (Inv s → p.arg.toNat % 512 = 511 ∨ s.tv = false → t.res0 = 0#32 ∧ t.res1 = 0#32)

/-! ### Code table (43_codetable) -/

/-- R230, R232: GENCODE completes with CV set; each symbol with an entry then has as its code a path of at least one step
from ROOT to the leaf of that symbol, and every other symbol has none. Without a tree, or with codes, it raises
SEQUENCE. -/
def Obligations.GencodeGivesEverySymbolItsPath : Prop :=
  ∀ s : State, Inv s → s.err = .none →
    (s.tv = false ∨ s.cv = true → FailsWith .sequence .gencode s) ∧
    (s.tv = true → s.cv = false →
      ∃ t, exec .gencode s = .next t ∧ t.pend = none ∧ t.cv = true ∧ SameBut [.code, .cv, .pend] s t ∧
        ∀ c : Byte,
          (s.freqAt c ≠ 0#32 → 0 < (t.codeAt c).len ∧
            ∃ j, pathTo s.nodeAt s.root (t.codeAt c).bits j ∧ (s.nodeAt j).kind = .leaf ∧ (s.nodeAt j).sym = c) ∧
          (s.freqAt c = 0#32 → (t.codeAt c).len = 0))

/-- R233: no code is the beginning of another symbol's code. -/
def Obligations.CodesArePrefixFree : Prop :=
  ∀ (s : State) (c d : Byte), Inv s → s.cv = true → c ≠ d → 0 < (s.codeAt c).len → 0 < (s.codeAt d).len →
    ¬ (s.codeAt c).bits <+: (s.codeAt d).bits

/-- R234, first two points: the Kraft sum is exactly 1 with two or more symbols, and 1/2 with one (in units of
`2^-255`). -/
def Obligations.KraftSumOfTheCodes : Prop :=
  ∀ s : State, Inv s → s.cv = true →
    (allSyms.map fun c => if (s.codeAt c).len = 0 then 0 else 2 ^ (255 - (s.codeAt c).len)).sum =
      if s.nsym.toNat = 1 then 2 ^ 254 else 2 ^ 255

/-- R231: RDCODE, in every state, error state included: length and window of a code when CV = 1 and the symbol has one, 0
otherwise. The window is `ARG[2:0]` (R123). -/
def Obligations.RdcodeReadsAWindow : Prop :=
  ∀ (s : State) (p : PendCmd) (c : Byte), s.pend = some p →
    ∃ t, exec (.rdcode c) s = .next t ∧ t.pend = none ∧ SameBut [.res0, .res1, .pend] s t ∧
      (s.cv = true → 0 < (s.codeAt c).len →
        t.res0.getLsbD 31 = true ∧ t.res0.extractLsb' 8 23 = 0#23 ∧
        (t.res0.extractLsb' 0 8).toNat = (s.codeAt c).len % 256 ∧
        ∀ j, j < 32 →
          t.res1.getLsbD (31 - j) = ((s.codeAt c).bits[32 * (p.arg.toNat % 8) + j]?).getD false) ∧
      (s.cv = false ∨ (s.codeAt c).len = 0 → t.res0 = 0#32 ∧ t.res1 = 0#32)

/-! ### Encoder (44_encode) -/

/-- R250, R251, R252, R254: ENCB. The bits in the packer, the bytes appended first and then the partial byte, MSB first,
grow by exactly the code of the symbol; its errors in their order. -/
def Obligations.EncbAppendsTheCode : Prop :=
  ∀ (s : State) (c : Byte), Inv s → s.err = .none →
    (s.cv = false → FailsWith .sequence (.encb c) s) ∧
    (s.cv = true → 0 < (s.codeAt c).len → s.ebits.toNat + (s.codeAt c).len ≤ 4294967295 →
      s.out.length + (s.pfill.toNat + (s.codeAt c).len) / 8 ≤ s.config.outDepth →
      ∃ t outl, exec (.encb c) s = .next t ∧ t.pend = none ∧ t.out = s.out ++ outl ∧
        outl.length = (s.pfill.toNat + (s.codeAt c).len) / 8 ∧
        bytesBits outl ++ t.partialBits = s.partialBits ++ (s.codeAt c).bits ∧
        t.pfill.toNat = (s.pfill.toNat + (s.codeAt c).len) % 8 ∧
        t.ebits.toNat = s.ebits.toNat + (s.codeAt c).len ∧
        SameBut [.pacc, .pfill, .ebits, .out, .pend] s t) ∧
    (s.cv = true → (s.codeAt c).len = 0 → FailsWith .unknownSymbol (.encb c) s) ∧
    (s.cv = true → 0 < (s.codeAt c).len → 4294967295 < s.ebits.toNat + (s.codeAt c).len →
      FailsWith .overflow (.encb c) s)

/-- R255, R256: ENCEND emits the partial byte, its free bits 0, when there is one, reports the counts and restarts the
packer; CV stays. Without codes it raises SEQUENCE. -/
def Obligations.EncendClosesTheStream : Prop :=
  ∀ s : State, Inv s → s.err = .none →
    (s.cv = false → FailsWith .sequence .encend s) ∧
    (s.cv = true → s.out.length + (if s.pfill = 0#3 then 0 else 1) ≤ s.config.outDepth →
      ∃ t outl, exec .encend s = .next t ∧ t.pend = none ∧ t.out = s.out ++ outl ∧
        bytesBits outl = (if s.pfill = 0#3 then []
          else s.partialBits ++ List.replicate (8 - s.pfill.toNat) false) ∧
        t.bitcnt = s.ebits ∧ t.res0 = s.ebits ∧ t.res1.toNat = (s.ebits.toNat + 7) / 8 ∧ t.ebits = 0#32 ∧
        t.pacc = 0#8 ∧ t.pfill = 0#3 ∧
        SameBut [.bitcnt, .res0, .res1, .ebits, .pacc, .pfill, .out, .pend] s t)

/-- R257: with no stream open, ENCB of each symbol and ENCEND append exactly the packed bits of the codes, and BITCNT is
their number. -/
def Obligations.EncodingASequencePacksItsCodes : Prop :=
  ∀ (s : State) (syms : List Byte), Inv s → s.pend = none → s.out = [] → s.err = .none → s.cv = true →
    s.ebits = 0#32 → (∀ c ∈ syms, 0 < (s.codeAt c).len) → (s.codeBits syms).length ≤ 4294967295 →
    ∃ t, runCommands (plain (syms.map .encb ++ [.encend])) s = some (t, pack (s.codeBits syms)) ∧
      (pack (s.codeBits syms)).length = ((s.codeBits syms).length + 7) / 8 ∧
      t.bitcnt.toNat = (s.codeBits syms).length ∧ t.err = .none

/-! ### Decoder (45_decode) -/

/-- R272: DECSTART, the bit count taken from the captured ARG, and its phase check. -/
def Obligations.DecstartOpensADecode : Prop :=
  ∀ (s : State) (p : PendCmd), s.pend = some p → s.err = .none →
    (s.tv = false ∨ s.da = true → FailsWith .sequence .decstart s) ∧
    (s.tv = true → s.da = false →
      ∃ t, exec .decstart s = .next t ∧ t.pend = none ∧ t.drem = p.arg ∧ t.dpos = s.root ∧ t.dcount = 0#32 ∧
        t.da = true ∧ SameBut [.drem, .dpos, .dcount, .da, .pend] s t)

/-- R270, R271, R273, R275: DECB walks the tree over the first `min 8 DREM` bits of the byte, bit 7 first; it appends the
symbols the walk emits, or, where the walk meets a missing child, raises BAD_CODE and changes nothing else; without an
open decode it raises SEQUENCE. -/
def Obligations.DecbWalksTheDeclaredBits : Prop :=
  ∀ (s : State) (b : Byte), Inv s → s.err = .none →
    (s.da = false → FailsWith .sequence (.decb b) s) ∧
    (s.da = true → ∀ j syms, decodeBits s.nodeAt s.root s.dpos ((byteBits b).take s.drem.toNat) = some (j, syms) →
      s.out.length + syms.length ≤ s.config.outDepth →
      ∃ t, exec (.decb b) s = .next t ∧ t.pend = none ∧ t.out = s.out ++ syms ∧ t.dpos = j ∧
        t.drem.toNat = s.drem.toNat - 8 ∧ t.dcount.toNat = s.dcount.toNat + syms.length ∧
        SameBut [.drem, .dpos, .dcount, .out, .pend] s t) ∧
    (s.da = true → decodeBits s.nodeAt s.root s.dpos ((byteBits b).take s.drem.toNat) = none →
      FailsWith .badCode (.decb b) s)

/-- R275, R324: in an open decode DECB raises BAD_CODE exactly when there is one symbol and a valid bit of the byte
is 1. -/
def Obligations.BadCodeOnlyAtTheWrapper : Prop :=
  ∀ (s t : State) (b : Byte), Inv s → s.err = .none → s.da = true → exec (.decb b) s = .next t →
    (t.err = .badCode ↔ s.nsym = 1#9 ∧ true ∈ (byteBits b).take s.drem.toNat)

/-- R274: bits beyond the declared count have no effect: bytes that agree on the declared bits do the same, and with no
declared bit left a byte is consumed with no effect. -/
def Obligations.BitsBeyondTheCountAreDiscarded : Prop :=
  (∀ (s : State) (b b' : Byte), (byteBits b).take s.drem.toNat = (byteBits b').take s.drem.toNat →
    exec (.decb b) s = exec (.decb b') s) ∧
  (∀ (s : State) (b : Byte), s.err = .none → s.da = true → s.drem = 0#32 →
    ∃ t, exec (.decb b) s = .next t ∧ t.pend = none ∧ SameBut [.pend] s t)

/-- R276, R323: DECEND succeeds exactly at the root with no bit left, reporting DCOUNT; otherwise
TRUNCATED_STREAM; without an open decode SEQUENCE. -/
def Obligations.DecendChecksTheEnd : Prop :=
  ∀ s : State, s.err = .none →
    (s.da = false → FailsWith .sequence .decend s) ∧
    (s.da = true → s.drem = 0#32 → s.dpos = s.root → ∃ t, exec .decend s = .next t ∧ t.pend = none ∧ t.da = false ∧
      t.res0 = s.dcount ∧ t.res1 = 0#32 ∧ SameBut [.da, .res0, .res1, .pend] s t) ∧
    (s.da = true → s.drem ≠ 0#32 ∨ s.dpos ≠ s.root → FailsWith .truncatedStream .decend s)

/-- R277: decoding any packed bytes whose first bits are the codes of a symbol sequence, with that bit count declared,
gives the sequence back, whatever the padding bits and further bytes; DECEND succeeds and reports the number. -/
def Obligations.DecodingAStreamGivesItsSymbols : Prop :=
  ∀ (s : State) (syms packed : List Byte), Inv s → s.pend = none → s.out = [] → s.err = .none → s.cv = true →
    s.da = false → (∀ c ∈ syms, 0 < (s.codeAt c).len) → (s.codeBits syms).length ≤ 4294967295 →
    (bytesBits packed).take (s.codeBits syms).length = s.codeBits syms →
    ∃ t, runCommands ([(.decstart, BitVec.ofNat 32 (s.codeBits syms).length)] ++
        plain (packed.map .decb ++ [.decend])) s = some (t, syms) ∧
      t.err = .none ∧ t.da = false ∧ t.res0.toNat = syms.length

/-! ### Pipeline (46_pipeline) and the assembler (30_encoding) -/

/-- R303, R304, R307: the round trip. A non-empty buffer within the bounds, compressed from any idle state, and
decompressed from any idle state with the table that travelled, its entries loaded in any order, gives the buffer back;
both runs end with ERR = 0 and LOST = 0. -/
def Obligations.CompressThenDecompressGivesTheBuffer : Prop :=
  ∀ (s s' : State) (buf order : List Byte), s.pend = none → s'.pend = none → buf ≠ [] →
    buf.length ≤ 4294967295 → order.Nodup → (∀ c, c ∈ order ↔ c ∈ buf) →
    ∃ t0 b0, runCommands (plain ([.clear] ++ buf.map .count ++ [.build, .gencode])) s = some (t0, b0) ∧
      ((t0.codeBits buf).length ≤ 4294967295 →
        ∃ t u packed, runCommands (compressCommands buf) s = some (t, packed) ∧ t.err = .none ∧ t.lost = false ∧
          runCommands (decompressCommands packed t.bitcnt t.freqAt order) s' = some (u, buf) ∧ u.err = .none ∧
            u.lost = false)

/-- R129, R130, R131: the assembler. A program with every operand in its range is expanded statement by statement: the
ARG write where there is an ARG operand, the CMD write of the word, POLL. A program with an operand outside its range is
rejected. -/
def Obligations.AssemblerRejectsAndExpands : Prop :=
  let inRange (st : Stmt) : Prop := match st with
    | .wr reg imm => reg ≤ 15 ∧ imm ≤ 4294967295
    | .rd reg _ => reg ≤ 15
    | .cmdw imm => imm ≤ 4294967295
    | .count c | .encb c | .decb c | .rdfreq c => c ≤ 255
    | .loadf c k => c ≤ 255 ∧ k ≤ 4294967295
    | .decstart n => n ≤ 4294967295
    | .rdcode c wi => c ≤ 255 ∧ wi ≤ 7
    | .rdnode i => i ≤ 510
    | .poll | .drain | .nop | .clear | .build | .gencode | .encend | .decend => True
  let arg (a : Nat) : HostOp := .wr 4#4 (BitVec.ofNat 32 a)
  let cmd (w : Nat) : HostOp := .wr 3#4 (BitVec.ofNat 32 w)
  let expansion (st : Stmt) : List HostOp := match st with
    | .wr reg imm => [.wr (BitVec.ofNat 4 reg) (BitVec.ofNat 32 imm)]
    | .rd reg v => [.rd (BitVec.ofNat 4 reg) v]
    | .poll => [.poll]
    | .drain => [.drain]
    | .cmdw imm => [cmd imm, .poll]
    | .nop => [cmd 0x00, .poll]
    | .clear => [cmd 0x01, .poll]
    | .count c => [cmd (256 * c + 0x02), .poll]
    | .loadf c k => [arg k, cmd (256 * c + 0x03), .poll]
    | .build => [cmd 0x04, .poll]
    | .gencode => [cmd 0x05, .poll]
    | .encb c => [cmd (256 * c + 0x06), .poll]
    | .encend => [cmd 0x07, .poll]
    | .decstart n => [arg n, cmd 0x08, .poll]
    | .decb b => [cmd (256 * b + 0x09), .poll]
    | .decend => [cmd 0x0A, .poll]
    | .rdfreq c => [cmd (256 * c + 0x0B), .poll]
    | .rdcode c wi => [arg wi, cmd (256 * c + 0x0C), .poll]
    | .rdnode i => [arg i, cmd 0x0D, .poll]
  ∀ p : List Stmt,
    ((∀ st ∈ p, inRange st) → assemble p = some (p.flatMap expansion)) ∧
    ((∃ st ∈ p, ¬ inRange st) → assemble p = none)

/-- R132: POLL reads STATUS, pops OUT while OUTNE = 1, goes on while BUSY = 1, and on exit BUSY = 0 and OUT is empty. -/
def Obligations.PollDrainsAndWaits : Prop :=
  (∀ (s : State) (b : Byte) (out : List Byte) (rest : List HostOp), s.host.prog = .poll :: rest → s.out = b :: out →
    SameBut [.host] s (hostTurn s) ∧ (hostTurn s).host.prog = .pollOut :: rest ∧
      SameBut [.host, .out] s (hostTurn (hostTurn s)) ∧
      (hostTurn (hostTurn s)).host = ⟨.poll :: rest, s.host.hout ++ [b], s.host.vars⟩ ∧
      (hostTurn (hostTurn s)).out = out) ∧
  (∀ (s : State) (rest : List HostOp), s.host.prog = .poll :: rest → s.out = [] → s.pend ≠ none →
    hostTurn s = s) ∧
  (∀ (s : State) (rest : List HostOp), s.host.prog = .poll :: rest → s.out = [] → s.pend = none →
    (hostTurn s).host.prog = rest ∧ SameBut [.host] s (hostTurn s))

/-! ### Invariants (10_state R61) -/

/-- R61: the invariants hold at reset. -/
def Obligations.InvariantsHoldAtReset : Prop := Inv State.reset

/-- R61: every step of every agent, in any interleaving, keeps the invariants. -/
def Obligations.EveryStepKeepsTheInvariants : Prop :=
  ∀ s t : State, Inv s → step s = .next t → Inv t
end

