-- ==== Sys2Proof/Laws/State.lean ====
section
/-! SUPPORT. One lemma per field for each named update of State, true by `rfl`. -/

namespace Sys2Proof.Machine

variable (s : State)

/-! ### `State.done` -/

@[simp] theorem State.done_pend : (s.done).pend = none := rfl
@[simp] theorem State.done_arg : (s.done).arg = s.arg := rfl
@[simp] theorem State.done_res0 : (s.done).res0 = s.res0 := rfl
@[simp] theorem State.done_res1 : (s.done).res1 = s.res1 := rfl
@[simp] theorem State.done_tv : (s.done).tv = s.tv := rfl
@[simp] theorem State.done_cv : (s.done).cv = s.cv := rfl
@[simp] theorem State.done_da : (s.done).da = s.da := rfl
@[simp] theorem State.done_err : (s.done).err = s.err := rfl
@[simp] theorem State.done_lost : (s.done).lost = s.lost := rfl
@[simp] theorem State.done_freq : (s.done).freq = s.freq := rfl
@[simp] theorem State.done_total : (s.done).total = s.total := rfl
@[simp] theorem State.done_nsym : (s.done).nsym = s.nsym := rfl
@[simp] theorem State.done_node : (s.done).node = s.node := rfl
@[simp] theorem State.done_root : (s.done).root = s.root := rfl
@[simp] theorem State.done_ncount : (s.done).ncount = s.ncount := rfl
@[simp] theorem State.done_code : (s.done).code = s.code := rfl
@[simp] theorem State.done_out : (s.done).out = s.out := rfl
@[simp] theorem State.done_pacc : (s.done).pacc = s.pacc := rfl
@[simp] theorem State.done_pfill : (s.done).pfill = s.pfill := rfl
@[simp] theorem State.done_ebits : (s.done).ebits = s.ebits := rfl
@[simp] theorem State.done_bitcnt : (s.done).bitcnt = s.bitcnt := rfl
@[simp] theorem State.done_drem : (s.done).drem = s.drem := rfl
@[simp] theorem State.done_dcount : (s.done).dcount = s.dcount := rfl
@[simp] theorem State.done_dpos : (s.done).dpos = s.dpos := rfl
@[simp] theorem State.done_host : (s.done).host = s.host := rfl
@[simp] theorem State.done_sched : (s.done).sched = s.sched := rfl
@[simp] theorem State.done_draws : (s.done).draws = s.draws := rfl
@[simp] theorem State.done_config : (s.done).config = s.config := rfl

/-! ### `State.fail` -/

@[simp] theorem State.fail_pend (e : ErrCode) : (s.fail e).pend = none := rfl
@[simp] theorem State.fail_arg (e : ErrCode) : (s.fail e).arg = s.arg := rfl
@[simp] theorem State.fail_res0 (e : ErrCode) : (s.fail e).res0 = s.res0 := rfl
@[simp] theorem State.fail_res1 (e : ErrCode) : (s.fail e).res1 = s.res1 := rfl
@[simp] theorem State.fail_tv (e : ErrCode) : (s.fail e).tv = s.tv := rfl
@[simp] theorem State.fail_cv (e : ErrCode) : (s.fail e).cv = s.cv := rfl
@[simp] theorem State.fail_da (e : ErrCode) : (s.fail e).da = s.da := rfl
@[simp] theorem State.fail_err (e : ErrCode) : (s.fail e).err = e := rfl
@[simp] theorem State.fail_lost (e : ErrCode) : (s.fail e).lost = s.lost := rfl
@[simp] theorem State.fail_freq (e : ErrCode) : (s.fail e).freq = s.freq := rfl
@[simp] theorem State.fail_total (e : ErrCode) : (s.fail e).total = s.total := rfl
@[simp] theorem State.fail_nsym (e : ErrCode) : (s.fail e).nsym = s.nsym := rfl
@[simp] theorem State.fail_node (e : ErrCode) : (s.fail e).node = s.node := rfl
@[simp] theorem State.fail_root (e : ErrCode) : (s.fail e).root = s.root := rfl
@[simp] theorem State.fail_ncount (e : ErrCode) : (s.fail e).ncount = s.ncount := rfl
@[simp] theorem State.fail_code (e : ErrCode) : (s.fail e).code = s.code := rfl
@[simp] theorem State.fail_out (e : ErrCode) : (s.fail e).out = [] := rfl
@[simp] theorem State.fail_pacc (e : ErrCode) : (s.fail e).pacc = s.pacc := rfl
@[simp] theorem State.fail_pfill (e : ErrCode) : (s.fail e).pfill = s.pfill := rfl
@[simp] theorem State.fail_ebits (e : ErrCode) : (s.fail e).ebits = s.ebits := rfl
@[simp] theorem State.fail_bitcnt (e : ErrCode) : (s.fail e).bitcnt = s.bitcnt := rfl
@[simp] theorem State.fail_drem (e : ErrCode) : (s.fail e).drem = s.drem := rfl
@[simp] theorem State.fail_dcount (e : ErrCode) : (s.fail e).dcount = s.dcount := rfl
@[simp] theorem State.fail_dpos (e : ErrCode) : (s.fail e).dpos = s.dpos := rfl
@[simp] theorem State.fail_host (e : ErrCode) : (s.fail e).host = s.host := rfl
@[simp] theorem State.fail_sched (e : ErrCode) : (s.fail e).sched = s.sched := rfl
@[simp] theorem State.fail_draws (e : ErrCode) : (s.fail e).draws = s.draws := rfl
@[simp] theorem State.fail_config (e : ErrCode) : (s.fail e).config = s.config := rfl

/-! ### `State.setRes` -/

@[simp] theorem State.setRes_pend (x y : Word) : (s.setRes x y).pend = s.pend := rfl
@[simp] theorem State.setRes_arg (x y : Word) : (s.setRes x y).arg = s.arg := rfl
@[simp] theorem State.setRes_res0 (x y : Word) : (s.setRes x y).res0 = x := rfl
@[simp] theorem State.setRes_res1 (x y : Word) : (s.setRes x y).res1 = y := rfl
@[simp] theorem State.setRes_tv (x y : Word) : (s.setRes x y).tv = s.tv := rfl
@[simp] theorem State.setRes_cv (x y : Word) : (s.setRes x y).cv = s.cv := rfl
@[simp] theorem State.setRes_da (x y : Word) : (s.setRes x y).da = s.da := rfl
@[simp] theorem State.setRes_err (x y : Word) : (s.setRes x y).err = s.err := rfl
@[simp] theorem State.setRes_lost (x y : Word) : (s.setRes x y).lost = s.lost := rfl
@[simp] theorem State.setRes_freq (x y : Word) : (s.setRes x y).freq = s.freq := rfl
@[simp] theorem State.setRes_total (x y : Word) : (s.setRes x y).total = s.total := rfl
@[simp] theorem State.setRes_nsym (x y : Word) : (s.setRes x y).nsym = s.nsym := rfl
@[simp] theorem State.setRes_node (x y : Word) : (s.setRes x y).node = s.node := rfl
@[simp] theorem State.setRes_root (x y : Word) : (s.setRes x y).root = s.root := rfl
@[simp] theorem State.setRes_ncount (x y : Word) : (s.setRes x y).ncount = s.ncount := rfl
@[simp] theorem State.setRes_code (x y : Word) : (s.setRes x y).code = s.code := rfl
@[simp] theorem State.setRes_out (x y : Word) : (s.setRes x y).out = s.out := rfl
@[simp] theorem State.setRes_pacc (x y : Word) : (s.setRes x y).pacc = s.pacc := rfl
@[simp] theorem State.setRes_pfill (x y : Word) : (s.setRes x y).pfill = s.pfill := rfl
@[simp] theorem State.setRes_ebits (x y : Word) : (s.setRes x y).ebits = s.ebits := rfl
@[simp] theorem State.setRes_bitcnt (x y : Word) : (s.setRes x y).bitcnt = s.bitcnt := rfl
@[simp] theorem State.setRes_drem (x y : Word) : (s.setRes x y).drem = s.drem := rfl
@[simp] theorem State.setRes_dcount (x y : Word) : (s.setRes x y).dcount = s.dcount := rfl
@[simp] theorem State.setRes_dpos (x y : Word) : (s.setRes x y).dpos = s.dpos := rfl
@[simp] theorem State.setRes_host (x y : Word) : (s.setRes x y).host = s.host := rfl
@[simp] theorem State.setRes_sched (x y : Word) : (s.setRes x y).sched = s.sched := rfl
@[simp] theorem State.setRes_draws (x y : Word) : (s.setRes x y).draws = s.draws := rfl
@[simp] theorem State.setRes_config (x y : Word) : (s.setRes x y).config = s.config := rfl

/-! ### `State.setFreq` -/

@[simp] theorem State.setFreq_pend (c : Byte) (k : Word) : (s.setFreq c k).pend = s.pend := rfl
@[simp] theorem State.setFreq_arg (c : Byte) (k : Word) : (s.setFreq c k).arg = s.arg := rfl
@[simp] theorem State.setFreq_res0 (c : Byte) (k : Word) : (s.setFreq c k).res0 = s.res0 := rfl
@[simp] theorem State.setFreq_res1 (c : Byte) (k : Word) : (s.setFreq c k).res1 = s.res1 := rfl
@[simp] theorem State.setFreq_tv (c : Byte) (k : Word) : (s.setFreq c k).tv = s.tv := rfl
@[simp] theorem State.setFreq_cv (c : Byte) (k : Word) : (s.setFreq c k).cv = s.cv := rfl
@[simp] theorem State.setFreq_da (c : Byte) (k : Word) : (s.setFreq c k).da = s.da := rfl
@[simp] theorem State.setFreq_err (c : Byte) (k : Word) : (s.setFreq c k).err = s.err := rfl
@[simp] theorem State.setFreq_lost (c : Byte) (k : Word) : (s.setFreq c k).lost = s.lost := rfl
@[simp] theorem State.setFreq_freq (c : Byte) (k : Word) : (s.setFreq c k).freq = s.freq.set c.toNat k c.isLt := rfl
@[simp] theorem State.setFreq_total (c : Byte) (k : Word) : (s.setFreq c k).total = s.total := rfl
@[simp] theorem State.setFreq_nsym (c : Byte) (k : Word) : (s.setFreq c k).nsym = s.nsym := rfl
@[simp] theorem State.setFreq_node (c : Byte) (k : Word) : (s.setFreq c k).node = s.node := rfl
@[simp] theorem State.setFreq_root (c : Byte) (k : Word) : (s.setFreq c k).root = s.root := rfl
@[simp] theorem State.setFreq_ncount (c : Byte) (k : Word) : (s.setFreq c k).ncount = s.ncount := rfl
@[simp] theorem State.setFreq_code (c : Byte) (k : Word) : (s.setFreq c k).code = s.code := rfl
@[simp] theorem State.setFreq_out (c : Byte) (k : Word) : (s.setFreq c k).out = s.out := rfl
@[simp] theorem State.setFreq_pacc (c : Byte) (k : Word) : (s.setFreq c k).pacc = s.pacc := rfl
@[simp] theorem State.setFreq_pfill (c : Byte) (k : Word) : (s.setFreq c k).pfill = s.pfill := rfl
@[simp] theorem State.setFreq_ebits (c : Byte) (k : Word) : (s.setFreq c k).ebits = s.ebits := rfl
@[simp] theorem State.setFreq_bitcnt (c : Byte) (k : Word) : (s.setFreq c k).bitcnt = s.bitcnt := rfl
@[simp] theorem State.setFreq_drem (c : Byte) (k : Word) : (s.setFreq c k).drem = s.drem := rfl
@[simp] theorem State.setFreq_dcount (c : Byte) (k : Word) : (s.setFreq c k).dcount = s.dcount := rfl
@[simp] theorem State.setFreq_dpos (c : Byte) (k : Word) : (s.setFreq c k).dpos = s.dpos := rfl
@[simp] theorem State.setFreq_host (c : Byte) (k : Word) : (s.setFreq c k).host = s.host := rfl
@[simp] theorem State.setFreq_sched (c : Byte) (k : Word) : (s.setFreq c k).sched = s.sched := rfl
@[simp] theorem State.setFreq_draws (c : Byte) (k : Word) : (s.setFreq c k).draws = s.draws := rfl
@[simp] theorem State.setFreq_config (c : Byte) (k : Word) : (s.setFreq c k).config = s.config := rfl

/-! ### `State.resetBlock` -/

@[simp] theorem State.resetBlock_pend : (s.resetBlock).pend = none := rfl
@[simp] theorem State.resetBlock_arg : (s.resetBlock).arg = 0#32 := rfl
@[simp] theorem State.resetBlock_res0 : (s.resetBlock).res0 = 0#32 := rfl
@[simp] theorem State.resetBlock_res1 : (s.resetBlock).res1 = 0#32 := rfl
@[simp] theorem State.resetBlock_tv : (s.resetBlock).tv = false := rfl
@[simp] theorem State.resetBlock_cv : (s.resetBlock).cv = false := rfl
@[simp] theorem State.resetBlock_da : (s.resetBlock).da = false := rfl
@[simp] theorem State.resetBlock_err : (s.resetBlock).err = .none := rfl
@[simp] theorem State.resetBlock_lost : (s.resetBlock).lost = false := rfl
@[simp] theorem State.resetBlock_freq : (s.resetBlock).freq = Vector.replicate 256 0#32 := rfl
@[simp] theorem State.resetBlock_total : (s.resetBlock).total = 0#32 := rfl
@[simp] theorem State.resetBlock_nsym : (s.resetBlock).nsym = 0#9 := rfl
@[simp] theorem State.resetBlock_node : (s.resetBlock).node = [] := rfl
@[simp] theorem State.resetBlock_root : (s.resetBlock).root = 0#9 := rfl
@[simp] theorem State.resetBlock_ncount : (s.resetBlock).ncount = 0#10 := rfl
@[simp] theorem State.resetBlock_code : (s.resetBlock).code = Vector.replicate 256 none := rfl
@[simp] theorem State.resetBlock_out : (s.resetBlock).out = [] := rfl
@[simp] theorem State.resetBlock_pacc : (s.resetBlock).pacc = 0#8 := rfl
@[simp] theorem State.resetBlock_pfill : (s.resetBlock).pfill = 0#3 := rfl
@[simp] theorem State.resetBlock_ebits : (s.resetBlock).ebits = 0#32 := rfl
@[simp] theorem State.resetBlock_bitcnt : (s.resetBlock).bitcnt = 0#32 := rfl
@[simp] theorem State.resetBlock_drem : (s.resetBlock).drem = 0#32 := rfl
@[simp] theorem State.resetBlock_dcount : (s.resetBlock).dcount = 0#32 := rfl
@[simp] theorem State.resetBlock_dpos : (s.resetBlock).dpos = 0#9 := rfl
@[simp] theorem State.resetBlock_host : (s.resetBlock).host = s.host := rfl
@[simp] theorem State.resetBlock_sched : (s.resetBlock).sched = s.sched := rfl
@[simp] theorem State.resetBlock_draws : (s.resetBlock).draws = s.draws := rfl
@[simp] theorem State.resetBlock_config : (s.resetBlock).config = s.config := rfl

/-! ### `State.clearBlock` -/

@[simp] theorem State.clearBlock_pend : (s.clearBlock).pend = none := rfl
@[simp] theorem State.clearBlock_arg : (s.clearBlock).arg = s.arg := rfl
@[simp] theorem State.clearBlock_res0 : (s.clearBlock).res0 = 0#32 := rfl
@[simp] theorem State.clearBlock_res1 : (s.clearBlock).res1 = 0#32 := rfl
@[simp] theorem State.clearBlock_tv : (s.clearBlock).tv = false := rfl
@[simp] theorem State.clearBlock_cv : (s.clearBlock).cv = false := rfl
@[simp] theorem State.clearBlock_da : (s.clearBlock).da = false := rfl
@[simp] theorem State.clearBlock_err : (s.clearBlock).err = .none := rfl
@[simp] theorem State.clearBlock_lost : (s.clearBlock).lost = false := rfl
@[simp] theorem State.clearBlock_freq : (s.clearBlock).freq = Vector.replicate 256 0#32 := rfl
@[simp] theorem State.clearBlock_total : (s.clearBlock).total = 0#32 := rfl
@[simp] theorem State.clearBlock_nsym : (s.clearBlock).nsym = 0#9 := rfl
@[simp] theorem State.clearBlock_node : (s.clearBlock).node = [] := rfl
@[simp] theorem State.clearBlock_root : (s.clearBlock).root = 0#9 := rfl
@[simp] theorem State.clearBlock_ncount : (s.clearBlock).ncount = 0#10 := rfl
@[simp] theorem State.clearBlock_code : (s.clearBlock).code = Vector.replicate 256 none := rfl
@[simp] theorem State.clearBlock_out : (s.clearBlock).out = [] := rfl
@[simp] theorem State.clearBlock_pacc : (s.clearBlock).pacc = 0#8 := rfl
@[simp] theorem State.clearBlock_pfill : (s.clearBlock).pfill = 0#3 := rfl
@[simp] theorem State.clearBlock_ebits : (s.clearBlock).ebits = 0#32 := rfl
@[simp] theorem State.clearBlock_bitcnt : (s.clearBlock).bitcnt = 0#32 := rfl
@[simp] theorem State.clearBlock_drem : (s.clearBlock).drem = 0#32 := rfl
@[simp] theorem State.clearBlock_dcount : (s.clearBlock).dcount = 0#32 := rfl
@[simp] theorem State.clearBlock_dpos : (s.clearBlock).dpos = 0#9 := rfl
@[simp] theorem State.clearBlock_host : (s.clearBlock).host = s.host := rfl
@[simp] theorem State.clearBlock_sched : (s.clearBlock).sched = s.sched := rfl
@[simp] theorem State.clearBlock_draws : (s.clearBlock).draws = s.draws := rfl
@[simp] theorem State.clearBlock_config : (s.clearBlock).config = s.config := rfl

/-! ### `State.withProg` -/

@[simp] theorem State.withProg_pend (p : List HostOp) : (s.withProg p).pend = s.pend := rfl
@[simp] theorem State.withProg_arg (p : List HostOp) : (s.withProg p).arg = s.arg := rfl
@[simp] theorem State.withProg_res0 (p : List HostOp) : (s.withProg p).res0 = s.res0 := rfl
@[simp] theorem State.withProg_res1 (p : List HostOp) : (s.withProg p).res1 = s.res1 := rfl
@[simp] theorem State.withProg_tv (p : List HostOp) : (s.withProg p).tv = s.tv := rfl
@[simp] theorem State.withProg_cv (p : List HostOp) : (s.withProg p).cv = s.cv := rfl
@[simp] theorem State.withProg_da (p : List HostOp) : (s.withProg p).da = s.da := rfl
@[simp] theorem State.withProg_err (p : List HostOp) : (s.withProg p).err = s.err := rfl
@[simp] theorem State.withProg_lost (p : List HostOp) : (s.withProg p).lost = s.lost := rfl
@[simp] theorem State.withProg_freq (p : List HostOp) : (s.withProg p).freq = s.freq := rfl
@[simp] theorem State.withProg_total (p : List HostOp) : (s.withProg p).total = s.total := rfl
@[simp] theorem State.withProg_nsym (p : List HostOp) : (s.withProg p).nsym = s.nsym := rfl
@[simp] theorem State.withProg_node (p : List HostOp) : (s.withProg p).node = s.node := rfl
@[simp] theorem State.withProg_root (p : List HostOp) : (s.withProg p).root = s.root := rfl
@[simp] theorem State.withProg_ncount (p : List HostOp) : (s.withProg p).ncount = s.ncount := rfl
@[simp] theorem State.withProg_code (p : List HostOp) : (s.withProg p).code = s.code := rfl
@[simp] theorem State.withProg_out (p : List HostOp) : (s.withProg p).out = s.out := rfl
@[simp] theorem State.withProg_pacc (p : List HostOp) : (s.withProg p).pacc = s.pacc := rfl
@[simp] theorem State.withProg_pfill (p : List HostOp) : (s.withProg p).pfill = s.pfill := rfl
@[simp] theorem State.withProg_ebits (p : List HostOp) : (s.withProg p).ebits = s.ebits := rfl
@[simp] theorem State.withProg_bitcnt (p : List HostOp) : (s.withProg p).bitcnt = s.bitcnt := rfl
@[simp] theorem State.withProg_drem (p : List HostOp) : (s.withProg p).drem = s.drem := rfl
@[simp] theorem State.withProg_dcount (p : List HostOp) : (s.withProg p).dcount = s.dcount := rfl
@[simp] theorem State.withProg_dpos (p : List HostOp) : (s.withProg p).dpos = s.dpos := rfl
@[simp] theorem State.withProg_host (p : List HostOp) : (s.withProg p).host = { s.host with prog := p } := rfl
@[simp] theorem State.withProg_sched (p : List HostOp) : (s.withProg p).sched = s.sched := rfl
@[simp] theorem State.withProg_draws (p : List HostOp) : (s.withProg p).draws = s.draws := rfl
@[simp] theorem State.withProg_config (p : List HostOp) : (s.withProg p).config = s.config := rfl

/-! ### `State.pushHout` -/

@[simp] theorem State.pushHout_pend (b : Byte) : (s.pushHout b).pend = s.pend := rfl
@[simp] theorem State.pushHout_arg (b : Byte) : (s.pushHout b).arg = s.arg := rfl
@[simp] theorem State.pushHout_res0 (b : Byte) : (s.pushHout b).res0 = s.res0 := rfl
@[simp] theorem State.pushHout_res1 (b : Byte) : (s.pushHout b).res1 = s.res1 := rfl
@[simp] theorem State.pushHout_tv (b : Byte) : (s.pushHout b).tv = s.tv := rfl
@[simp] theorem State.pushHout_cv (b : Byte) : (s.pushHout b).cv = s.cv := rfl
@[simp] theorem State.pushHout_da (b : Byte) : (s.pushHout b).da = s.da := rfl
@[simp] theorem State.pushHout_err (b : Byte) : (s.pushHout b).err = s.err := rfl
@[simp] theorem State.pushHout_lost (b : Byte) : (s.pushHout b).lost = s.lost := rfl
@[simp] theorem State.pushHout_freq (b : Byte) : (s.pushHout b).freq = s.freq := rfl
@[simp] theorem State.pushHout_total (b : Byte) : (s.pushHout b).total = s.total := rfl
@[simp] theorem State.pushHout_nsym (b : Byte) : (s.pushHout b).nsym = s.nsym := rfl
@[simp] theorem State.pushHout_node (b : Byte) : (s.pushHout b).node = s.node := rfl
@[simp] theorem State.pushHout_root (b : Byte) : (s.pushHout b).root = s.root := rfl
@[simp] theorem State.pushHout_ncount (b : Byte) : (s.pushHout b).ncount = s.ncount := rfl
@[simp] theorem State.pushHout_code (b : Byte) : (s.pushHout b).code = s.code := rfl
@[simp] theorem State.pushHout_out (b : Byte) : (s.pushHout b).out = s.out := rfl
@[simp] theorem State.pushHout_pacc (b : Byte) : (s.pushHout b).pacc = s.pacc := rfl
@[simp] theorem State.pushHout_pfill (b : Byte) : (s.pushHout b).pfill = s.pfill := rfl
@[simp] theorem State.pushHout_ebits (b : Byte) : (s.pushHout b).ebits = s.ebits := rfl
@[simp] theorem State.pushHout_bitcnt (b : Byte) : (s.pushHout b).bitcnt = s.bitcnt := rfl
@[simp] theorem State.pushHout_drem (b : Byte) : (s.pushHout b).drem = s.drem := rfl
@[simp] theorem State.pushHout_dcount (b : Byte) : (s.pushHout b).dcount = s.dcount := rfl
@[simp] theorem State.pushHout_dpos (b : Byte) : (s.pushHout b).dpos = s.dpos := rfl
@[simp] theorem State.pushHout_host (b : Byte) : (s.pushHout b).host = { s.host with hout := s.host.hout ++ [b] } := rfl
@[simp] theorem State.pushHout_sched (b : Byte) : (s.pushHout b).sched = s.sched := rfl
@[simp] theorem State.pushHout_draws (b : Byte) : (s.pushHout b).draws = s.draws := rfl
@[simp] theorem State.pushHout_config (b : Byte) : (s.pushHout b).config = s.config := rfl

/-! ### `State.bindHostVar` -/

@[simp] theorem State.bindHostVar_pend (v : Nat) (x : Word) : (s.bindHostVar v x).pend = s.pend := rfl
@[simp] theorem State.bindHostVar_arg (v : Nat) (x : Word) : (s.bindHostVar v x).arg = s.arg := rfl
@[simp] theorem State.bindHostVar_res0 (v : Nat) (x : Word) : (s.bindHostVar v x).res0 = s.res0 := rfl
@[simp] theorem State.bindHostVar_res1 (v : Nat) (x : Word) : (s.bindHostVar v x).res1 = s.res1 := rfl
@[simp] theorem State.bindHostVar_tv (v : Nat) (x : Word) : (s.bindHostVar v x).tv = s.tv := rfl
@[simp] theorem State.bindHostVar_cv (v : Nat) (x : Word) : (s.bindHostVar v x).cv = s.cv := rfl
@[simp] theorem State.bindHostVar_da (v : Nat) (x : Word) : (s.bindHostVar v x).da = s.da := rfl
@[simp] theorem State.bindHostVar_err (v : Nat) (x : Word) : (s.bindHostVar v x).err = s.err := rfl
@[simp] theorem State.bindHostVar_lost (v : Nat) (x : Word) : (s.bindHostVar v x).lost = s.lost := rfl
@[simp] theorem State.bindHostVar_freq (v : Nat) (x : Word) : (s.bindHostVar v x).freq = s.freq := rfl
@[simp] theorem State.bindHostVar_total (v : Nat) (x : Word) : (s.bindHostVar v x).total = s.total := rfl
@[simp] theorem State.bindHostVar_nsym (v : Nat) (x : Word) : (s.bindHostVar v x).nsym = s.nsym := rfl
@[simp] theorem State.bindHostVar_node (v : Nat) (x : Word) : (s.bindHostVar v x).node = s.node := rfl
@[simp] theorem State.bindHostVar_root (v : Nat) (x : Word) : (s.bindHostVar v x).root = s.root := rfl
@[simp] theorem State.bindHostVar_ncount (v : Nat) (x : Word) : (s.bindHostVar v x).ncount = s.ncount := rfl
@[simp] theorem State.bindHostVar_code (v : Nat) (x : Word) : (s.bindHostVar v x).code = s.code := rfl
@[simp] theorem State.bindHostVar_out (v : Nat) (x : Word) : (s.bindHostVar v x).out = s.out := rfl
@[simp] theorem State.bindHostVar_pacc (v : Nat) (x : Word) : (s.bindHostVar v x).pacc = s.pacc := rfl
@[simp] theorem State.bindHostVar_pfill (v : Nat) (x : Word) : (s.bindHostVar v x).pfill = s.pfill := rfl
@[simp] theorem State.bindHostVar_ebits (v : Nat) (x : Word) : (s.bindHostVar v x).ebits = s.ebits := rfl
@[simp] theorem State.bindHostVar_bitcnt (v : Nat) (x : Word) : (s.bindHostVar v x).bitcnt = s.bitcnt := rfl
@[simp] theorem State.bindHostVar_drem (v : Nat) (x : Word) : (s.bindHostVar v x).drem = s.drem := rfl
@[simp] theorem State.bindHostVar_dcount (v : Nat) (x : Word) : (s.bindHostVar v x).dcount = s.dcount := rfl
@[simp] theorem State.bindHostVar_dpos (v : Nat) (x : Word) : (s.bindHostVar v x).dpos = s.dpos := rfl
@[simp] theorem State.bindHostVar_host (v : Nat) (x : Word) : (s.bindHostVar v x).host = { s.host with vars := bindVar s.host.vars v x } := rfl
@[simp] theorem State.bindHostVar_sched (v : Nat) (x : Word) : (s.bindHostVar v x).sched = s.sched := rfl
@[simp] theorem State.bindHostVar_draws (v : Nat) (x : Word) : (s.bindHostVar v x).draws = s.draws := rfl
@[simp] theorem State.bindHostVar_config (v : Nat) (x : Word) : (s.bindHostVar v x).config = s.config := rfl

end Sys2Proof.Machine
end

