-- ==== Sys2Proof/Laws/Ops.lean ====
section
/-! SUPPORT. What each shared operation can do, said once: table and arena accesses, commit, the two shapes of a
perform, and `exec` of each command written over them. -/

namespace Sys2Proof.Machine

/-! ### Table accesses -/

theorem freqAt_setFreq (s : State) (c d : Byte) (k : Word) :
    (s.setFreq c k).freqAt d = if d = c then k else s.freqAt d := by
  simp only [State.freqAt, State.setFreq, Vector.getElem_set, BitVec.toNat_inj]
  by_cases h : c = d
  · simp [h]
  · simp [h, Ne.symm h]

theorem freqAt_congr {s t : State} (h : t.freq = s.freq) : t.freqAt = s.freqAt := by
  funext c
  simp [State.freqAt, h]

theorem nodeAt_congr {s t : State} (h : t.node = s.node) : t.nodeAt = s.nodeAt := by
  funext i
  simp [State.nodeAt, h]

theorem codeAt_congr {s t : State} (h : t.code = s.code) : t.codeAt = s.codeAt := by
  funext c
  simp [State.codeAt, h]

theorem freqAt_resetBlock (s : State) (c : Byte) : s.resetBlock.freqAt c = 0#32 := by
  simp [State.freqAt]

/-! ### Commit and perform -/

/-- A command that appends nothing always fits (R157). -/
@[simp] theorem fits_nil (s : State) : s.fits [] = true := rfl

theorem fits_iff (s : State) (outl : List Byte) :
    s.fits outl = true ↔ outl = [] ∨ s.out.length + outl.length ≤ s.config.outDepth := by
  simp [State.fits]

theorem commit_nil (s t : State) : s.commit t [] = t.done := by
  simp [State.commit, State.done]

/-- All that a commit can do (R156, R157). -/
theorem commit_cases (s t : State) (outl : List Byte) :
    (s.fits outl = true ∧ s.commit t outl = { t with out := t.out ++ outl, pend := none }) ∨
      (s.fits outl = false ∧ s.commit t outl = s) := by
  cases h : s.fits outl <;> simp [State.commit, h]

/-- All that a gated perform can do (R154, R155, R157, R162). -/
theorem performGated_cases (s : State) (ok : Bool) (body : Body) :
    (s.err ≠ .none ∧ s.performGated ok body = s.done) ∨
    (s.err = .none ∧ ok = false ∧ s.performGated ok body = s.fail .sequence) ∨
    (s.err = .none ∧ ok = true ∧ ∃ e, body = .error e ∧ s.performGated ok body = s.fail e) ∨
    (s.err = .none ∧ ok = true ∧ ∃ t outl, body = .ok (t, outl) ∧ s.fits outl = true ∧
      s.performGated ok body = { t with out := t.out ++ outl, pend := none }) ∨
    (s.err = .none ∧ ok = true ∧ ∃ t outl, body = .ok (t, outl) ∧ s.fits outl = false ∧
      s.performGated ok body = s) := by
  by_cases he : s.err = .none
  · cases ok
    · simp [State.performGated, he]
    · rcases body with e | ⟨t, outl⟩
      · simp [State.performGated, he]
      · cases hf : s.fits outl <;> simp [State.performGated, State.commit, he, hf]
  · exact .inl ⟨he, by simp [State.performGated, he]⟩

theorem performGated_err {s : State} (h : s.err ≠ .none) (ok : Bool) (body : Body) :
    s.performGated ok body = s.done := by
  simp [State.performGated, h]

theorem performGated_phase {s : State} (h : s.err = .none) (body : Body) :
    s.performGated false body = s.fail .sequence := by
  simp [State.performGated, h]

theorem performGated_error {s : State} (h : s.err = .none) (e : ErrCode) :
    s.performGated true (.error e) = s.fail e := by
  simp [State.performGated, h]

theorem performGated_ok {s : State} (h : s.err = .none) (t : State) (outl : List Byte) :
    s.performGated true (.ok (t, outl)) = s.commit t outl := by
  simp [State.performGated, h]

/-! ### `exec` answers a next state -/

/-- The own pseudocode of a gated command. -/
def gatedBody : Instr → State → Body
  | .count c, s => countBody c s
  | .loadf c, s => loadfBody c s.operandCount s
  | .build, s => buildBody s
  | .gencode, s => gencodeBody s
  | .encb c, s => encbBody c s
  | .encend, s => encendBody s
  | .decstart, s => decstartBody s.operandBits s
  | .decb b, s => decbBody b s
  | .decend, s => decendBody s
  | .nop, s | .clear, s | .rdfreq _, s | .rdcode _, s | .rdnode, s => .ok (s, [])

/-- What a command that the error gate lets through leaves before it completes. -/
def alwaysState : Instr → State → State
  | .clear, s => s.clearBlock
  | .rdfreq c, s => s.setRes (s.freqAt c) (s.nsym.setWidth 32)
  | .rdcode c, s => s.setRes (rdcodeResult c s.operandWindow s).1 (rdcodeResult c s.operandWindow s).2
  | .rdnode, s => s.setRes (rdnodeResult s.operandNode s).1 (rdnodeResult s.operandNode s).2
  | .nop, s | .count _, s | .loadf _, s | .build, s | .gencode, s | .encb _, s | .encend, s | .decstart, s | .decb _, s
  | .decend, s => s

/-- The commands the error gate lets through (R154, R161). -/
def passesGate : Instr → Bool
  | .nop | .clear | .rdfreq _ | .rdcode _ | .rdnode => true
  | .count _ | .loadf _ | .build | .gencode | .encb _ | .encend | .decstart | .decb _ | .decend => false

/-- `exec` as one of the two shapes of a perform. -/
theorem exec_eq (i : Instr) (s : State) :
    exec i s = .next (if passesGate i then performAlways (alwaysState i s)
      else s.performGated (phaseOk i s) (gatedBody i s)) := by
  cases i <;> rfl

theorem exec_always {i : Instr} (h : passesGate i = true) (s : State) :
    exec i s = .next (alwaysState i s).done := by
  simp [exec_eq, h, performAlways]

theorem exec_gated {i : Instr} (h : passesGate i = false) (s : State) :
    exec i s = .next (s.performGated (phaseOk i s) (gatedBody i s)) := by
  simp [exec_eq, h]

theorem performIllegal_cases (s : State) :
    (s.err ≠ .none ∧ performIllegal s = s.done) ∨ (s.err = .none ∧ performIllegal s = s.fail .illegalCmd) := by
  by_cases h : s.err = .none <;> simp [performIllegal, h]

end Sys2Proof.Machine
end

