-- ==== Sys2Proof/Laws/Tables.lean ====
section
/-! SUPPORT. Facts about the list of all symbols, and the sums over the frequency table that TOTAL and NSYM keep
(10_state R61). -/

namespace Sys2Proof.Machine

theorem mem_allSyms (c : Byte) : c ∈ allSyms := by
  simp only [allSyms, List.mem_map, List.mem_range]
  exact ⟨c.toNat, c.isLt, by simp⟩

theorem nodup_allSyms : allSyms.Nodup := by
  refine List.Nodup.map_on ?_ List.nodup_range
  intro a ha b hb h
  have h' := congrArg BitVec.toNat h
  simp only [BitVec.toNat_ofNat, List.mem_range] at *
  omega

theorem length_allSyms : allSyms.length = 256 := by simp [allSyms]

/-- Changing one entry of a sum over a list without repeats. -/
theorem sum_map_update {α : Type} [DecidableEq α] (l : List α) (g : α → Nat) (c : α) (v : Nat) (hn : l.Nodup)
    (hc : c ∈ l) : (l.map fun d => if d = c then v else g d).sum + g c = (l.map g).sum + v := by
  induction l with
  | nil => simp at hc
  | cons a l ih =>
    obtain ⟨ha, hn⟩ := List.nodup_cons.1 hn
    by_cases h : a = c
    · subst h
      have : (l.map fun d => if d = a then v else g d) = l.map g :=
        List.map_congr_left fun d hd => by
          have : d ≠ a := fun e => ha (e ▸ hd)
          simp [this]
      simp [this]; omega
    · have := ih hn (by simpa [Ne.symm h] using hc)
      simp [h]; omega

/-- `NSYM` as a sum: 1 for each symbol with an entry. -/
theorem entryCount_eq_sum (f : Byte → Word) :
    entryCount f = (allSyms.map fun c => if f c = 0#32 then 0 else 1).sum := by
  unfold entryCount
  generalize allSyms = l
  induction l with
  | nil => rfl
  | cons a l ih =>
    by_cases h : f a = 0#32
    · simpa [h] using ih
    · simpa [h, Nat.add_comm] using ih

theorem freqSum_setFreq (s : State) (c : Byte) (k : Word) :
    freqSum (s.setFreq c k).freqAt + (s.freqAt c).toNat = freqSum s.freqAt + k.toNat := by
  have := sum_map_update allSyms (fun d => (s.freqAt d).toNat) c k.toNat nodup_allSyms (mem_allSyms c)
  have he : (allSyms.map fun d => ((s.setFreq c k).freqAt d).toNat) =
      allSyms.map fun d => if d = c then k.toNat else (s.freqAt d).toNat :=
    List.map_congr_left fun d _ => by
      rw [freqAt_setFreq]; split <;> rfl
  simpa only [freqSum, he] using this

theorem entryCount_setFreq (s : State) (c : Byte) (k : Word) :
    entryCount (s.setFreq c k).freqAt + (if s.freqAt c = 0#32 then 0 else 1) =
      entryCount s.freqAt + (if k = 0#32 then 0 else 1) := by
  have := sum_map_update allSyms (fun d => if s.freqAt d = 0#32 then 0 else 1) c (if k = 0#32 then 0 else 1)
    nodup_allSyms (mem_allSyms c)
  have he : (allSyms.map fun d => if (s.setFreq c k).freqAt d = 0#32 then 0 else 1) =
      allSyms.map fun d => if d = c then (if k = 0#32 then 0 else 1) else (if s.freqAt d = 0#32 then 0 else 1) :=
    List.map_congr_left fun d _ => by
      rw [freqAt_setFreq]
      by_cases h : d = c <;> simp [h]
  simpa only [entryCount_eq_sum, he] using this

/-- Each entry is at most the sum (R180). -/
theorem freqAt_le_freqSum (f : Byte → Word) (c : Byte) : (f c).toNat ≤ freqSum f :=
  List.single_le_sum (by simp) _ (List.mem_map.2 ⟨c, mem_allSyms c, rfl⟩)

theorem entryCount_le (f : Byte → Word) : entryCount f ≤ 256 := by
  have := List.length_filter_le (fun c => decide (f c ≠ 0#32)) allSyms
  simpa [entryCount, length_allSyms] using this

theorem entryCount_zero_iff (f : Byte → Word) : entryCount f = 0 ↔ ∀ c, f c = 0#32 := by
  simp [entryCount, List.filter_eq_nil_iff, mem_allSyms]

end Sys2Proof.Machine
end

