-- ==== Sys2Proof/Laws/Tree.lean ====
section
/-! SUPPORT. What BUILD makes (42_tree): the priority collection, and the arena as a strict tree. -/

namespace Sys2Proof.Machine

/-! ### The priority collection (R200, R201) -/

theorem extractMin_perm {q r : List Key} {m : Key} (h : extractMin q = some (m, r)) : q.Perm (m :: r) := by
  induction q generalizing m r with
  | nil => simp [extractMin] at h
  | cons k q ih =>
    simp only [extractMin] at h
    cases hq : extractMin q with
    | none =>
      simp only [hq, Option.some.injEq, Prod.mk.injEq] at h
      cases q with
      | nil => simp [h]
      | cons a q =>
        simp only [extractMin] at hq
        split at hq <;> (try split at hq) <;> simp at hq
    | some mr =>
      obtain ⟨m', r'⟩ := mr
      have hp := ih hq
      simp only [hq] at h
      split at h <;> simp only [Option.some.injEq, Prod.mk.injEq] at h <;> obtain ⟨rfl, rfl⟩ := h
      · exact hp.cons k
      · exact (hp.cons k).trans (List.Perm.swap _ _ _)

theorem extractMin_none {q : List Key} (h : extractMin q = none) : q = [] := by
  cases q with
  | nil => rfl
  | cons k q =>
    simp only [extractMin] at h
    split at h <;> (try split at h) <;> simp at h

/-! ### Leaves (R202) -/

@[simp] theorem leafNode_kind (c : Byte) (w : Word) : (leafNode c w).kind = .leaf := rfl
@[simp] theorem leafNode_sym (c : Byte) (w : Word) : (leafNode c w).sym = c := rfl
@[simp] theorem leafNode_weight (c : Byte) (w : Word) : (leafNode c w).weight = w := rfl
@[simp] theorem internalNode_kind (w : Word) (l r : NodeIdx) : (internalNode w l r).kind = .internal := rfl
@[simp] theorem internalNode_sym (w : Word) (l r : NodeIdx) : (internalNode w l r).sym = 0#8 := rfl
@[simp] theorem internalNode_weight (w : Word) (l r : NodeIdx) : (internalNode w l r).weight = w := rfl
@[simp] theorem internalNode_left (w : Word) (l r : NodeIdx) : (internalNode w l r).left = l := rfl
@[simp] theorem internalNode_right (w : Word) (l r : NodeIdx) : (internalNode w l r).right = r := rfl

theorem leafNodes_length (f : Byte → Word) : (leafNodes f).length = entryCount f := by
  unfold leafNodes entryCount
  generalize allSyms = l
  induction l with
  | nil => rfl
  | cons a l ih => by_cases h : f a = 0#32 <;> simp [h, ih]

theorem leafNodes_weight (f : Byte → Word) : ((leafNodes f).map fun nd => nd.weight.toNat).sum = freqSum f := by
  unfold leafNodes freqSum
  generalize allSyms = l
  induction l with
  | nil => rfl
  | cons a l ih => by_cases h : f a = 0#32 <;> simp [h, ih]

theorem mem_leafNodes {f : Byte → Word} {nd : NodeRec} :
    nd ∈ leafNodes f ↔ ∃ c, f c ≠ 0#32 ∧ nd = leafNode c (f c) := by
  simp only [leafNodes, List.mem_filterMap, mem_allSyms, true_and]
  constructor
  · rintro ⟨c, h⟩
    split at h
    · simp at h
    · exact ⟨c, by assumption, by simpa using h.symm⟩
  · rintro ⟨c, h, rfl⟩
    exact ⟨c, by simp [h]⟩

/-- The symbols of the leaves are the symbols with an entry, in ascending order (R202). -/
theorem leafNodes_syms (f : Byte → Word) :
    (leafNodes f).map NodeRec.sym = allSyms.filter fun c => decide (f c ≠ 0#32) := by
  unfold leafNodes
  generalize allSyms = l
  induction l with
  | nil => rfl
  | cons a l ih => by_cases h : f a = 0#32 <;> simp [h, ih]

theorem leafNodes_sym_nodup (f : Byte → Word) : ((leafNodes f).map NodeRec.sym).Nodup := by
  rw [leafNodes_syms]; exact nodup_allSyms.filter _

/-! ### Combination (R203) -/

/-- The children a node has, as numbers; `NIL` is none. -/
def childrenOf (nd : NodeRec) : List Nat :=
  match nd.kind with
  | .leaf => []
  | .internal => ([nd.left, nd.right].filter fun c => decide (c ≠ NIL)).map BitVec.toNat

/-- All child references of an arena. -/
def refs (nodes : List NodeRec) : List Nat := nodes.flatMap childrenOf

/-- What holds of an arena while `combine` runs on collection `q` over `leaves`. -/
structure Arena (leaves : List NodeRec) (q : List Key) (nodes : List NodeRec) : Prop where
  leaves_first : ∃ inner, nodes = leaves ++ inner
  inner_node : ∀ i nd, leaves.length ≤ i → nodes[i]? = some nd →
    ∃ l r nl nr, l < i ∧ r < i ∧ nodes[l]? = some nl ∧ nodes[r]? = some nr ∧
      nd = internalNode (nl.weight + nr.weight) (BitVec.ofNat 9 l) (BitVec.ofNat 9 r) ∧
      nd.weight.toNat = nl.weight.toNat + nr.weight.toNat
  keys : ∀ k ∈ q, ∃ nd, nodes[k.idx]? = some nd ∧ nd.weight = k.weight
  size : nodes.length + q.length = 2 * leaves.length
  once : (q.map Key.idx ++ refs nodes).Perm (List.range nodes.length)
  weights : (q.map fun k => k.weight.toNat).sum = (leaves.map fun nd => nd.weight.toNat).sum

theorem keysFrom_map_idx (i : Nat) (l : List NodeRec) : (keysFrom i l).map Key.idx = List.range' i l.length := by
  induction l generalizing i with
  | nil => rfl
  | cons a l ih => simp [keysFrom, ih, List.range'_succ]

theorem keysFrom_map_weight (i : Nat) (l : List NodeRec) :
    ((keysFrom i l).map fun k => k.weight.toNat) = l.map fun nd => nd.weight.toNat := by
  induction l generalizing i with
  | nil => rfl
  | cons a l ih => simp [keysFrom, ih]

theorem keysFrom_length (i : Nat) (l : List NodeRec) : (keysFrom i l).length = l.length := by
  induction l generalizing i with
  | nil => rfl
  | cons a l ih => simp [keysFrom, ih]

theorem mem_keysFrom {i : Nat} {l : List NodeRec} {k : Key} (h : k ∈ keysFrom i l) :
    i ≤ k.idx ∧ ∃ nd, l[k.idx - i]? = some nd ∧ nd.weight = k.weight := by
  induction l generalizing i with
  | nil => simp [keysFrom] at h
  | cons a l ih =>
    simp only [keysFrom, List.mem_cons] at h
    rcases h with rfl | h
    · exact ⟨Nat.le_refl _, a, by simp, rfl⟩
    · obtain ⟨h1, nd, h2, h3⟩ := ih h
      refine ⟨by omega, nd, ?_, h3⟩
      rw [show k.idx - i = (k.idx - (i + 1)) + 1 by omega, List.getElem?_cons_succ, h2]

theorem refs_leaves {leaves : List NodeRec} (hl : ∀ nd ∈ leaves, nd.kind = .leaf) : refs leaves = [] := by
  simp only [refs, List.flatMap_eq_nil_iff]
  intro nd hnd
  simp [childrenOf, hl nd hnd]

theorem arena_start {leaves : List NodeRec} (hl : ∀ nd ∈ leaves, nd.kind = .leaf) :
    Arena leaves (keysFrom 0 leaves) leaves where
  leaves_first := ⟨[], by simp⟩
  inner_node i nd hi h := by
    have := (List.getElem?_eq_some_iff.1 h).1
    omega
  keys k hk := by simpa using (mem_keysFrom hk).2
  size := by rw [keysFrom_length]; omega
  once := by rw [refs_leaves hl, keysFrom_map_idx, List.append_nil, List.range_eq_range']
  weights := by rw [keysFrom_map_weight]

theorem ofNat9_toNat {i : Nat} (h : i < 511) : (BitVec.ofNat 9 i).toNat = i := by
  simp; omega

theorem ofNat9_ne_NIL {i : Nat} (h : i < 511) : BitVec.ofNat 9 i ≠ NIL := by
  intro e
  have := congrArg BitVec.toNat e
  rw [ofNat9_toNat h] at this
  simp [NIL] at this
  omega

theorem childrenOf_internal {w : Word} {l r : Nat} (hl : l < 511) (hr : r < 511) :
    childrenOf (internalNode w (BitVec.ofNat 9 l) (BitVec.ofNat 9 r)) = [l, r] := by
  simp only [childrenOf, internalNode, List.filter_cons, ofNat9_ne_NIL hl, ofNat9_ne_NIL hr, ne_eq, not_false_eq_true,
    decide_true, if_true, List.filter_nil, List.map_cons, List.map_nil, ofNat9_toNat hl, ofNat9_toNat hr]

/-- One pass of the loop keeps the arena (R203). -/
theorem arena_pass {leaves nodes : List NodeRec} {q q1 q2 : List Key} {x y : Key} (hn : leaves.length ≤ 256)
    (hmax : (leaves.map fun nd => nd.weight.toNat).sum ≤ maxCount) (ha : Arena leaves q nodes)
    (hx : extractMin q = some (x, q1)) (hy : extractMin q1 = some (y, q2)) :
    Arena leaves (⟨x.weight + y.weight, nodes.length⟩ :: q2)
      (nodes ++ [internalNode (x.weight + y.weight) (BitVec.ofNat 9 x.idx) (BitVec.ofNat 9 y.idx)]) := by
  have hp : q.Perm (x :: y :: q2) := (extractMin_perm hx).trans ((extractMin_perm hy).cons x)
  have hlen := hp.length_eq
  have hsize := ha.size
  obtain ⟨ndx, hxn, hxw⟩ := ha.keys x (hp.mem_iff.2 (by simp))
  obtain ⟨ndy, hyn, hyw⟩ := ha.keys y (hp.mem_iff.2 (by simp))
  have hxl := (List.getElem?_eq_some_iff.1 hxn).1
  have hyl := (List.getElem?_eq_some_iff.1 hyn).1
  simp only [List.length_cons] at hlen
  have hsum : x.weight.toNat + (y.weight.toNat + (q2.map fun k => k.weight.toNat).sum) =
      (leaves.map fun nd => nd.weight.toNat).sum := by
    rw [← ha.weights, (hp.map _).sum_eq]; simp
  have hadd : (x.weight + y.weight).toNat = x.weight.toNat + y.weight.toNat := by
    rw [BitVec.toNat_add]
    simp only [maxCount] at hmax
    omega
  obtain ⟨inner, hinner⟩ := ha.leaves_first
  refine ⟨⟨inner ++ [_], by rw [hinner, List.append_assoc]⟩, ?_, ?_, ?_, ?_, ?_⟩
  · intro i nd hi h
    by_cases hlt : i < nodes.length
    · rw [List.getElem?_append_left hlt] at h
      obtain ⟨l, r, nl, nr, h1, h2, h3, h4, h5, h6⟩ := ha.inner_node i nd hi h
      exact ⟨l, r, nl, nr, h1, h2, by rw [List.getElem?_append_left (by omega), h3],
        by rw [List.getElem?_append_left (by omega), h4], h5, h6⟩
    · have hi' : i = nodes.length := by
        have := (List.getElem?_eq_some_iff.1 h).1
        simp at this; omega
      subst hi'
      simp only [List.getElem?_concat_length, Option.some.injEq] at h
      subst h
      refine ⟨x.idx, y.idx, ndx, ndy, hxl, hyl, by rw [List.getElem?_append_left hxl, hxn],
        by rw [List.getElem?_append_left hyl, hyn], by rw [hxw, hyw], ?_⟩
      rw [hxw, hyw]; exact hadd
  · intro k hk
    rcases List.mem_cons.1 hk with rfl | hk
    · exact ⟨internalNode (x.weight + y.weight) (BitVec.ofNat 9 x.idx) (BitVec.ofNat 9 y.idx), by simp, rfl⟩
    · obtain ⟨nd, h1, h2⟩ := ha.keys k (hp.mem_iff.2 (by simp [hk]))
      exact ⟨nd, by rw [List.getElem?_append_left (List.getElem?_eq_some_iff.1 h1).1, h1], h2⟩
  · simp only [List.length_append, List.length_cons, List.length_nil]; omega
  · have hc := childrenOf_internal (w := x.weight + y.weight) (l := x.idx) (r := y.idx) (by omega) (by omega)
    have hr : refs (nodes ++ [internalNode (x.weight + y.weight) (BitVec.ofNat 9 x.idx) (BitVec.ofNat 9 y.idx)]) =
        refs nodes ++ [x.idx, y.idx] := by
      simp [refs, hc]
    rw [hr, List.length_append, List.length_singleton, List.range_succ, List.map_cons]
    have h1 : (x.idx :: y.idx :: (q2.map Key.idx ++ refs nodes)).Perm (List.range nodes.length) := by
      refine List.Perm.trans ?_ ha.once
      exact ((hp.map Key.idx).symm.append_right (refs nodes))
    have h2 : (q2.map Key.idx ++ (refs nodes ++ [x.idx, y.idx])).Perm (List.range nodes.length) := by
      refine List.Perm.trans ?_ h1
      rw [← List.append_assoc]
      exact (List.perm_append_comm (l₁ := q2.map Key.idx ++ refs nodes) (l₂ := [x.idx, y.idx]))
    exact ((h2.cons nodes.length).trans (List.perm_append_comm (l₁ := [nodes.length]) (l₂ := List.range nodes.length)))
  · simp only [List.map_cons, List.sum_cons, hadd]
    omega

/-- The loop of R203 run to its end leaves one key, and the arena of a strict tree. -/
theorem combine_arena {leaves : List NodeRec} (hn : leaves.length ≤ 256)
    (hmax : (leaves.map fun nd => nd.weight.toNat).sum ≤ maxCount) (passes : Nat) (q : List Key)
    (nodes : List NodeRec) (hq : q.length = passes + 1) (ha : Arena leaves q nodes) :
    ∃ k, Arena leaves [k] (combine passes q nodes) := by
  induction passes generalizing q nodes with
  | zero =>
    obtain ⟨k, rfl⟩ := List.length_eq_one_iff.1 hq
    exact ⟨k, ha⟩
  | succ passes ih =>
    simp only [combine]
    cases hx : extractMin q with
    | none => rw [extractMin_none hx] at hq; simp at hq
    | some xr =>
      obtain ⟨x, q1⟩ := xr
      have h1 := (extractMin_perm hx).length_eq
      simp only [List.length_cons] at h1
      cases hy : extractMin q1 with
      | none => rw [extractMin_none hy] at h1; simp at h1; omega
      | some yr =>
        obtain ⟨y, q2⟩ := yr
        have h2 := (extractMin_perm hy).length_eq
        simp only [List.length_cons] at h2
        simp only [hy]
        exact ih _ _ (by simp only [List.length_cons]; omega) (arena_pass hn hmax ha hx hy)

/-! ### The arena `BUILD` leaves (R204, R205, R207, R210) -/

/-- What holds of the finished arena over `leaves`. -/
structure TreeShape (leaves nodes : List NodeRec) : Prop where
  length_eq : nodes.length = if leaves.length = 1 then 2 else 2 * leaves.length - 1
  leaves_first : ∃ inner, nodes = leaves ++ inner
  internal : ∀ i nd, leaves.length ≤ i → nodes[i]? = some nd →
    nd.kind = .internal ∧ nd.sym = 0#8 ∧ nd.left.toNat < i ∧ (nd.right = NIL ∨ nd.right.toNat < i) ∧
      (2 ≤ leaves.length → nd.right ≠ NIL)
  once : ((nodes.length - 1) :: refs nodes).Perm (List.range nodes.length)
  weight_sum : ∀ i nd, leaves.length ≤ i → nodes[i]? = some nd →
    ∃ nl, nodes[nd.left.toNat]? = some nl ∧
      ((nd.right = NIL ∧ nd.weight = nl.weight) ∨
        ∃ nr, nodes[nd.right.toNat]? = some nr ∧ nd.weight.toNat = nl.weight.toNat + nr.weight.toNat)
  root_weight : ∃ nd, nodes[nodes.length - 1]? = some nd ∧
    nd.weight.toNat = (leaves.map fun nd => nd.weight.toNat).sum

theorem perm_range_last {l : List Nat} {k m n : Nat} (h : (k :: l).Perm (List.range (n + 1))) (hl : ∀ a ∈ l, a < m)
    (hm : m ≤ n) : k = n := by
  have : n ∈ k :: l := h.mem_iff.2 (by simp)
  rcases List.mem_cons.1 this with e | e
  · exact e.symm
  · have := hl n e; omega

theorem shape_of_arena {leaves nodes : List NodeRec} {k : Key} (hn : leaves.length ≤ 256) (h2 : 2 ≤ leaves.length)
    (hl : ∀ nd ∈ leaves, nd.kind = .leaf) (ha : Arena leaves [k] nodes) : TreeShape leaves nodes := by
  have hsize := ha.size
  simp only [List.length_singleton] at hsize
  have hlen : nodes.length = 2 * leaves.length - 1 := by omega
  have hin : ∀ i nd, leaves.length ≤ i → nodes[i]? = some nd →
      ∃ l r nl nr, l < i ∧ r < i ∧ l < 511 ∧ r < 511 ∧ nodes[l]? = some nl ∧ nodes[r]? = some nr ∧
      nd = internalNode (nl.weight + nr.weight) (BitVec.ofNat 9 l) (BitVec.ofNat 9 r) ∧
      nd.weight.toNat = nl.weight.toNat + nr.weight.toNat := by
    intro i nd hi h
    have hil := (List.getElem?_eq_some_iff.1 h).1
    obtain ⟨l, r, nl, nr, h1, h2, h3, h4, h5, h6⟩ := ha.inner_node i nd hi h
    exact ⟨l, r, nl, nr, h1, h2, by omega, by omega, h3, h4, h5, h6⟩
  have hrefs : ∀ a ∈ refs nodes, a < nodes.length - 1 := by
    intro a hmem
    obtain ⟨nd, hnd, hc⟩ := List.mem_flatMap.1 hmem
    obtain ⟨i, hi⟩ := List.mem_iff_getElem?.1 hnd
    have hil := (List.getElem?_eq_some_iff.1 hi).1
    by_cases hlt : i < leaves.length
    · obtain ⟨inner, hinner⟩ := ha.leaves_first
      rw [hinner, List.getElem?_append_left hlt] at hi
      simp [childrenOf, hl nd (List.mem_of_getElem? hi)] at hc
    · obtain ⟨l, r, nl, nr, h1, h2, h3, h4, _, _, rfl, _⟩ := hin i nd (by omega) hi
      rw [childrenOf_internal h3 h4] at hc
      simp only [List.mem_cons, List.not_mem_nil, or_false] at hc
      omega
  have honce := ha.once
  simp only [List.map_cons, List.map_nil, List.singleton_append] at honce
  have hk : k.idx = nodes.length - 1 := by
    have h' : nodes.length = (nodes.length - 1) + 1 := by omega
    rw [h'] at honce
    exact perm_range_last honce hrefs (Nat.le_refl _)
  refine ⟨by rw [hlen, if_neg (by omega)], ha.leaves_first, ?_, hk ▸ honce, ?_, ?_⟩
  · intro i nd hi h
    obtain ⟨l, r, nl, nr, h1, h2, h3, h4, h5, h6, rfl, _⟩ := hin i nd hi h
    simp only [internalNode_kind, internalNode_sym, internalNode_left, internalNode_right, ofNat9_toNat h3, ofNat9_toNat h4]
    exact ⟨trivial, trivial, h1, .inr h2, fun _ => ofNat9_ne_NIL h4⟩
  · intro i nd hi h
    obtain ⟨l, r, nl, nr, h1, h2, h3, h4, h5, h6, rfl, h8⟩ := hin i nd hi h
    refine ⟨nl, by rw [internalNode_left, ofNat9_toNat h3, h5], .inr ⟨nr, ?_, h8⟩⟩
    rw [internalNode_right, ofNat9_toNat h4, h6]
  · obtain ⟨nd, h1, h2⟩ := ha.keys k (by simp)
    have hw := ha.weights
    simp only [List.map_cons, List.map_nil, List.sum_cons, List.sum_nil, Nat.add_zero] at hw
    exact ⟨nd, hk ▸ h1, by rw [h2, hw]⟩

theorem shape_wrap {leaf : NodeRec} (hl : leaf.kind = .leaf) : TreeShape [leaf] (wrapNodes leaf) := by
  have hi : ∀ i nd, 1 ≤ i → (wrapNodes leaf)[i]? = some nd → i = 1 ∧ nd = internalNode leaf.weight 0#9 NIL := by
    intro i nd h1 h
    have := (List.getElem?_eq_some_iff.1 h).1
    simp only [wrapNodes, List.length_cons, List.length_nil] at this
    have : i = 1 := by omega
    subst this
    exact ⟨rfl, by simpa [wrapNodes] using h.symm⟩
  refine ⟨rfl, ⟨_, rfl⟩, ?_, ?_, ?_, ?_⟩
  · intro i nd h1 h
    obtain ⟨rfl, rfl⟩ := hi i nd h1 h
    simp
  · have : childrenOf (internalNode leaf.weight 0#9 NIL) = [0] := by
      simp [childrenOf, internalNode, NIL]
    simp only [refs, wrapNodes, List.flatMap_cons, this, List.flatMap_nil]
    simp [childrenOf, hl]
    decide
  · intro i nd h1 h
    obtain ⟨rfl, rfl⟩ := hi i nd h1 h
    exact ⟨leaf, rfl, .inl ⟨rfl, rfl⟩⟩
  · exact ⟨internalNode leaf.weight 0#9 NIL, rfl, by simp⟩

theorem leafNodes_kind {f : Byte → Word} : ∀ nd ∈ leafNodes f, nd.kind = .leaf := by
  intro nd h
  obtain ⟨c, _, rfl⟩ := mem_leafNodes.1 h
  rfl

/-- The arena BUILD makes of a table with at least one entry (R202-R205). -/
theorem treeNodes_shape {f : Byte → Word} (hsum : freqSum f ≤ maxCount) (hne : 1 ≤ entryCount f) :
    TreeShape (leafNodes f) (treeNodes f) := by
  have hk := leafNodes_kind (f := f)
  have hlen := leafNodes_length f
  have hle := entryCount_le f
  have hw := leafNodes_weight f
  unfold treeNodes
  split
  · rename_i leaf h
    rw [h] at hk ⊢
    exact shape_wrap (hk leaf (by simp))
  · rename_i h
    have h2 : 2 ≤ (leafNodes f).length := by
      by_contra hc
      obtain ⟨leaf, hl⟩ := List.length_eq_one_iff.1 (show (leafNodes f).length = 1 by omega)
      exact h leaf hl
    obtain ⟨k, ha⟩ := combine_arena (leaves := leafNodes f) (by omega) (by omega) ((leafNodes f).length - 1)
      (keysFrom 0 (leafNodes f)) (leafNodes f) (by rw [keysFrom_length]; omega) (arena_start hk)
    exact shape_of_arena (by omega) h2 hk ha

end Sys2Proof.Machine
end

