-- ==== Sys2Proof/Laws/Path.lean ====
section
/-! SUPPORT. Paths in the tree, what GENCODE's traversal writes, and that the walk over a code emits its symbol
(43_codetable R230, R232; 45_decode R271, R277). -/

namespace Sys2Proof.Machine

/-! ### Paths -/

theorem pathTo_append {nd : NodeIdx → NodeRec} {i j k : NodeIdx} {p q : List Bool} (hp : pathTo nd i p j)
    (hq : pathTo nd j q k) : pathTo nd i (p ++ q) k := by
  induction p generalizing i with
  | nil => cases hp; exact hq
  | cons b p ih => exact ⟨hp.1, hp.2.1, ih hp.2.2⟩

/-- A path cut in two. -/
theorem pathTo_split {nd : NodeIdx → NodeRec} {i k : NodeIdx} {p q : List Bool} (h : pathTo nd i (p ++ q) k) :
    ∃ j, pathTo nd i p j ∧ pathTo nd j q k := by
  induction p generalizing i with
  | nil => exact ⟨i, rfl, h⟩
  | cons b p ih =>
    obtain ⟨j, h1, h2⟩ := ih h.2.2
    exact ⟨j, ⟨h.1, h.2.1, h1⟩, h2⟩

/-- A path determines its end. -/
theorem pathTo_unique {nd : NodeIdx → NodeRec} {i j k : NodeIdx} {p : List Bool} (h : pathTo nd i p j)
    (h' : pathTo nd i p k) : j = k := by
  induction p generalizing i with
  | nil => cases h; cases h'; rfl
  | cons b p ih => exact ih h.2.2 h'.2.2

/-- No path goes on from a leaf: of two paths to leaves from one node, neither extends the other properly. -/
theorem pathTo_leaf_append {nd : NodeIdx → NodeRec} {i j k : NodeIdx} {p q : List Bool} (h : pathTo nd i p j)
    (hl : (nd j).kind = .leaf) (h' : pathTo nd i (p ++ q) k) : q = [] := by
  induction p generalizing i with
  | nil =>
    cases h
    cases q with
    | nil => rfl
    | cons b q => exact absurd (hl.symm.trans h'.1) (by decide)
  | cons b p ih => exact ih h.2.2 h'.2.2

/-- The walk over a path from an internal node to a leaf emits the leaf's symbol and is back at the root (R271). -/
theorem decodeBits_path {nd : NodeIdx → NodeRec} {root i j : NodeIdx} {p : List Bool} (rest : List Bool)
    (hp : pathTo nd i p j) (hi : (nd i).kind = .internal) (hj : (nd j).kind = .leaf) :
    decodeBits nd root i (p ++ rest) = (decodeBits nd root root rest).map fun r => (r.1, (nd j).sym :: r.2) := by
  induction p generalizing i with
  | nil => cases hp; exact absurd (hi.symm.trans hj) (by decide)
  | cons b p ih =>
    obtain ⟨_, hc, hp⟩ := hp
    simp only [List.cons_append, decodeBits, hc, if_false]
    cases hk : (nd (childOf nd i b)).kind with
    | leaf =>
      cases p with
      | nil => cases hp; rfl
      | cons b' p => exact absurd (hk.symm.trans hp.1) (by decide)
    | internal => exact ih hp hk

/-! ### The traversal (R230) -/

theorem assign_get (t : CodeTable) (c d : Byte) (p : List Bool) :
    (t.assign c p)[d.toNat]'d.isLt = if d = c then some ⟨p⟩ else t[d.toNat]'d.isLt := by
  simp only [CodeTable.assign, Vector.getElem_set, BitVec.toNat_inj]
  by_cases h : c = d
  · simp [h]
  · simp [h, Ne.symm h]

/-- The traversal changes an entry only to a path to a leaf of that symbol, shorter than the levels it was given. -/
theorem visit_sound {nd : NodeIdx → NodeRec} {levels : Nat} {i : NodeIdx} {p : List Bool} {t t' : CodeTable}
    (h : visit nd levels i p t = some t') (c : Byte) :
    t'[c.toNat]'c.isLt = t[c.toNat]'c.isLt ∨
      ∃ q j, pathTo nd i q j ∧ (nd j).kind = .leaf ∧ (nd j).sym = c ∧ q.length < levels ∧
        t'[c.toNat]'c.isLt = some ⟨p ++ q⟩ := by
  induction levels generalizing i p t t' with
  | zero => simp [visit] at h
  | succ levels ih =>
    simp only [visit] at h
    cases hk : (nd i).kind with
    | leaf =>
      simp only [hk, Option.some.injEq] at h
      subst h
      rw [assign_get]
      by_cases hc : c = (nd i).sym
      · exact .inr ⟨[], i, rfl, hk, hc.symm, by simp, by simp [hc]⟩
      · exact .inl (by simp [hc])
    | internal =>
      have lift : ∀ (b : Bool) (u u' : CodeTable),
          (if childOf nd i b = NIL then some u else visit nd levels (childOf nd i b) (p ++ [b]) u) = some u' →
          u'[c.toNat]'c.isLt = u[c.toNat]'c.isLt ∨
            ∃ q j, pathTo nd i q j ∧ (nd j).kind = .leaf ∧ (nd j).sym = c ∧ q.length < levels + 1 ∧
              u'[c.toNat]'c.isLt = some ⟨p ++ q⟩ := by
        intro b u u' hu
        by_cases hn : childOf nd i b = NIL
        · simp only [hn, if_true, Option.some.injEq] at hu
          exact .inl (by rw [hu])
        · simp only [hn, if_false] at hu
          rcases ih hu with h' | ⟨q, j, h1, h2, h3, h4, h5⟩
          · exact .inl h'
          · exact .inr ⟨b :: q, j, ⟨hk, hn, h1⟩, h2, h3, by simpa using h4, by simpa using h5⟩
      simp only [hk] at h
      split at h
      · simp at h
      · rename_i t1 h1
        have hl := lift false t t1 h1
        have hr := lift true t1 t' h
        rcases hr with hr | hr
        · rcases hl with hl | ⟨q, j, a1, a2, a3, a4, a5⟩
          · exact .inl (hr.trans hl)
          · exact .inr ⟨q, j, a1, a2, a3, a4, hr.trans a5⟩
        · exact .inr hr

/-- The traversal gives a code to the symbol of every leaf below its node. -/
theorem visit_complete {nd : NodeIdx → NodeRec} {levels : Nat} {i j : NodeIdx} {p q : List Bool} {t t' : CodeTable}
    (h : visit nd levels i p t = some t') (hq : pathTo nd i q j) (hj : (nd j).kind = .leaf) :
    ∃ q' j', pathTo nd i q' j' ∧ (nd j').kind = .leaf ∧ (nd j').sym = (nd j).sym ∧ q'.length < levels ∧
      t'[(nd j).sym.toNat]'(nd j).sym.isLt = some ⟨p ++ q'⟩ := by
  induction levels generalizing i p q t t' with
  | zero => simp [visit] at h
  | succ levels ih =>
    simp only [visit] at h
    cases hk : (nd i).kind with
    | leaf =>
      cases q with
      | cons b q => exact absurd (hk.symm.trans hq.1) (by decide)
      | nil =>
        cases hq
        simp only [hk, Option.some.injEq] at h
        subst h
        exact ⟨[], j, rfl, hj, rfl, by simp, by rw [assign_get]; simp⟩
    | internal =>
      cases q with
      | nil => cases hq; exact absurd (hk.symm.trans hj) (by decide)
      | cons b q =>
        obtain ⟨_, hn, hq⟩ := hq
        simp only [hk] at h
        split at h
        · simp at h
        · rename_i t1 h1
          cases b with
          | true =>
            have hn' : (nd i).right ≠ NIL := hn
            simp only [hn', if_false] at h
            obtain ⟨q', j', a1, a2, a3, a4, a5⟩ := ih h hq
            exact ⟨true :: q', j', ⟨hk, hn, a1⟩, a2, a3, by simpa using a4, by simpa using a5⟩
          | false =>
            have hn' : (nd i).left ≠ NIL := hn
            simp only [hn', if_false] at h1
            obtain ⟨q', j', a1, a2, a3, a4, a5⟩ := ih h1 hq
            have base : ∃ q' j', pathTo nd i q' j' ∧ (nd j').kind = .leaf ∧ (nd j').sym = (nd j).sym ∧
                q'.length < levels + 1 ∧ t1[(nd j).sym.toNat]'(nd j).sym.isLt = some ⟨p ++ q'⟩ :=
              ⟨false :: q', j', ⟨hk, hn, a1⟩, a2, a3, by simpa using a4, by simpa using a5⟩
            by_cases hr : (nd i).right = NIL
            · simp only [hr, if_true, Option.some.injEq] at h
              exact h ▸ base
            · simp only [hr, if_false] at h
              rcases visit_sound h (nd j).sym with e | ⟨q2, j2, b1, b2, b3, b4, b5⟩
              · obtain ⟨q', j', a1, a2, a3, a4, a5⟩ := base
                exact ⟨q', j', a1, a2, a3, a4, e.trans a5⟩
              · exact ⟨true :: q2, j2, ⟨hk, hr, b1⟩, b2, b3, by simpa using b4, by simpa using b5⟩

/-! ### The finished tree -/

/-- The nodes as the engine reads them are those of the arena. -/
def Reads (nd : NodeIdx → NodeRec) (nodes : List NodeRec) : Prop :=
  ∀ i : NodeIdx, i.toNat < nodes.length → nodes[i.toNat]? = some (nd i)

theorem reads_nodeAt (s : State) : Reads s.nodeAt s.node := by
  intro i hi
  simp [State.nodeAt, hi]

section Finished

variable {nd : NodeIdx → NodeRec} {leaves nodes : List NodeRec}

theorem kind_leaf_of_lt (hs : TreeShape leaves nodes) (hr : Reads nd nodes) (hl : ∀ x ∈ leaves, x.kind = .leaf)
    {i : NodeIdx} (hi : i.toNat < leaves.length) : leaves[i.toNat]? = some (nd i) ∧ (nd i).kind = .leaf := by
  obtain ⟨inner, hinner⟩ := hs.leaves_first
  have hlt : i.toNat < nodes.length := by rw [hinner, List.length_append]; omega
  have h := hr i hlt
  rw [hinner, List.getElem?_append_left hi] at h
  exact ⟨h, hl _ (List.mem_of_getElem? h)⟩

theorem kind_internal_of_le (hs : TreeShape leaves nodes) (hr : Reads nd nodes) {i : NodeIdx}
    (hi : leaves.length ≤ i.toNat) (hlt : i.toNat < nodes.length) : (nd i).kind = .internal :=
  (hs.internal _ _ hi (hr i hlt)).1

/-- A child that is there has a smaller index than its parent. -/
theorem child_lt (hs : TreeShape leaves nodes) (hr : Reads nd nodes) (hl : ∀ x ∈ leaves, x.kind = .leaf)
    {i : NodeIdx} (hlt : i.toNat < nodes.length) (hk : (nd i).kind = .internal) {b : Bool}
    (hc : childOf nd i b ≠ NIL) : (childOf nd i b).toNat < i.toNat := by
  have hge : leaves.length ≤ i.toNat := by
    by_contra hn
    exact absurd ((kind_leaf_of_lt hs hr hl (by omega)).2.symm.trans hk) (by decide)
  obtain ⟨_, _, h1, h2, _⟩ := hs.internal _ _ hge (hr i hlt)
  cases b with
  | false => exact h1
  | true =>
    rcases h2 with e | e
    · exact absurd e hc
    · exact e

/-- The traversal ends within the levels that the index allows. -/
theorem visit_isSome (hs : TreeShape leaves nodes) (hr : Reads nd nodes) (hl : ∀ x ∈ leaves, x.kind = .leaf)
    (levels : Nat) (i : NodeIdx) (p : List Bool) (t : CodeTable) (hlt : i.toNat < nodes.length)
    (hlev : leaves.length ≤ i.toNat ∧ i.toNat + 2 ≤ levels + leaves.length ∨ i.toNat < leaves.length ∧ 1 ≤ levels) :
    (visit nd levels i p t).isSome = true := by
  induction levels generalizing i p t with
  | zero => omega
  | succ levels ih =>
    simp only [visit]
    cases hk : (nd i).kind with
    | leaf => rfl
    | internal =>
      have hge : leaves.length ≤ i.toNat := by
        by_contra hn
        exact absurd ((kind_leaf_of_lt hs hr hl (by omega)).2.symm.trans hk) (by decide)
      have step : ∀ (b : Bool) (u : CodeTable), childOf nd i b ≠ NIL →
          (visit nd levels (childOf nd i b) (p ++ [b]) u).isSome = true := by
        intro b u hc
        have hcl := child_lt hs hr hl hlt hk hc
        exact ih _ _ _ (by omega) (by omega)
      have hleft : ∃ t1, (if (nd i).left = NIL then some t
          else visit nd levels (nd i).left (p ++ [false]) t) = some t1 := by
        by_cases hn : (nd i).left = NIL
        · exact ⟨t, by simp [hn]⟩
        · simpa [hn, childOf, Option.isSome_iff_exists] using step false t hn
      obtain ⟨t1, h1⟩ := hleft
      simp only [h1]
      by_cases hn : (nd i).right = NIL
      · simp [hn]
      · simpa [hn, childOf] using step true t1 hn

/-- Every node in use is reached from the root. -/
theorem root_reaches (hs : TreeShape leaves nodes) (hr : Reads nd nodes) (hl : ∀ x ∈ leaves, x.kind = .leaf)
    (hsize : nodes.length ≤ 511)
    (root : NodeIdx) (hroot : root.toNat = nodes.length - 1) (i : NodeIdx) (hlt : i.toNat < nodes.length) :
    ∃ p, pathTo nd root p i := by
  generalize hd : nodes.length - i.toNat = d
  induction d using Nat.strongRecOn generalizing i with
  | ind d ih =>
    by_cases he : i.toNat = nodes.length - 1
    · have : root = i := BitVec.eq_of_toNat_eq (by omega)
      exact ⟨[], this⟩
    · have hm : i.toNat ∈ (nodes.length - 1) :: refs nodes := hs.once.mem_iff.2 (by simpa using hlt)
      simp only [List.mem_cons, he, false_or] at hm
      obtain ⟨x, hx, hc⟩ := List.mem_flatMap.1 hm
      obtain ⟨j, hj⟩ := List.mem_iff_getElem?.1 hx
      have hjl := (List.getElem?_eq_some_iff.1 hj).1
      have hjt : (BitVec.ofNat 9 j).toNat = j := ofNat9_toNat (by omega)
      have hx' : x = nd (BitVec.ofNat 9 j) := by
        have := hr (BitVec.ofNat 9 j) (by omega)
        rw [hjt, hj] at this
        simpa using this
      have hxk : x.kind = .internal := by
        cases hk : x.kind with
        | leaf => simp [childrenOf, hk] at hc
        | internal => rfl
      have hb : ∃ b, childOf nd (BitVec.ofNat 9 j) b = i ∧ i ≠ NIL := by
        simp only [childrenOf, hxk, List.mem_map, List.mem_filter, List.mem_cons, List.not_mem_nil, or_false,
          decide_eq_true_eq] at hc
        obtain ⟨a, ⟨ha, hnil⟩, hat⟩ := hc
        have hai : a = i := BitVec.eq_of_toNat_eq hat
        subst hai
        rcases ha with rfl | rfl
        · exact ⟨false, by simp [childOf, hx'], hnil⟩
        · exact ⟨true, by simp [childOf, hx'], hnil⟩
      obtain ⟨b, hb, hnil⟩ := hb
      have hge : leaves.length ≤ j := by
        by_contra hn
        have hk := (kind_leaf_of_lt hs hr hl (i := BitVec.ofNat 9 j) (by omega)).2
        exact absurd (hk.symm.trans (hx' ▸ hxk)) (by decide)
      have hlt' : i.toNat < j := by
        obtain ⟨_, _, h1, h2, _⟩ := hs.internal _ _ hge hj
        cases b with
        | false => rw [hx'] at h1; rw [← hb]; exact h1
        | true =>
          rcases h2 with e | e
          · rw [hx'] at e; exact absurd (hb.symm.trans e) hnil
          · rw [hx'] at e; rw [← hb]; exact e
      obtain ⟨p, hp⟩ := ih (nodes.length - j) (by omega) (BitVec.ofNat 9 j) (by omega) (by omega)
      exact ⟨p ++ [b], pathTo_append hp ⟨hx' ▸ hxk, by rw [hb]; exact hnil, hb⟩⟩

end Finished

end Sys2Proof.Machine
end

