-- ==== Sys2Proof/Laws/Packer.lean ====
section
/-! SUPPORT. The bit packer appends bits to the stream, MSB first (44_encode R250, R254, R257). -/

namespace Sys2Proof.Machine

/-- The bits that are in the packer: the bytes it emitted, then the partial byte. -/
def Packer.stream (p : Packer) : List Bool := bytesBits p.emitted ++ (byteBits p.pacc).take p.pfill.toNat

/-- The free bits of the partial byte are 0 (R58, R61). -/
def Packer.clean (p : Packer) : Prop := ∀ k < 8 - p.pfill.toNat, p.pacc.getLsbD k = false

theorem byteBits_length (b : Byte) : (byteBits b).length = 8 := rfl

theorem bytesBits_append (a b : List Byte) : bytesBits (a ++ b) = bytesBits a ++ bytesBits b := by
  simp [bytesBits]

theorem bytesBits_length (l : List Byte) : (bytesBits l).length = 8 * l.length := by
  induction l with
  | nil => rfl
  | cons a l ih =>
    rw [show a :: l = [a] ++ l from rfl, bytesBits_append, List.length_append, ih]
    simp [bytesBits, byteBits_length]; omega

theorem getLsbD_setBit (v : Byte) (k j : Nat) (b : Bool) (hk : k < 8) :
    (setBit v k b).getLsbD j = if j = k then b else v.getLsbD j := by
  by_cases hj : j < 8
  · cases b <;> simp only [setBit, Bool.false_eq_true, if_false, if_true, BitVec.getLsbD_or, BitVec.getLsbD_and,
      BitVec.getLsbD_not, BitVec.getLsbD_shiftLeft, BitVec.getLsbD_one]
    all_goals
      by_cases h : j = k
      · subst h; simp [hj]
      · have : ¬ (j - k = 0 ∧ ¬ j < k) := by omega
        by_cases hlt : j < k <;> simp_all
  · have h1 : ∀ w : Byte, w.getLsbD j = false := fun w => BitVec.getLsbD_of_ge w j (by omega)
    rw [h1, h1, if_neg (by omega)]

theorem putBit_clean {p : Packer} (h : p.clean) (b : Bool) : (p.putBit b).clean := by
  intro k hk
  have hf := p.pfill.isLt
  unfold Packer.putBit at hk ⊢
  by_cases h8 : p.pfill.toNat + 1 = 8
  · simp [h8]
  · simp only [h8, if_false] at hk ⊢
    have hadd : (p.pfill + 1#3).toNat = p.pfill.toNat + 1 := by
      rw [BitVec.toNat_add]; simp; omega
    rw [hadd] at hk
    rw [getLsbD_setBit _ _ _ _ (by omega), if_neg (by omega)]
    exact h k (by omega)

theorem putBit_stream {p : Packer} (b : Bool) : (p.putBit b).stream = p.stream ++ [b] := by
  have hf := p.pfill.isLt
  unfold Packer.putBit Packer.stream
  have hbits : (byteBits (setBit p.pacc (7 - p.pfill.toNat) b)).take (p.pfill.toNat + 1) =
      (byteBits p.pacc).take p.pfill.toNat ++ [b] := by
    generalize p.pfill.toNat = f at *
    have h7 : f = 0 ∨ f = 1 ∨ f = 2 ∨ f = 3 ∨ f = 4 ∨ f = 5 ∨ f = 6 ∨ f = 7 := by omega
    rcases h7 with rfl | rfl | rfl | rfl | rfl | rfl | rfl | rfl <;>
      simp only [byteBits, bitPositions, List.map_cons, List.map_nil, List.take_succ_cons, List.take_zero,
        List.cons_append, List.nil_append, Nat.reduceAdd, Nat.reduceSub] <;>
      rw [List.cons.injEq] <;> simp [-BitVec.getLsbD_eq_getElem, getLsbD_setBit]
  by_cases h8 : p.pfill.toNat + 1 = 8
  · simp only [h8, if_true, bytesBits_append]
    rw [h8] at hbits
    have : (byteBits (setBit p.pacc (7 - p.pfill.toNat) b)).take 8 =
        byteBits (setBit p.pacc (7 - p.pfill.toNat) b) := List.take_of_length_le (by rw [byteBits_length])
    rw [this] at hbits
    simp only [bytesBits, List.flatMap_cons, List.flatMap_nil, List.append_nil, hbits]
    simp
  · have hadd : (p.pfill + 1#3).toNat = p.pfill.toNat + 1 := by
      rw [BitVec.toNat_add]; simp; omega
    simp only [h8, if_false, hadd, hbits, List.append_assoc]

theorem putBits_clean {p : Packer} (h : p.clean) (bits : List Bool) : (p.putBits bits).clean := by
  induction bits generalizing p with
  | nil => exact h
  | cons b bits ih => exact ih (putBit_clean h b)

/-- The bits of a code go to the end of the stream, in order (R251). -/
theorem putBits_stream (p : Packer) (bits : List Bool) : (p.putBits bits).stream = p.stream ++ bits := by
  induction bits generalizing p with
  | nil => simp [Packer.putBits]
  | cons b bits ih =>
    have := ih (p.putBit b)
    rw [putBit_stream, List.append_assoc] at this
    exact this

theorem stream_length (p : Packer) : p.stream.length = 8 * p.emitted.length + p.pfill.toNat := by
  have := p.pfill.isLt
  simp [Packer.stream, bytesBits_length, byteBits_length]; omega

theorem putBits_pfill (p : Packer) (bits : List Bool) :
    (p.putBits bits).pfill.toNat = (8 * p.emitted.length + p.pfill.toNat + bits.length) % 8 := by
  have h := congrArg List.length (putBits_stream p bits)
  rw [List.length_append, stream_length, stream_length] at h
  have := (p.putBits bits).pfill.isLt
  omega

/-- `ENCB` emits `floor((PFILL + len) / 8)` bytes (R252). -/
theorem putBits_emitted_length (p : Packer) (bits : List Bool) :
    (p.putBits bits).emitted.length = p.emitted.length + (p.pfill.toNat + bits.length) / 8 := by
  have h := congrArg List.length (putBits_stream p bits)
  rw [List.length_append, stream_length, stream_length] at h
  have := (p.putBits bits).pfill.isLt
  omega

/-- Two buffers with the same bits are equal. -/
theorem byteBits_inj {a b : Byte} (h : byteBits a = byteBits b) : a = b := by
  simp only [byteBits, bitPositions, List.map_cons, List.map_nil, List.cons.injEq, and_true] at h
  obtain ⟨h7, h6, h5, h4, h3, h2, h1, h0⟩ := h
  apply BitVec.eq_of_getLsbD_eq
  intro i hi
  have : i = 0 ∨ i = 1 ∨ i = 2 ∨ i = 3 ∨ i = 4 ∨ i = 5 ∨ i = 6 ∨ i = 7 := by omega
  rcases this with rfl | rfl | rfl | rfl | rfl | rfl | rfl | rfl <;> assumption

theorem bytesBits_inj {a b : List Byte} (h : bytesBits a = bytesBits b) : a = b := by
  induction a generalizing b with
  | nil =>
    cases b with
    | nil => rfl
    | cons y b => have := congrArg List.length h; simp [bytesBits_length] at this
  | cons x a ih =>
    cases b with
    | nil => have := congrArg List.length h; simp [bytesBits_length] at this
    | cons y b =>
      rw [show x :: a = [x] ++ a from rfl, show y :: b = [y] ++ b from rfl, bytesBits_append, bytesBits_append] at h
      have hx : bytesBits [x] = byteBits x := by simp [bytesBits]
      have hy : bytesBits [y] = byteBits y := by simp [bytesBits]
      rw [hx, hy] at h
      obtain ⟨h1, h2⟩ := List.append_inj h (by rw [byteBits_length, byteBits_length])
      rw [byteBits_inj h1, ih h2]

/-- A partial byte with its free bits 0 is its placed bits and zeros (R255). -/
theorem padBits (f : Nat) (pacc : Byte) (hlt : f < 8) (hcl : ∀ k < 8 - f, pacc.getLsbD k = false) :
    byteBits pacc = (byteBits pacc).take f ++ List.replicate (8 - f) false := by
  conv_lhs => rw [← List.take_append_drop f (byteBits pacc)]
  congr 1
  have h7 : f = 0 ∨ f = 1 ∨ f = 2 ∨ f = 3 ∨ f = 4 ∨ f = 5 ∨ f = 6 ∨ f = 7 := by omega
  rcases h7 with rfl | rfl | rfl | rfl | rfl | rfl | rfl | rfl <;>
    simp only [byteBits, bitPositions, List.map_cons, List.map_nil, List.drop_succ_cons, List.drop_zero,
      List.replicate] <;>
    simp only [Nat.reduceSub] at hcl <;> simp [-BitVec.getLsbD_eq_getElem, hcl]

/-! ### `pack` (R257) -/

/-- One group of `pack`: its eight bits, 0 past the end. -/
theorem fold_byte (bits : List Bool) :
    byteBits ((List.range 8).foldl (fun b j => setBit b (7 - j) (codeBit bits j)) 0#8) =
      (List.range 8).map (codeBit bits) := by
  have : ∀ b0 b1 b2 b3 b4 b5 b6 b7, byteBits (setBit (setBit (setBit (setBit (setBit (setBit (setBit (setBit 0#8
      7 b0) 6 b1) 5 b2) 4 b3) 3 b4) 2 b5) 1 b6) 0 b7) = [b0, b1, b2, b3, b4, b5, b6, b7] := by decide
  exact this _ _ _ _ _ _ _ _

/-- The bits of a packed sequence: the sequence, and zeros up to a whole byte. -/
theorem packGroups_bits (n : Nat) : ∀ bits : List Bool, bits.length ≤ n →
    bytesBits (packGroups n bits) =
      bits ++ List.replicate (8 * ((bits.length + 7) / 8) - bits.length) false := by
  induction n with
  | zero => intro bits h; have : bits = [] := List.length_eq_zero_iff.1 (by omega); subst this; rfl
  | succ n ih =>
    intro bits h
    unfold packGroups
    cases hb : bits.isEmpty
    · simp only [Bool.false_eq_true, if_false]
      have hpos : 0 < bits.length := by
        rcases bits with _ | ⟨a, l⟩
        · simp at hb
        · simp
      have ih := ih (bits.drop 8) (by simp; omega)
      rw [show ∀ (x : Byte) l, bytesBits (x :: l) = byteBits x ++ bytesBits l from
        fun x l => by simp [bytesBits], fold_byte, ih]
      by_cases h8 : 8 ≤ bits.length
      · have e1 : (List.range 8).map (codeBit bits) = bits.take 8 := by
          apply List.ext_getElem
          · simp; omega
          · intro i h1 h2
            simp at h1
            simp [codeBit, List.getElem?_eq_getElem (show i < bits.length by omega)]
        rw [e1, ← List.append_assoc, List.take_append_drop]
        congr 1
        congr 1
        simp; omega
      · have e2 : bits.drop 8 = [] := List.drop_eq_nil_iff.2 (by omega)
        rw [e2]
        simp only [List.length_nil, List.nil_append]
        have e3 : 8 * ((bits.length + 7) / 8) - bits.length = 8 - bits.length := by omega
        rw [e3]
        show _ ++ [] = _
        rw [List.append_nil]
        apply List.ext_getElem
        · simp; omega
        · intro i h1 h2
          simp at h1
          by_cases hi : i < bits.length
          · simp [codeBit, hi]
          · rw [List.getElem_append_right (by omega)]; simp [codeBit, hi]
    · simp only [if_true]
      have : bits = [] := List.isEmpty_iff.1 hb
      subst this; rfl

end Sys2Proof.Machine
end

