-- ==== Sys2Proof/Laws/Walk.lean ====
section
/-! SUPPORT. What DECB's loop over the bits of a byte does: the walk over the declared bits among them (45_decode R270,
R271, R273, R274). -/

namespace Sys2Proof.Machine

theorem decodeBits_append {nd : NodeIdx → NodeRec} {root i j : NodeIdx} {p : List Bool} {out : List Byte}
    (h : decodeBits nd root i p = some (j, out)) (q : List Bool) :
    decodeBits nd root i (p ++ q) = (decodeBits nd root j q).map fun r => (r.1, out ++ r.2) := by
  induction p generalizing i out with
  | nil =>
    simp only [decodeBits, Option.some.injEq, Prod.mk.injEq] at h
    obtain ⟨rfl, rfl⟩ := h
    simp
  | cons b p ih =>
    simp only [List.cons_append, decodeBits] at h ⊢
    split at h
    · simp at h
    · rename_i hc
      simp only [hc, if_false]
      cases hk : (nd (childOf nd i b)).kind with
      | leaf =>
        simp only [hk, Option.map_eq_some_iff, Prod.mk.injEq] at h
        obtain ⟨r, hr, rfl, rfl⟩ := h
        rw [ih hr, Option.map_map]
        rfl
      | internal => simp only [hk] at h; exact ih h

/-- The bits DECB takes of a byte: from bit 7 down, while declared bits are left (R270, R274). -/
def takenBits (ps : List Nat) (b : Byte) (drem : Word) : List Bool := (ps.map b.getLsbD).take drem.toNat

/-- DECB's loop is the tree walk over the taken bits (R273). -/
theorem walkBits_eq (nd : NodeIdx → NodeRec) (root : NodeIdx) (b : Byte) (ps : List Nat) (w : Walk) :
    walkBits nd root b ps w =
      match decodeBits nd root w.dpos (takenBits ps b w.drem) with
      | none => .error .badCode
      | some (d, syms) => .ok ⟨d, w.drem - BitVec.ofNat 32 (takenBits ps b w.drem).length,
          w.dcount + BitVec.ofNat 32 syms.length, w.emitted ++ syms⟩ := by
  induction ps generalizing w with
  | nil => simp [walkBits, takenBits, decodeBits]
  | cons i ps ih =>
    by_cases h0 : w.drem = 0#32
    · obtain ⟨d, r, n, e⟩ := w
      subst h0
      simp [walkBits, takenBits, decodeBits]
    · have hpos : w.drem.toNat ≠ 0 := fun e => h0 (BitVec.eq_of_toNat_eq (by simpa using e))
      have hsub : (w.drem - 1#32).toNat = w.drem.toNat - 1 := by
        have := w.drem.isLt
        rw [BitVec.toNat_sub]; simp; omega
      have htake : takenBits (i :: ps) b w.drem = b.getLsbD i :: takenBits ps b (w.drem - 1#32) := by
        obtain ⟨n, hn⟩ := Nat.exists_eq_succ_of_ne_zero hpos
        simp [takenBits, hsub, hn]
      have hlen : ∀ x : Word, x - 1#32 - BitVec.ofNat 32 (takenBits ps b (w.drem - 1#32)).length =
          x - BitVec.ofNat 32 ((takenBits ps b (w.drem - 1#32)).length + 1) := by
        intro x
        rw [BitVec.ofNat_add, BitVec.sub_sub, BitVec.add_comm]
      simp only [walkBits, h0, if_false, htake, decodeBits, walkStep, childOf, List.length_cons]
      by_cases hc : (if b.getLsbD i = true then (nd w.dpos).right else (nd w.dpos).left) = NIL
      · simp [hc]
      · simp only [hc, if_false]
        cases hk : (nd (if b.getLsbD i = true then (nd w.dpos).right else (nd w.dpos).left)).kind with
        | leaf =>
          simp only [ih]
          cases hd : decodeBits nd root root (takenBits ps b (w.drem - 1#32)) with
          | none => simp
          | some r =>
            simp only [Option.map_some, hlen, List.length_cons, List.append_assoc, List.singleton_append]
            have hc1 : w.dcount + 1#32 + BitVec.ofNat 32 r.2.length = w.dcount + BitVec.ofNat 32 (r.2.length + 1) := by
              rw [BitVec.ofNat_add, BitVec.add_assoc, BitVec.add_comm 1#32]
            rw [hc1]
        | internal =>
          simp only [ih]
          cases hd : decodeBits nd root (if b.getLsbD i = true then (nd w.dpos).right else (nd w.dpos).left)
              (takenBits ps b (w.drem - 1#32)) with
          | none => simp
          | some r => simp only [hlen]

end Sys2Proof.Machine
end

