-- ==== Sys2Proof/Laws/Invariant.lean ====
section
/-! SUPPORT. The invariants of 10_state R61: what they rest on, and what they say of the tree and of the code table. -/

namespace Sys2Proof.Machine

/-! ### Frames -/

theorem sameBut_refl (l : List Part) (s : State) : SameBut l s s := by
  intro p _; cases p <;> rfl

theorem sameBut_mono {l l' : List Part} {s t : State} (h : SameBut l s t) (hl : ∀ p ∈ l, p ∈ l') : SameBut l' s t :=
  fun p hp => h p fun e => hp (hl p e)

theorem sameBut_done (s : State) : SameBut [.pend] s s.done := by
  intro p hp; cases p <;> first | rfl | exact absurd (by simp) hp

theorem sameBut_fail (s : State) (e : ErrCode) : SameBut [.err, .out, .pend] s (s.fail e) := by
  intro p hp; cases p <;> first | rfl | exact absurd (by simp) hp

/-! ### The fields the invariants rest on -/

/-- The fields of which the invariants say nothing. -/
def idleParts : List Part := [.pend, .arg, .res0, .res1, .lost, .bitcnt, .host, .sched, .draws]

/-- The invariants are about the other fields only. -/
theorem inv_congr {s t : State} (h : SameBut idleParts s t) (hi : Inv s) : Inv t := by
  have hf := freqAt_congr (s := s) (t := t) (h .freq (by decide))
  have hn := nodeAt_congr (s := s) (t := t) (h .node (by decide))
  have h1 : t.total = s.total := h .total (by decide)
  have h2 : t.nsym = s.nsym := h .nsym (by decide)
  have h3 : t.tv = s.tv := h .tv (by decide)
  have h4 : t.cv = s.cv := h .cv (by decide)
  have h5 : t.da = s.da := h .da (by decide)
  have h6 : t.err = s.err := h .err (by decide)
  have h7 : t.node = s.node := h .node (by decide)
  have h8 : t.root = s.root := h .root (by decide)
  have h9 : t.ncount = s.ncount := h .ncount (by decide)
  have h10 : t.code = s.code := h .code (by decide)
  have h11 : t.out = s.out := h .out (by decide)
  have h12 : t.pacc = s.pacc := h .pacc (by decide)
  have h13 : t.pfill = s.pfill := h .pfill (by decide)
  have h14 : t.ebits = s.ebits := h .ebits (by decide)
  have h15 : t.drem = s.drem := h .drem (by decide)
  have h16 : t.dcount = s.dcount := h .dcount (by decide)
  have h17 : t.dpos = s.dpos := h .dpos (by decide)
  have h18 : t.config = s.config := h .config (by decide)
  unfold Inv InvTotal InvNsym InvPhase InvNoTree InvTree InvCode InvPacker InvWalk InvQueue InvError
    InvDecodeCount at hi ⊢
  rw [hf, hn, h1, h2, h3, h4, h5, h6, h7, h8, h9, h10, h11, h12, h13, h14, h15, h16, h17, h18]
  exact hi

theorem inv_done {s : State} (h : Inv s) : Inv s.done :=
  inv_congr (sameBut_mono (sameBut_done s) (by decide)) h

theorem inv_fail {s : State} (h : Inv s) (e : ErrCode) : Inv (s.fail e) := by
  obtain ⟨a, b, c, d, f, g, i, j, k, l, m⟩ := h
  exact ⟨a, b, c, d, f, g, i, j, Nat.zero_le _, fun _ => rfl, m⟩

/-- Taking bytes from the queue keeps the invariants (R40, R59). -/
theorem inv_out {s : State} (h : Inv s) {out : List Byte} (hl : out.length ≤ s.out.length) :
    Inv { s with out := out } := by
  obtain ⟨a, b, c, d, f, g, i, j, k, l, m⟩ := h
  refine ⟨a, b, c, d, f, g, i, j, Nat.le_trans hl k, fun he => ?_, m⟩
  have : s.out = [] := l he
  exact List.length_eq_zero_iff.1 (by simpa [this] using hl)

/-! ### The tree under the invariants -/

/-- The tree of a state with `TV = 1`: its shape over the leaves of the table, and its size. -/
structure TreeOf (s : State) : Prop where
  shape : TreeShape (leafNodes s.freqAt) s.node
  leaves_length : (leafNodes s.freqAt).length = s.nsym.toNat
  length_eq : s.node.length = s.ncount.toNat
  root_eq : s.root.toNat = s.node.length - 1
  nsym_pos : 1 ≤ s.nsym.toNat
  nsym_le : s.nsym.toNat ≤ 256
  size : s.node.length = if s.nsym.toNat = 1 then 2 else 2 * s.nsym.toNat - 1
  node_eq : s.node = treeNodes s.freqAt

theorem freqSum_le_of_inv {s : State} (h : Inv s) : freqSum s.freqAt ≤ maxCount := by
  have h1 : s.total.toNat = freqSum s.freqAt := h.1
  have := s.total.isLt
  unfold maxCount
  omega

theorem tree_of_inv {s : State} (h : Inv s) (ht : s.tv = true) : TreeOf s := by
  have hs := freqSum_le_of_inv h
  have h2 : s.nsym.toNat = entryCount s.freqAt := h.2.1
  obtain ⟨g1, g2, g3, g4⟩ := h.2.2.2.2.1 ht
  have hle := entryCount_le s.freqAt
  have hl := leafNodes_length s.freqAt
  have hsh : TreeShape (leafNodes s.freqAt) s.node := by
    rw [g4]; exact treeNodes_shape hs (by omega)
  have hlen := hsh.length_eq
  rw [hl, ← h2] at hlen
  exact ⟨hsh, by omega, by omega, by omega, g1, by omega, hlen, g4⟩

variable {s : State}

theorem TreeOf.length_pos (h : TreeOf s) : 2 ≤ s.node.length ∧ s.node.length ≤ 511 := by
  have h1 := h.size
  have h2 := h.nsym_pos
  have h3 := h.nsym_le
  split at h1 <;> omega

theorem TreeOf.root_lt (h : TreeOf s) : s.root.toNat < s.node.length := by
  have h1 := h.length_pos
  have h2 := h.root_eq
  omega

theorem TreeOf.leaf (h : TreeOf s) {i : NodeIdx} (hi : i.toNat < s.nsym.toNat) :
    (leafNodes s.freqAt)[i.toNat]? = some (s.nodeAt i) ∧ (s.nodeAt i).kind = .leaf :=
  kind_leaf_of_lt h.shape (reads_nodeAt s) leafNodes_kind (by rw [h.leaves_length]; exact hi)

theorem TreeOf.internal (h : TreeOf s) {i : NodeIdx} (hi : s.nsym.toNat ≤ i.toNat) (hlt : i.toNat < s.node.length) :
    (s.nodeAt i).kind = .internal :=
  kind_internal_of_le h.shape (reads_nodeAt s) (by rw [h.leaves_length]; exact hi) hlt

theorem TreeOf.nsym_lt (h : TreeOf s) : s.nsym.toNat < s.node.length := by
  have h1 := h.size
  have h2 := h.nsym_pos
  split at h1 <;> omega

theorem TreeOf.root_internal (h : TreeOf s) : (s.nodeAt s.root).kind = .internal := by
  refine h.internal ?_ h.root_lt
  have := h.root_eq
  have := h.nsym_lt
  omega

theorem TreeOf.internal_iff (h : TreeOf s) {i : NodeIdx} (hlt : i.toNat < s.node.length) :
    (s.nodeAt i).kind = .internal ↔ s.nsym.toNat ≤ i.toNat := by
  constructor
  · intro hk
    by_contra hn
    exact absurd ((h.leaf (by omega)).2.symm.trans hk) (by decide)
  · exact fun hi => h.internal hi hlt

theorem TreeOf.child_lt (h : TreeOf s) {i : NodeIdx} (hlt : i.toNat < s.node.length)
    (hk : (s.nodeAt i).kind = .internal) {b : Bool} (hc : childOf s.nodeAt i b ≠ NIL) :
    (childOf s.nodeAt i b).toNat < i.toNat :=
  Machine.child_lt h.shape (reads_nodeAt s) leafNodes_kind hlt hk hc

/-- A missing child is the right child of the single-symbol wrapper (R203, R205). -/
theorem TreeOf.child_nil (h : TreeOf s) {i : NodeIdx} (hlt : i.toNat < s.node.length)
    (hk : (s.nodeAt i).kind = .internal) {b : Bool} :
    childOf s.nodeAt i b = NIL ↔ s.nsym.toNat = 1 ∧ b = true := by
  have hge := (h.internal_iff hlt).1 hk
  obtain ⟨_, _, h1, h2, h3⟩ := h.shape.internal _ _ (by rw [h.leaves_length]; exact hge) (reads_nodeAt s i hlt)
  have hleft : (s.nodeAt i).left ≠ NIL := by
    intro e
    rw [e] at h1
    have := h.length_pos
    simp only [NIL, BitVec.toNat_ofNat] at h1
    omega
  cases b with
  | false => simpa [childOf] using hleft
  | true =>
    simp only [childOf, if_true, and_true]
    constructor
    · intro e
      by_contra hn
      exact h3 (by have := h.nsym_pos; rw [h.leaves_length]; omega) e
    · intro h1'
      rcases h2 with e | e
      · exact e
      · -- the wrapper: nodes 0 and 1 only
        exfalso
        have hsz := h.size
        rw [if_pos h1'] at hsz
        obtain ⟨leaf, hleaf⟩ := List.length_eq_one_iff.1 (h.leaves_length.trans h1')
        have hnode : s.node = wrapNodes leaf := by rw [h.node_eq, treeNodes, hleaf]
        have hi : i.toNat = 1 := by omega
        have := reads_nodeAt s i hlt
        rw [hnode, hi] at this
        simp only [wrapNodes, List.getElem?_cons_succ, List.getElem?_cons_zero, Option.some.injEq] at this
        rw [← this, hi] at e
        simp [NIL] at e

/-- A path of the tree stays within the nodes in use, and its length is bounded by the indices it passes. -/
theorem TreeOf.path_lt (h : TreeOf s) {i j : NodeIdx} {p : List Bool} (hlt : i.toNat < s.node.length)
    (hp : pathTo s.nodeAt i p j) : j.toNat + p.length ≤ i.toNat := by
  induction p generalizing i with
  | nil => cases hp; simp
  | cons b p ih =>
    have hc := h.child_lt hlt hp.1 hp.2.1
    have := ih (by omega) hp.2.2
    simp only [List.length_cons]
    omega

theorem TreeOf.reaches (h : TreeOf s) {i : NodeIdx} (hlt : i.toNat < s.node.length) :
    ∃ p, pathTo s.nodeAt s.root p i :=
  root_reaches h.shape (reads_nodeAt s) leafNodes_kind h.length_pos.2 s.root h.root_eq i hlt

/-- A child has one parent and is on one side of it (R210). -/
theorem TreeOf.parent_unique (h : TreeOf s) {i j : NodeIdx} {a b : Bool} (hi : i.toNat < s.node.length)
    (hj : j.toNat < s.node.length) (hki : (s.nodeAt i).kind = .internal) (hkj : (s.nodeAt j).kind = .internal)
    (hc : childOf s.nodeAt i a ≠ NIL) (he : childOf s.nodeAt i a = childOf s.nodeAt j b) : i = j ∧ a = b := by
  have hn : (refs s.node).Nodup := (List.nodup_cons.1 (h.shape.once.nodup_iff.2 List.nodup_range)).2
  rw [refs, List.nodup_flatMap] at hn
  obtain ⟨hn1, hn2⟩ := hn
  have mem : ∀ (k : NodeIdx) (c : Bool), (s.nodeAt k).kind = .internal → childOf s.nodeAt k c ≠ NIL →
      (childOf s.nodeAt k c).toNat ∈ childrenOf (s.nodeAt k) := by
    intro k c hk hne
    simp only [childrenOf, hk, List.mem_map, List.mem_filter, decide_eq_true_eq]
    refine ⟨childOf s.nodeAt k c, ⟨?_, hne⟩, rfl⟩
    cases c <;> simp [childOf]
  have hij : i = j := by
    by_contra hne
    have gi := (List.getElem?_eq_some_iff.1 (reads_nodeAt s i hi)).2
    have gj := (List.getElem?_eq_some_iff.1 (reads_nodeAt s j hj)).2
    have hnat : i.toNat ≠ j.toNat := fun e => hne (BitVec.eq_of_toNat_eq e)
    have m1 := mem i a hki hc
    have m2 := mem j b hkj (he ▸ hc)
    rw [← he] at m2
    rw [List.pairwise_iff_getElem] at hn2
    rcases Nat.lt_or_gt_of_ne hnat with hlt | hlt
    · have := hn2 i.toNat j.toNat hi hj hlt
      rw [Function.onFun, gi, gj] at this
      exact this m1 m2
    · have := hn2 j.toNat i.toNat hj hi hlt
      rw [Function.onFun, gi, gj] at this
      exact this m2 m1
  subst hij
  refine ⟨rfl, ?_⟩
  by_contra hne
  have hm := hn1 (s.nodeAt i) (List.mem_of_getElem? (reads_nodeAt s i hi))
  have hlr : (s.nodeAt i).left = (s.nodeAt i).right := by cases a <;> cases b <;> simp_all [childOf]
  have hnil : (s.nodeAt i).left ≠ NIL := by cases a <;> simp_all [childOf]
  have hnil' : (s.nodeAt i).right ≠ NIL := by rw [← hlr]; exact hnil
  simp only [childrenOf, hki, List.filter_cons, hnil', hlr, ne_eq, not_false_eq_true, decide_true, if_true, List.filter_nil,
    List.map_cons, List.map_nil] at hm
  simp at hm

/-- One path leads from the root to a node (R210). -/
theorem TreeOf.path_unique (h : TreeOf s) {i : NodeIdx} {p q : List Bool} (hp : pathTo s.nodeAt s.root p i)
    (hq : pathTo s.nodeAt s.root q i) : p = q := by
  induction p using List.reverseRecOn generalizing q i with
  | nil =>
    cases hp
    have := h.path_lt h.root_lt hq
    exact (List.length_eq_zero_iff.1 (by omega)).symm
  | append_singleton p a ih =>
    obtain ⟨j, h1, h2⟩ := pathTo_split hp
    obtain ⟨hk, hc, rfl⟩ := h2
    rcases List.eq_nil_or_concat q with rfl | ⟨q, b, rfl⟩
    · have := h.path_lt h.root_lt hp
      rw [← show s.root = childOf s.nodeAt j a from hq] at this
      simp only [List.length_append, List.length_singleton] at this
      omega
    · rw [List.concat_eq_append] at hq ⊢
      obtain ⟨j', g1, g2⟩ := pathTo_split hq
      obtain ⟨gk, gc, ge⟩ := g2
      have l1 := h.path_lt h.root_lt h1
      have l2 := h.path_lt h.root_lt g1
      have hr := h.root_lt
      obtain ⟨rfl, rfl⟩ := h.parent_unique (by omega) (by omega) hk gk hc ge.symm
      rw [ih h1 g1]

/-- The leaf of a symbol with an entry (R202). -/
theorem TreeOf.leaf_of_symbol (h : TreeOf s) {c : Byte} (hc : s.freqAt c ≠ 0#32) :
    ∃ j : NodeIdx, j.toNat < s.nsym.toNat ∧ (s.nodeAt j).kind = .leaf ∧ (s.nodeAt j).sym = c := by
  obtain ⟨n, hn⟩ := List.mem_iff_getElem?.1 (mem_leafNodes.2 ⟨c, hc, rfl⟩)
  have hl := (List.getElem?_eq_some_iff.1 hn).1
  rw [h.leaves_length] at hl
  have hle := h.nsym_le
  have ht : (BitVec.ofNat 9 n).toNat = n := ofNat9_toNat (by omega)
  obtain ⟨h1, h2⟩ := h.leaf (i := BitVec.ofNat 9 n) (by omega)
  rw [ht, hn] at h1
  refine ⟨BitVec.ofNat 9 n, by omega, h2, ?_⟩
  rw [← Option.some.inj h1]
  rfl

/-- The symbol of a leaf has an entry, and the leaf is the only one with that symbol (R202). -/
theorem TreeOf.symbol_of_leaf (h : TreeOf s) {i : NodeIdx} (hi : i.toNat < s.nsym.toNat) :
    s.freqAt (s.nodeAt i).sym ≠ 0#32 := by
  obtain ⟨c, hc, he⟩ := mem_leafNodes.1 (List.mem_of_getElem? (h.leaf hi).1)
  rw [he]
  exact hc

theorem TreeOf.leaf_unique (h : TreeOf s) {i j : NodeIdx} (hi : i.toNat < s.nsym.toNat) (hj : j.toNat < s.nsym.toNat)
    (he : (s.nodeAt i).sym = (s.nodeAt j).sym) : i = j := by
  have hn := leafNodes_sym_nodup s.freqAt
  have h1 := (h.leaf hi).1
  have h2 := (h.leaf hj).1
  have hl := h.leaves_length
  have hli : i.toNat < ((leafNodes s.freqAt).map NodeRec.sym).length := by rw [List.length_map]; omega
  have hlj : j.toNat < ((leafNodes s.freqAt).map NodeRec.sym).length := by rw [List.length_map]; omega
  apply BitVec.eq_of_toNat_eq
  refine (hn.getElem_inj_iff (hi := hli) (hj := hlj)).1 ?_
  simp only [List.getElem_map]
  rw [(List.getElem?_eq_some_iff.1 h1).2, (List.getElem?_eq_some_iff.1 h2).2, he]

/-! ### The walk under the invariants -/

/-- A walk over bits from an internal node in use ends at one. -/
theorem TreeOf.walk_end (h : TreeOf s) {i j : NodeIdx} {bits : List Bool} {syms : List Byte}
    (hlt : i.toNat < s.node.length) (hk : (s.nodeAt i).kind = .internal)
    (hd : decodeBits s.nodeAt s.root i bits = some (j, syms)) :
    j.toNat < s.node.length ∧ (s.nodeAt j).kind = .internal ∧ syms.length ≤ bits.length := by
  induction bits generalizing i syms with
  | nil =>
    simp only [decodeBits, Option.some.injEq, Prod.mk.injEq] at hd
    obtain ⟨rfl, rfl⟩ := hd
    exact ⟨hlt, hk, Nat.le_refl _⟩
  | cons b bits ih =>
    simp only [decodeBits] at hd
    split at hd
    · simp at hd
    · rename_i hc
      have hcl := h.child_lt hlt hk hc
      cases hck : (s.nodeAt (childOf s.nodeAt i b)).kind with
      | leaf =>
        simp only [hck, Option.map_eq_some_iff, Prod.mk.injEq] at hd
        obtain ⟨r, hr, rfl, rfl⟩ := hd
        have := ih h.root_lt h.root_internal hr
        exact ⟨this.1, this.2.1, by simpa using this.2.2⟩
      | internal =>
        simp only [hck] at hd
        have := ih (by omega) hck hd
        exact ⟨this.1, this.2.1, by simp only [List.length_cons]; omega⟩

/-! ### The code table under the invariants -/

/-- GENCODE's table of a valid tree: a symbol with an entry has the path to its leaf, of 1 to 255 steps, and every
other symbol has none (R230, R232). -/
theorem TreeOf.code (h : TreeOf s) (c : Byte) :
    (s.freqAt c ≠ 0#32 → ∃ q j, (codeTableOf s.nodeAt s.root)[c.toNat]'c.isLt = some ⟨q⟩ ∧
      pathTo s.nodeAt s.root q j ∧ (s.nodeAt j).kind = .leaf ∧ (s.nodeAt j).sym = c ∧ 1 ≤ q.length ∧ q.length ≤ 255) ∧
    (s.freqAt c = 0#32 → (codeTableOf s.nodeAt s.root)[c.toNat]'c.isLt = some ⟨[]⟩) := by
  have hv : (visit s.nodeAt maxLevels s.root [] noCodes).isSome = true := by
    refine visit_isSome h.shape (reads_nodeAt s) leafNodes_kind _ _ _ _ h.root_lt (.inl ⟨?_, ?_⟩)
    · rw [h.leaves_length]; exact (h.internal_iff h.root_lt).1 h.root_internal
    · rw [h.leaves_length]
      have h1 := h.size
      have h2 := h.root_eq
      have h3 := h.nsym_le
      have h4 := h.nsym_pos
      simp only [maxLevels]
      split at h1 <;> omega
  obtain ⟨t, ht⟩ := Option.isSome_iff_exists.1 hv
  have hct : codeTableOf s.nodeAt s.root = t := by simp [codeTableOf, ht]
  have hno : noCodes[c.toNat]'c.isLt = some ⟨[]⟩ := by simp [noCodes]
  rw [hct]
  constructor
  · intro hc
    obtain ⟨j, hj, hjk, hjs⟩ := h.leaf_of_symbol hc
    obtain ⟨p, hp⟩ := h.reaches (i := j) (by have := h.nsym_lt; omega)
    obtain ⟨q, j', a1, a2, a3, a4, a5⟩ := visit_complete ht hp hjk
    subst hjs
    refine ⟨q, j', by simpa using a5, a1, a2, a3, ?_, by simp only [maxLevels] at a4; omega⟩
    cases q with
    | nil =>
      cases a1
      exact absurd (h.root_internal.symm.trans a2) (by decide)
    | cons b q => simp
  · intro hc
    rcases visit_sound ht c with e | ⟨q, j, a1, a2, a3, _, _⟩
    · exact e.trans hno
    · exfalso
      have hj := h.path_lt h.root_lt a1
      have hlt : j.toNat < s.node.length := by have := h.root_lt; omega
      have : j.toNat < s.nsym.toNat := by
        by_contra hn
        exact absurd ((h.internal (by omega) hlt).symm.trans a2) (by decide)
      have := h.symbol_of_leaf this
      rw [a3] at this
      exact this hc

end Sys2Proof.Machine
end

