-- ==== Sys2Proof/Laws/Body.lean ====
section
/-! SUPPORT. What the own pseudocode of a gated command can answer: which errors (60_exceptions R321-R326), and which
fields it writes (40_command_model R155, R161). -/

namespace Sys2Proof.Machine

/-- A body that succeeds leaves ERR as it is. -/
theorem body_err {i : Instr} {s u : State} {o : List Byte} (h : gatedBody i s = .ok (u, o)) : u.err = s.err := by
  cases i <;>
    simp only [gatedBody, countBody, loadfBody, buildBody, gencodeBody, encbBody, encendBody, decstartBody, decbBody,
      decendBody] at h <;>
    (repeat' split at h) <;> simp only [Except.ok.injEq, Prod.mk.injEq, reduceCtorEq] at h <;> obtain ⟨rfl, rfl⟩ := h <;>
    rfl

/-- The errors a command's own checks raise. -/
def ownErrors : Instr → List ErrCode
  | .count _ | .loadf _ => [.overflow]
  | .build => [.emptyInput]
  | .encb _ => [.unknownSymbol, .overflow]
  | .decb _ => [.badCode]
  | .decend => [.truncatedStream]
  | .nop | .clear | .gencode | .encend | .decstart | .rdfreq _ | .rdcode _ | .rdnode => []

theorem body_error {i : Instr} {s : State} {e : ErrCode} (h : gatedBody i s = .error e) : e ∈ ownErrors i := by
  cases i with
  | decb b =>
    simp only [gatedBody, decbBody, walkBits_eq] at h
    cases hd : decodeBits s.nodeAt s.root s.walk.dpos (takenBits bitPositions b s.walk.drem) with
    | none => rw [hd] at h; cases h; simp [ownErrors]
    | some r => rw [hd] at h; cases h
  | _ =>
    simp only [gatedBody, countBody, loadfBody, buildBody, gencodeBody, encbBody, encendBody, decstartBody,
      decendBody] at h
    (repeat' split at h) <;> simp only [Except.error.injEq, reduceCtorEq] at h <;> subst h <;> simp [ownErrors]

theorem ownErrors_spec {i : Instr} {e : ErrCode} (h : e ∈ ownErrors i) :
    e ≠ .none ∧ e ≠ .sequence ∧ e ≠ .illegalCmd := by
  cases i <;> simp only [ownErrors, List.mem_cons, List.not_mem_nil, or_false] at h <;>
    (try rcases h with rfl | rfl) <;> decide

/-- A body that succeeds writes only what its rule lists; OUT is written by the commit alone. -/
theorem body_frame {i : Instr} {s u : State} {o : List Byte} (hp : passesGate i = false)
    (h : gatedBody i s = .ok (u, o)) :
    SameBut (writesOf i) s u ∧ u.out = s.out ∧ u.pend = s.pend ∧ (.out ∉ writesOf i → o = []) := by
  cases i <;> simp only [passesGate, Bool.true_eq_false] at hp <;>
    simp only [gatedBody, countBody, loadfBody, buildBody, gencodeBody, encbBody, encendBody, decstartBody, decbBody,
      decendBody] at h <;>
    (repeat' split at h) <;> simp only [Except.ok.injEq, Prod.mk.injEq, reduceCtorEq] at h <;>
    obtain ⟨rfl, rfl⟩ := h <;> refine ⟨fun p hp => ?_, rfl, rfl, fun hx => ?_⟩ <;>
    first
      | rfl
      | exact absurd (by simp [writesOf]) hx
      | (cases p <;> first | rfl | exact absurd (by simp [writesOf]) hp)

/-- The fields a gated perform may change, besides the failing case (R154, R155, R157). -/
theorem performGated_frame {i : Instr} (hp : passesGate i = false) (s : State) (ok : Bool) :
    SameBut (.pend :: writesOf i) s (s.performGated ok (gatedBody i s)) ∨
      (s.err = .none ∧ ∃ e, e ≠ .none ∧ s.performGated ok (gatedBody i s) = s.fail e) := by
  rcases performGated_cases s ok (gatedBody i s) with
    ⟨_, e⟩ | ⟨h0, _, e⟩ | ⟨h0, _, x, hb, e⟩ | ⟨_, _, u, outl, hb, _, e⟩ | ⟨_, _, _, _, _, _, e⟩
  · rw [e]; exact .inl (sameBut_mono (sameBut_done s) (by simp))
  · exact .inr ⟨h0, _, by decide, e⟩
  · exact .inr ⟨h0, x, (ownErrors_spec (body_error hb)).1, e⟩
  · rw [e]
    left
    obtain ⟨a, b, _, d⟩ := body_frame hp hb
    intro p hp
    simp only [List.mem_cons, not_or] at hp
    by_cases hpo : p = .out
    · subst hpo
      show u.out ++ outl = s.out
      rw [d hp.2, b, List.append_nil]
    · have := a p hp.2
      cases p <;> first | exact this | exact absurd rfl hp.1 | exact absurd rfl hpo
  · rw [e]; exact .inl (sameBut_refl _ _)

end Sys2Proof.Machine
end

