-- ==== Sys2Proof/Laws/PerInstr.lean ====
section
/-! SUPPORT. Statements made once per command about its encoding (30_encoding R120-R125). -/

namespace Sys2Proof.Laws.EncodedFormat

/-- The word of a command: RSV is 0 (R122), OPC is the command's opcode and not a reserved one (R127), SYM is the
command's symbol (R121), and the command's row of the opcode map matches the word (R125). -/
def Statement (i : Instr) : Prop :=
  rsvField (encode i) = 0#16 ∧ opcField (encode i) = i.opc ∧ i.opc.toNat ≤ 0x0D ∧ symField (encode i) = i.sym ∧
    ∃ r ∈ opcodeRows, r.mnemonic = i.mnemonic ∧ r.matchesWord (encode i) = true

theorem rsv_encode (i : Instr) : rsvField (encode i) = 0#16 := by
  apply BitVec.eq_of_getLsbD_eq
  intro k hk
  have h : ¬ 16 + k < 8 := by omega
  have h' : ¬ 16 + k - 8 < 8 := by omega
  simp only [rsvField, encode, BitVec.getLsbD_extractLsb', BitVec.getLsbD_append, h, h', if_false, BitVec.getLsbD_zero,
    Bool.and_false]

theorem opc_encode (i : Instr) : opcField (encode i) = i.opc := by
  apply BitVec.eq_of_getLsbD_eq
  intro k hk
  simp only [opcField, encode, BitVec.getLsbD_extractLsb', BitVec.getLsbD_append, Nat.zero_add, hk, if_true, decide_true,
    Bool.true_and]

theorem sym_encode (i : Instr) : symField (encode i) = i.sym := by
  apply BitVec.eq_of_getLsbD_eq
  intro k hk
  have h : ¬ 8 + k < 8 := by omega
  simp only [symField, encode, BitVec.getLsbD_extractLsb', BitVec.getLsbD_append, h, if_false, Nat.add_sub_cancel_left,
    hk, if_true, decide_true, Bool.true_and]

/-- A form-S word keeps its opcode and its reserved bits under the mask of R125. -/
theorem masked_formS (c : Byte) (o : BitVec 8) : (0#16 ++ c ++ o) &&& maskS = 0#16 ++ 0#8 ++ o := by
  unfold maskS
  apply BitVec.eq_of_getLsbD_eq
  intro k hk
  have hm : (0xFFFF00FF#32).getLsbD k = !(decide (8 ≤ k) && decide (k < 16)) := by
    revert k
    decide
  rw [BitVec.getLsbD_and, hm]
  simp only [BitVec.getLsbD_append, BitVec.getLsbD_zero]
  by_cases h1 : k < 8
  · simp [h1]
  · by_cases h2 : k - 8 < 8
    · simp [h1, h2]; omega
    · simp [h1, h2]

/-- A form-S command: its row matches whatever its symbol is. -/
theorem formS (i : Instr) (r : OpcodeRow) (h : i.opc.toNat ≤ 0x0D) (hr : r ∈ opcodeRows) (hm : r.mnemonic = i.mnemonic)
    (hmask : r.mask = maskS) (hp : 0#16 ++ 0#8 ++ i.opc = r.pattern) : Statement i :=
  ⟨rsv_encode i, opc_encode i, h, sym_encode i, r, hr, hm, by
    simp [OpcodeRow.matchesWord, encode, hmask, ← hp, masked_formS]⟩

/-- A form-N command: its row is its whole word. -/
theorem formN (i : Instr) (r : OpcodeRow) (h : i.opc.toNat ≤ 0x0D) (hr : r ∈ opcodeRows) (hm : r.mnemonic = i.mnemonic)
    (hmask : r.mask = maskN) (hp : encode i = r.pattern) : Statement i :=
  ⟨rsv_encode i, opc_encode i, h, sym_encode i, r, hr, hm, by
    rw [OpcodeRow.matchesWord, hmask, hp, show maskN = BitVec.allOnes 32 by decide, BitVec.and_allOnes]
    exact beq_self_eq_true _⟩

theorem nop : Statement .nop :=
  formN _ ⟨"NOP", maskN, 0x00#32⟩ (by decide) (by decide) rfl rfl (by decide)
theorem clear : Statement .clear :=
  formN _ ⟨"CLEAR", maskN, 0x01#32⟩ (by decide) (by decide) rfl rfl (by decide)
theorem build : Statement .build :=
  formN _ ⟨"BUILD", maskN, 0x04#32⟩ (by decide) (by decide) rfl rfl (by decide)
theorem gencode : Statement .gencode :=
  formN _ ⟨"GENCODE", maskN, 0x05#32⟩ (by decide) (by decide) rfl rfl (by decide)
theorem encend : Statement .encend :=
  formN _ ⟨"ENCEND", maskN, 0x07#32⟩ (by decide) (by decide) rfl rfl (by decide)
theorem decstart : Statement .decstart :=
  formN _ ⟨"DECSTART", maskN, 0x08#32⟩ (by decide) (by decide) rfl rfl (by decide)
theorem decend : Statement .decend :=
  formN _ ⟨"DECEND", maskN, 0x0A#32⟩ (by decide) (by decide) rfl rfl (by decide)
theorem rdnode : Statement .rdnode :=
  formN _ ⟨"RDNODE", maskN, 0x0D#32⟩ (by decide) (by decide) rfl rfl (by decide)
theorem count (c : Byte) : Statement (.count c) :=
  formS _ ⟨"COUNT", maskS, 0x02#32⟩ (by simp [Instr.opc]) (by decide) rfl rfl (by simp [Instr.opc])
theorem loadf (c : Byte) : Statement (.loadf c) :=
  formS _ ⟨"LOADF", maskS, 0x03#32⟩ (by simp [Instr.opc]) (by decide) rfl rfl (by simp [Instr.opc])
theorem encb (c : Byte) : Statement (.encb c) :=
  formS _ ⟨"ENCB", maskS, 0x06#32⟩ (by simp [Instr.opc]) (by decide) rfl rfl (by simp [Instr.opc])
theorem decb (b : Byte) : Statement (.decb b) :=
  formS _ ⟨"DECB", maskS, 0x09#32⟩ (by simp [Instr.opc]) (by decide) rfl rfl (by simp [Instr.opc])
theorem rdfreq (c : Byte) : Statement (.rdfreq c) :=
  formS _ ⟨"RDFREQ", maskS, 0x0B#32⟩ (by simp [Instr.opc]) (by decide) rfl rfl (by simp [Instr.opc])
theorem rdcode (c : Byte) : Statement (.rdcode c) :=
  formS _ ⟨"RDCODE", maskS, 0x0C#32⟩ (by simp [Instr.opc]) (by decide) rfl rfl (by simp [Instr.opc])

end Sys2Proof.Laws.EncodedFormat
end

