-- ==== Sys2Proof/Laws/Step.lean ====
section
/-! SUPPORT. What one step can do: whose turn it is, what a host access can change, and what a turn of the engine is;
and that a reset event and CLEAR leave the clean entry of a run. -/

namespace Sys2Proof.Machine

/-! ### The host's turn -/

/-- What a read can do (R40, R88, R160): nothing but to pop the head of OUT or to count a draw. -/
theorem portRead_cases (idx : RegIdx) (s : State) :
    ∃ out draws, (portRead idx s).1 = { s with out := out, draws := draws } ∧ (out = s.out ∨ out = s.out.tail) := by
  unfold portRead
  split
  · exact ⟨s.out, s.draws + 1, rfl, .inl rfl⟩
  · cases Reg.ofIdx idx with
    | out => exact ⟨s.out.tail, s.draws, rfl, .inr rfl⟩
    | _ => exact ⟨s.out, s.draws, rfl, .inl rfl⟩

/-- What a write can do (R34, R86, R88, R151, R152). -/
theorem portWrite_cases (idx : RegIdx) (w : Word) (s : State) :
    portWrite idx w s = s ∨
    (idx = 1#4 ∧ w.getLsbD 0 = true ∧ portWrite idx w s = s.resetBlock) ∨
    (idx = 3#4 ∧ s.pend = none ∧ portWrite idx w s = { s with pend := some ⟨w, s.arg⟩ }) ∨
    (idx = 3#4 ∧ s.pend ≠ none ∧ portWrite idx w s = { s with lost := true }) ∨
    (idx = 4#4 ∧ portWrite idx w s = { s with arg := w }) := by
  have key : ∀ r : RegIdx, (Reg.ofIdx r = .ctrl → r = 1#4) ∧ (Reg.ofIdx r = .cmd → r = 3#4) ∧
      (Reg.ofIdx r = .arg → r = 4#4) := by decide
  obtain ⟨k1, k3, k4⟩ := key idx
  unfold portWrite
  split
  · rename_i h
    unfold State.writeCtrl
    split
    · exact .inr (.inl ⟨k1 h, by assumption, rfl⟩)
    · exact .inl rfl
  · rename_i h
    unfold State.issue
    split
    · exact .inr (.inr (.inl ⟨k3 h, by assumption, rfl⟩))
    · rename_i hp
      exact .inr (.inr (.inr (.inl ⟨k3 h, by simp [hp], rfl⟩)))
  · rename_i h
    exact .inr (.inr (.inr (.inr ⟨k4 h, rfl⟩)))
  all_goals exact .inl rfl

/-- All that one host access can do: a read, which may pop the head of OUT and count a draw, or a write. -/
theorem hostTurn_cases (s : State) :
    (∃ host out draws, hostTurn s = { s with host := host, out := out, draws := draws } ∧
      (out = s.out ∨ out = s.out.tail)) ∨
    (∃ idx w rest, s.host.prog = .wr idx w :: rest ∧ hostTurn s = (portWrite idx w s).withProg rest) := by
  have rd : ∀ idx : RegIdx, ∀ f : State → State, (∀ u : State, ∃ h, f u = { u with host := h }) →
      ∃ host out draws, f (portRead idx s).1 = { s with host := host, out := out, draws := draws } ∧
        (out = s.out ∨ out = s.out.tail) := by
    intro idx f hf
    obtain ⟨out, draws, he, ho⟩ := portRead_cases idx s
    obtain ⟨h, hh⟩ := hf (portRead idx s).1
    exact ⟨h, out, draws, by rw [hh, he], ho⟩
  unfold hostTurn
  split
  · exact .inl ⟨s.host, s.out, s.draws, rfl, .inl rfl⟩
  · exact .inr ⟨_, _, _, by assumption, rfl⟩
  · rename_i idx v rest _
    exact .inl (rd idx (fun u => (u.bindHostVar v (portRead idx s).2).withProg rest) fun u => ⟨_, rfl⟩)
  · rename_i rest _
    refine .inl ?_
    unfold pollAccess
    simp only []
    split
    · exact rd _ (fun u => u.withProg (.pollOut :: rest)) fun u => ⟨_, rfl⟩
    · split
      · exact rd _ (fun u => u.withProg (.poll :: rest)) fun u => ⟨_, rfl⟩
      · exact rd _ (fun u => u.withProg rest) fun u => ⟨_, rfl⟩
  · rename_i rest _
    exact .inl (rd _ (fun u => (u.pushHout ((portRead Reg.out.idx s).2.extractLsb' 0 8)).withProg (.poll :: rest))
      fun u => ⟨_, rfl⟩)
  · rename_i rest _
    refine .inl ?_
    unfold drainAccess
    simp only []
    split
    · exact rd _ (fun u => (u.pushHout ((portRead Reg.out.idx s).2.extractLsb' 0 8)).withProg (.drain :: rest))
        fun u => ⟨_, rfl⟩
    · exact rd _ (fun u => u.withProg rest) fun u => ⟨_, rfl⟩

/-! ### The engine's turn -/

theorem exec_next (i : Instr) (s : State) : ∃ t, exec i s = .next t := ⟨_, exec_eq i s⟩

theorem engineTurn_next (s : State) : ∃ t, engineTurn s = .next t := by
  unfold engineTurn
  split
  · exact ⟨_, rfl⟩
  · split
    · exact exec_next _ s
    · exact ⟨_, rfl⟩

/-- All that a turn of the engine can do (R150, R153, R154). -/
theorem engineTurn_cases {s t : State} (h : engineTurn s = .next t) :
    (s.pend = none ∧ t = s) ∨
    (∃ p i, s.pend = some p ∧ decode p.word = .ok i ∧ exec i s = .next t) ∨
    (∃ p e, s.pend = some p ∧ decode p.word = .error e ∧ t = performIllegal s) := by
  unfold engineTurn at h
  split at h
  · cases h
    exact .inl ⟨by assumption, rfl⟩
  · split at h
    · exact .inr (.inl ⟨_, _, by assumption, by assumption, h⟩)
    · cases h
      exact .inr (.inr ⟨_, _, by assumption, by assumption, rfl⟩)

/-! ### Whose turn it is -/

/-- All that a step can be (R91; log 4). -/
theorem step_cases {s t : State} (h : step s = .next t) :
    (∃ rest, s.sched = .engine :: rest ∧ engineTurn { s with sched := rest } = .next t) ∨
    (∃ rest, s.sched = .host :: rest ∧ t = hostTurn { s with sched := rest }) ∨
    (∃ rest, s.sched = .reset :: rest ∧ t = State.resetBlock { s with sched := rest }) ∨
    (s.sched = [] ∧ engineTurn s = .next t ∧ s.pend ≠ none ∧ t.pend = none) ∨
    (s.sched = [] ∧ t = hostTurn s) := by
  unfold step at h
  split at h
  · rename_i hs
    unfold defaultTurn at h
    split at h
    · rename_i u hu
      split at h
      · rename_i hb
        cases h
        simp only [State.busy, Bool.and_eq_true, Bool.not_eq_true', Option.isSome_eq_false_iff, Option.isNone_iff_eq_none] at hb
        refine .inr (.inr (.inr (.inl ⟨hs, hu, ?_, hb.2⟩)))
        intro e
        simp [e] at hb
      · cases h
        exact .inr (.inr (.inr (.inr ⟨hs, rfl⟩)))
    · simp at h
    · simp at h
  · rename_i turn rest hs
    cases turn with
    | engine => exact .inl ⟨rest, hs, h⟩
    | host => cases h; exact .inr (.inl ⟨rest, hs, rfl⟩)
    | reset => cases h; exact .inr (.inr (.inl ⟨rest, hs, rfl⟩))

theorem step_next (s : State) : ∃ t, step s = .next t := by
  unfold step
  split
  · obtain ⟨u, hu⟩ := engineTurn_next s
    unfold defaultTurn
    rw [hu]
    simp only []
    split <;> exact ⟨_, rfl⟩
  · rename_i turn rest _
    cases turn with
    | engine => exact engineTurn_next _
    | host => exact ⟨_, rfl⟩
    | reset => exact ⟨_, rfl⟩

/-- A held or absent command, and an idle host, change nothing. -/
theorem hostTurn_idle {s : State} (h : s.host.prog = []) : hostTurn s = s := by
  unfold hostTurn
  rw [h]

/-! ### The clean entry of a run (R384) -/

/-- What the clean entry fixes of the block (R62, R384). -/
theorem cleanEntry_fields {s : State} (h : s.cleanEntry = true) :
    s.pend = none ∧ s.out = [] ∧ s.err = .none ∧ s.lost = false ∧ (s.tv, s.cv, s.da) = (false, false, false) ∧
      s.freq = State.reset.freq ∧ s.total = 0#32 ∧ s.nsym = 0#9 ∧ s.res0 = 0#32 ∧ s.res1 = 0#32 := by
  simp_all [State.cleanEntry, State.clearBlock, State.resetBlock, State.reset]

theorem cleanEntry_resetBlock (s : State) : s.resetBlock.cleanEntry = true := decide_eq_true rfl

theorem cleanEntry_clear {s t : State} (h : exec .clear s = .next t) : t.cleanEntry = true := by
  cases h
  exact decide_eq_true rfl

end Sys2Proof.Machine
end

