-- ==== Sys2Proof/Tests/Slice0.lean ====
section
/-! SUPPORT. The model's own tests: the ill-formed statements the assembler refuses, decoding of words written out from
30_encoding, one-step results taken from the vectors of 95_test_vectors (named in each comment), and for each obligation
a state and operands that meet its hypotheses. -/

namespace Sys2Proof.Tests

open Sys2Proof Sys2Proof.Machine

set_option Elab.async false

/-! ### Helpers -/

/-- The state of an outcome that is a next state. -/
def nextOf : Host.Outcome State Fault Refusal → State
  | .next t => t
  | .fault _ => State.reset
  | .refused _ => State.reset

theorem eq_nextOf {o : Host.Outcome State Fault Refusal} (h : ∃ t, o = .next t) : o = .next (nextOf o) := by
  obtain ⟨t, rfl⟩ := h
  rfl

/-- A command issued with an ARG value. -/
def pending (i : Instr) (a : Word) (s : State) : State := { s with pend := some ⟨encode i, a⟩ }

/-- The state after the engine performs a command issued with an ARG value. -/
def did (i : Instr) (a : Word) (s : State) : State := nextOf (engineTurn (pending i a s))

/-- The frequencies of "aaabbc" (L2.1-a). -/
def abcFreq (c : Byte) : Word :=
  if c = 0x61#8 then 3#32 else if c = 0x62#8 then 2#32 else if c = 0x63#8 then 1#32 else 0#32

/-- The state with the frequency table of "aaabbc" (L2.1-a). -/
def table : State :=
  { ((State.reset.setFreq 0x61#8 3#32).setFreq 0x62#8 2#32).setFreq 0x63#8 1#32 with total := 6#32, nsym := 3#9 }

/-- Its tree, as L2.2-a lists it. -/
def tree : State :=
  { table with
    node := [⟨.leaf, 0x61#8, 3#32, 0x1FF#9, 0x1FF#9⟩, ⟨.leaf, 0x62#8, 2#32, 0x1FF#9, 0x1FF#9⟩,
      ⟨.leaf, 0x63#8, 1#32, 0x1FF#9, 0x1FF#9⟩, ⟨.internal, 0#8, 3#32, 2#9, 1#9⟩, ⟨.internal, 0#8, 6#32, 0#9, 3#9⟩]
    ncount := 5#10
    root := 4#9
    tv := true }

/-- Its code table (L2.3-a). -/
def coded : State := { tree with code := codeTableOf tree.nodeAt tree.root, cv := true }

/-- A decode of 9 bits over its tree (L2.5-a). -/
def decoding : State := { tree with drem := 9#32, dpos := 4#9, da := true }

/-- The tree of one symbol (L2.5-j). -/
def lone : State :=
  { State.reset.setFreq 0x41#8 5#32 with
    total := 5#32
    nsym := 1#9
    node := [⟨.leaf, 0x41#8, 5#32, 0x1FF#9, 0x1FF#9⟩, ⟨.internal, 0#8, 5#32, 0#9, 0x1FF#9⟩]
    ncount := 2#10
    root := 1#9
    tv := true }

/-- A decode of 8 bits over it (L2.5-j). -/
def loneDecoding : State := { lone with drem := 8#32, dpos := 1#9, da := true }

/-- One entry, and TOTAL, at their bound (L2.1-f). -/
def fullTable : State := { State.reset.setFreq 0x05#8 0xFFFFFFFF#32 with total := 0xFFFFFFFF#32, nsym := 1#9 }

/-- An error was recorded: BUILD of an empty table (L2.2-e). -/
def failed : State := { State.reset with err := .emptyInput }

/-- The output queue full. -/
def fullOut (s : State) : State := { s with out := List.replicate 64 0#8 }

/-! ### The assembler's range checks: one ill-formed statement each, refused (30_encoding R130) -/

theorem test_wr_register_range : Stmt.wellFormed (.wr 16 0) = false := by decide
theorem test_wr_immediate_range : Stmt.wellFormed (.wr 4 4294967296) = false := by decide
theorem test_rd_register_range : Stmt.wellFormed (.rd 16 0) = false := by decide
theorem test_cmdw_immediate_range : Stmt.wellFormed (.cmdw 4294967296) = false := by decide
theorem test_count_symbol_range : Stmt.wellFormed (.count 256) = false := by decide
theorem test_encb_symbol_range : Stmt.wellFormed (.encb 256) = false := by decide
theorem test_rdfreq_symbol_range : Stmt.wellFormed (.rdfreq 256) = false := by decide
theorem test_decb_byte_range : Stmt.wellFormed (.decb 256) = false := by decide
theorem test_loadf_symbol_range : Stmt.wellFormed (.loadf 256 1) = false := by decide
theorem test_loadf_count_range : Stmt.wellFormed (.loadf 1 4294967296) = false := by decide
theorem test_decstart_count_range : Stmt.wellFormed (.decstart 4294967296) = false := by decide
theorem test_rdcode_symbol_range : Stmt.wellFormed (.rdcode 256 0) = false := by decide
theorem test_rdcode_window_range : Stmt.wellFormed (.rdcode 0 8) = false := by decide
theorem test_rdnode_index_range : Stmt.wellFormed (.rdnode 511) = false := by decide
theorem test_bounds_are_admitted :
    [Stmt.wr 15 4294967295, .loadf 255 4294967295, .rdcode 255 7, .rdnode 510, .decb 255].all Stmt.wellFormed = true := by
  decide

/-! ### Decoding words written out from the opcode map (30_encoding R120, R124; 95_test_vectors P1, P2, L2.6) -/

theorem test_decode_nop : decode 0x00000000#32 = .ok .nop := by decide
theorem test_decode_clear : decode 0x00000001#32 = .ok .clear := by decide
theorem test_decode_count : decode 0x00006102#32 = .ok (.count 0x61#8) := by decide
theorem test_decode_loadf : decode 0x00006203#32 = .ok (.loadf 0x62#8) := by decide
theorem test_decode_build : decode 0x00000004#32 = .ok .build := by decide
theorem test_decode_gencode : decode 0x00000005#32 = .ok .gencode := by decide
theorem test_decode_encb : decode 0x00006306#32 = .ok (.encb 0x63#8) := by decide
theorem test_decode_encend : decode 0x00000007#32 = .ok .encend := by decide
theorem test_decode_decstart : decode 0x00000008#32 = .ok .decstart := by decide
theorem test_decode_decb : decode 0x00001F09#32 = .ok (.decb 0x1F#8) := by decide
theorem test_decode_decend : decode 0x0000000A#32 = .ok .decend := by decide
theorem test_decode_rdfreq : decode 0x0000610B#32 = .ok (.rdfreq 0x61#8) := by decide
theorem test_decode_rdcode : decode 0x0000FF0C#32 = .ok (.rdcode 0xFF#8) := by decide
theorem test_decode_rdnode : decode 0x0000000D#32 = .ok .rdnode := by decide
theorem test_decode_reserved_opcode : decode 0x0000000E#32 = .error .reservedOpcode := by decide
theorem test_decode_last_opcode : decode 0x000000FF#32 = .error .reservedOpcode := by decide
theorem test_decode_reserved_bits : decode 0x00010004#32 = .error .reservedBits := by decide
theorem test_decode_symbol_not_zero : decode 0x00000104#32 = .error .symbolNotZero := by decide
theorem test_decode_nop_symbol : decode 0x00000100#32 = .error .symbolNotZero := by decide
theorem test_decodeTableWord : decodeTableWord 32 0x610B = some (.rdfreq 0x61#8) := by decide

/-! ### One step each (95_test_vectors) -/

/-- The command placed by `withFetchWord` is the very next step's (L2.1-a, first COUNT). -/
theorem test_fetch_count :
    (nextOf (step (State.reset.withFetchWord 32 0x6102))).freqAt 0x61#8 = 1#32 := by decide +kernel

/-- L2.6-a. -/
theorem test_illegal : (nextOf (step (table.withFetchWord 32 0xFF))).statusWord = 0x00000700#32 := by decide +kernel

/-- L2.6-f. -/
theorem test_nop : did .nop 0#32 table = table := by rfl

/-- L2.6-g: CLEAR from the error state; STATUS, TREEINFO and TOTAL read 0, ARG keeps 4. -/
theorem test_clear :
    let t := did .clear 0#32 { failed with arg := 4#32 }
    (t.statusWord, t.treeInfoWord, t.total, t.arg) = (0#32, 0#32, 0#32, 4#32) := by decide +kernel

/-- L2.1-a: NSYM 3 and TOTAL 6 after the last COUNT. -/
theorem test_count :
    let t := did (.count 0x63#8) 0#32 { (State.reset.setFreq 0x61#8 3#32).setFreq 0x62#8 2#32 with total := 5#32, nsym := 2#9 }
    (t.total, t.treeInfoWord) = (6#32, 0x000C0000#32) := by decide +kernel

/-- L2.1-f. -/
theorem test_count_overflow :
    let t := did (.count 0x06#8) 0#32 fullTable
    (t.statusWord, t.total, t.treeInfoWord) = (0x00000600#32, 0xFFFFFFFF#32, 0x00040000#32) := by decide +kernel

/-- L2.1-e: the second load replaces the first. -/
theorem test_loadf_replaces :
    let t := did (.loadf 0x05#8) 0xFFFFFFFF#32 { State.reset.setFreq 0x05#8 0x80000000#32 with total := 0x80000000#32, nsym := 1#9 }
    (t.freqAt 5#8, t.total, t.err) = (0xFFFFFFFF#32, 0xFFFFFFFF#32, .none) := by decide +kernel

/-- L2.1-g. -/
theorem test_loadf_overflow :
    let t := did (.loadf 0x06#8) 0x80000000#32 { State.reset.setFreq 0x05#8 0x80000000#32 with total := 0x80000000#32, nsym := 1#9 }
    (t.statusWord, t.total) = (0x00000600#32, 0x80000000#32) := by decide +kernel

/-- L2.1-b. -/
theorem test_rdfreq :
    let t := did (.rdfreq 0x62#8) 0#32 table
    (t.res0, t.res1) = (2#32, 3#32) := by decide +kernel

/-- L2.2-a: the whole tree, and the registers. -/
theorem test_build :
    let t := did .build 0#32 table
    (t.node, t.statusWord, t.treeInfoWord) = (tree.node, 0x00000002#32, 0x000C0A04#32) := by decide +kernel

/-- L2.2-c: in a tie the leaf comes before the internal node. -/
theorem test_build_tie :
    (did .rdnode 4#32 (did .build 0#32
      { ((State.reset.setFreq 0x61#8 1#32).setFreq 0x62#8 1#32).setFreq 0x63#8 2#32 with total := 4#32, nsym := 3#9 })).res1 =
      0xC0000602#32 := by decide +kernel

/-- L2.2-a: `RDNODE` with ARG = 0x200 reads node 0. -/
theorem test_rdnode : ((did .rdnode 0x200#32 tree).res0, (did .rdnode 0x200#32 tree).res1) = (3#32, 0x8187FFFF#32) := by
  decide +kernel

/-- L1.2: the wrapper's right child is NIL. -/
theorem test_rdnode_wrapper : (did .rdnode 1#32 lone).res1 = 0xC003FE00#32 := by decide +kernel

/-- L2.3-a. -/
theorem test_gencode :
    let t := did .gencode 0#32 tree
    (t.codeAt 0x61#8, t.codeAt 0x62#8, t.codeAt 0x63#8) =
      (⟨[false]⟩, ⟨[true, true]⟩, ⟨[true, false]⟩) := by decide +kernel

/-- L2.3: a second GENCODE. -/
theorem test_gencode_again : (did .gencode 0#32 coded).statusWord = 0x00000506#32 := by decide +kernel

/-- L2.3: `RDCODE 0x63, 0`. -/
theorem test_rdcode :
    let t := did (.rdcode 0x63#8) 0#32 coded
    (t.res0, t.res1) = (0x80000002#32, 0x80000000#32) := by decide +kernel

/-- L2.3: with ARG = 9 the window is 1, past the end of the code. -/
theorem test_rdcode_window :
    let t := did (.rdcode 0x63#8) 9#32 coded
    (t.res0, t.res1) = (0x80000002#32, 0#32) := by decide +kernel

/-- L2.4-a, last ENCB: a code across the byte boundary. -/
theorem test_encb :
    let t := did (.encb 0x63#8) 0#32 { coded with pacc := 0x1E#8, pfill := 7#3, ebits := 7#32 }
    (t.packWord, t.ebits, t.out) = (0x100#32, 9#32, [0x1F#8]) := by decide +kernel

/-- L2.4-g. -/
theorem test_encb_unknown :
    let t := did (.encb 0x64#8) 0#32 { coded with pacc := 0x60#8, pfill := 3#3, ebits := 3#32 }
    (t.statusWord, t.packWord, t.ebits) = (0x00000206#32, 0x360#32, 3#32) := by decide +kernel

/-- L2.4-a: ENCEND emits the partial byte. -/
theorem test_encend :
    let t := did .encend 0#32 { coded with pacc := 0#8, pfill := 1#3, ebits := 9#32 }
    (t.out, t.bitcnt, t.res0, t.res1, t.ebits, t.packWord) = ([0x00#8], 9#32, 9#32, 2#32, 0#32, 0#32) := by decide +kernel

/-- L2.4-c: a whole number of bytes, nothing is emitted. -/
theorem test_encend_whole_byte :
    let t := did .encend 0#32 { coded with ebits := 8#32 }
    (t.out, t.bitcnt, t.res1) = ([], 8#32, 1#32) := by decide +kernel

/-- L2.5-a: DECSTART without a code table. -/
theorem test_decstart :
    let t := did .decstart 9#32 tree
    (t.statusWord, t.drem, t.dpos, t.dcount) = (0x0000000A#32, 9#32, 4#9, 0#32) := by decide +kernel

/-- L2.5-g. -/
theorem test_decstart_again : (did .decstart 3#32 decoding).statusWord = 0x0000050A#32 := by decide +kernel

/-- L2.5-a: the first byte, which ends in the middle of a code. -/
theorem test_decb :
    let t := did (.decb 0x1F#8) 0#32 decoding
    (t.out, t.drem, t.dcount, t.dpos) = ([0x61#8, 0x61#8, 0x61#8, 0x62#8, 0x62#8], 1#32, 5#32, 3#9) := by decide +kernel

/-- L2.5-k: BAD_CODE at the eighth bit; the symbols before it are not appended. -/
theorem test_decb_bad :
    let t := did (.decb 0x01#8) 0#32 loneDecoding
    (t.statusWord, t.drem, t.dcount, t.out) = (0x0000040A#32, 8#32, 0#32, []) := by decide +kernel

/-- L2.5-a: the end check succeeds. -/
theorem test_decend :
    let t := did .decend 0#32 { decoding with drem := 0#32, dcount := 6#32 }
    (t.da, t.res0, t.res1, t.err) = (false, 6#32, 0#32, .none) := by decide +kernel

/-- L2.5-i. -/
theorem test_decend_truncated :
    let t := did .decend 0#32 decoding
    (t.statusWord, t.drem, t.dcount) = (0x0000030A#32, 9#32, 0#32) := by decide +kernel

/-- L2.6-i, outcome 1: a second issue before the engine performed the first sets LOST. -/
theorem test_lost :
    let t := portWrite 3#4 0x6202#32 (portWrite 3#4 0x6102#32 State.reset)
    (t.lost, t.pend) = (true, some ⟨0x6102#32, 0#32⟩) := by decide +kernel

/-- R303, R305: an empty buffer issues no command. -/
theorem test_compress_empty : compressProgram [] = [] := by decide
theorem test_decompress_empty : decompressProgram [] 0#32 (List.replicate 256 0#32) = [] := by decide +kernel

/-! ### The invariants of the states above -/

theorem table_freqAt : table.freqAt = abcFreq := by
  funext c
  show (State.setFreq _ 0x63#8 1#32).freqAt c = _
  rw [freqAt_setFreq, freqAt_setFreq, freqAt_setFreq]
  simp only [State.freqAt, State.reset, Vector.getElem_replicate, abcFreq]
  by_cases h1 : c = 0x61#8
  · subst h1; decide
  · by_cases h2 : c = 0x62#8
    · subst h2; decide
    · simp only [h1, h2, if_false]

theorem lone_freqAt : lone.freqAt = fun c => if c = 0x41#8 then 5#32 else 0#32 := by
  funext c
  show (State.setFreq _ 0x41#8 5#32).freqAt c = _
  rw [freqAt_setFreq]
  simp only [State.freqAt, State.reset, Vector.getElem_replicate]

theorem fullTable_freqAt : fullTable.freqAt = fun c => if c = 0x05#8 then 0xFFFFFFFF#32 else 0#32 := by
  funext c
  show (State.setFreq _ 0x05#8 _).freqAt c = _
  rw [freqAt_setFreq]
  simp only [State.freqAt, State.reset, Vector.getElem_replicate]

theorem failed_freqAt : failed.freqAt = fun _ => 0#32 := by
  funext c
  simp only [State.freqAt, failed, State.reset, Vector.getElem_replicate]

theorem clean_zero : InvPacker State.reset := by decide

theorem inv_table : Inv table :=
  ⟨by rw [InvTotal, table_freqAt]; decide +kernel, by rw [InvNsym, table_freqAt]; decide +kernel, by decide,
    fun _ => by decide, fun h => absurd h (by decide), fun h => absurd h (by decide), clean_zero,
    fun h => absurd h (by decide), by decide, by decide, by decide⟩

theorem inv_tree : Inv tree :=
  ⟨inv_table.1, inv_table.2.1, by decide, fun h => absurd h (by decide),
    fun _ => ⟨by decide, by decide, by decide, by
      rw [show tree.freqAt = abcFreq from table_freqAt]; decide +kernel⟩,
    fun h => absurd h (by decide), clean_zero, fun h => absurd h (by decide), by decide, by decide, by decide⟩

theorem inv_coded : Inv coded := by
  obtain ⟨a, b, _, d, e, _, f, g, h, i, j⟩ := inv_tree
  exact ⟨a, b, by decide, d, e, fun _ => rfl, f, g, h, i, j⟩

theorem inv_decoding : Inv decoding := by
  obtain ⟨a, b, _, d, e, c, f, _, h, i, _⟩ := inv_tree
  exact ⟨a, b, by decide, d, e, c, f, fun _ => by decide, h, i, by decide⟩

theorem inv_lone : Inv lone :=
  ⟨by rw [InvTotal, lone_freqAt]; decide +kernel, by rw [InvNsym, lone_freqAt]; decide +kernel, by decide,
    fun h => absurd h (by decide), fun _ => ⟨by decide, by decide, by decide, by rw [lone_freqAt]; decide +kernel⟩,
    fun h => absurd h (by decide), clean_zero, fun h => absurd h (by decide), by decide, by decide, by decide⟩

theorem inv_loneDecoding : Inv loneDecoding := by
  obtain ⟨a, b, _, d, e, c, f, _, h, i, _⟩ := inv_lone
  exact ⟨a, b, by decide, d, e, c, f, fun _ => by decide, h, i, by decide⟩

theorem inv_loneCoded : Inv { lone with code := codeTableOf lone.nodeAt lone.root, cv := true } := by
  obtain ⟨a, b, _, d, e, _, f, g, h, i, j⟩ := inv_lone
  exact ⟨a, b, by decide, d, e, fun _ => rfl, f, g, h, i, j⟩

theorem inv_fullTable : Inv fullTable :=
  ⟨by rw [InvTotal, fullTable_freqAt]; decide +kernel, by rw [InvNsym, fullTable_freqAt]; decide +kernel, by decide,
    fun _ => by decide, fun h => absurd h (by decide), fun h => absurd h (by decide), clean_zero,
    fun h => absurd h (by decide), by decide, by decide, by decide⟩

theorem inv_failed : Inv failed :=
  ⟨by rw [InvTotal, failed_freqAt]; decide +kernel, by rw [InvNsym, failed_freqAt]; decide +kernel, by decide,
    fun _ => by decide, fun h => absurd h (by decide), fun h => absurd h (by decide), clean_zero,
    fun h => absurd h (by decide), by decide, by decide, by decide⟩

/-- The empty table, with no error recorded and a command pending. -/
theorem inv_empty (i : Instr) (a : Word) : Inv (pending i a State.reset) := by
  obtain ⟨x, b, c, d, e, f, g, h, _, _, k⟩ := inv_failed
  exact ⟨x, b, c, d, e, f, g, h, Nat.zero_le _, fun _ => rfl, k⟩

theorem inv_pending {s : State} (h : Inv s) (i : Instr) (a : Word) : Inv (pending i a s) :=
  inv_congr (by intro p hp; cases p <;> first | rfl | exact absurd (by decide) hp) h

/-- The packer and OUT set by hand. -/
theorem inv_packed (pfill : BitVec 3) (ebits : Word) (out : List Byte) (h : pfill.toNat = ebits.toNat % 8)
    (ho : out.length ≤ 64) : Inv { coded with pfill := pfill, ebits := ebits, out := out } := by
  obtain ⟨a, b, c, d, e, f, _, g, _, _, k⟩ := inv_coded
  exact ⟨a, b, c, d, e, f, ⟨h, fun k _ => by simp [coded, tree, table, State.setFreq, State.reset]⟩, g, ho,
    fun h => absurd rfl h, k⟩

/-! ### Witnesses: states and operands that meet the hypotheses of each obligation -/

theorem witness_OpcodeRowsMatchAtMostOneCommand :
    (⟨"COUNT", maskS, 0x02#32⟩ : OpcodeRow) ∈ opcodeRows ∧ 0x6102#32 &&& maskS = 0x02#32 := by decide

theorem witness_IllegalWordsRaiseIllegalCmd :
    (({ table with pend := some ⟨0xFF#32, 0#32⟩ } : State).pend = some ⟨0xFF#32, 0#32⟩ ∧
      decode 0xFF#32 = .error .reservedOpcode ∧ table.err = .none) ∧
    (({ failed with pend := some ⟨0x0E#32, 0#32⟩ } : State).pend = some ⟨0x0E#32, 0#32⟩ ∧
      decode 0x0E#32 = .error .reservedOpcode ∧ failed.err ≠ .none) := by decide

theorem witness_StepPerformsThePendingCommand :
    (({ pending .build 0#32 failed with sched := [.engine] } : State).sched = .engine :: [] ∧
      decode (encode .build) = .ok .build) ∧
    decodeTableWord 32 0x610B = some (.rdfreq 0x61#8) ∧
    ∃ t, exec .build (pending .build 0#32 failed) = .next t ∧ t.pend = none :=
  ⟨by decide, by decide, _, eq_nextOf (exec_next _ _), by decide⟩

theorem witness_EveryStepAnswersANextState :
    table.pend = none ∧ table.host.prog = [] ∧ table.sched = [] := by decide

theorem witness_FailingCommandChangesOnlyErrAndOut :
    ∃ t, engineTurn (pending .build 0#32 State.reset) = .next t ∧ t.err ≠ .none ∧
      t.err ≠ (pending .build 0#32 State.reset).err :=
  ⟨_, eq_nextOf (engineTurn_next _), by decide⟩

/-- A gated command, CLEAR, and the two reset events, from the error state. -/
theorem witness_ErrorStateIsLeftOnlyByClearOrReset :
    (∃ t, Inv (pending .build 0#32 failed) ∧ failed.err ≠ .none ∧ step (pending .build 0#32 failed) = .next t) ∧
    (∃ t, Inv (pending .clear 0#32 failed) ∧ step (pending .clear 0#32 failed) = .next t) ∧
    (∃ t, Inv { failed with sched := [.reset] } ∧ step { failed with sched := [.reset] } = .next t) ∧
    ∃ t, Inv { failed with host := ⟨[.wr 1#4 1#32], [], []⟩ } ∧
      step { failed with host := ⟨[.wr 1#4 1#32], [], []⟩ } = .next t :=
  ⟨⟨_, inv_pending inv_failed _ _, by decide, eq_nextOf (step_next _)⟩,
    ⟨_, inv_pending inv_failed _ _, eq_nextOf (step_next _)⟩, ⟨_, inv_failed, eq_nextOf (step_next _)⟩,
    ⟨_, inv_failed, eq_nextOf (step_next _)⟩⟩

/-- Each code of R320 is raised. -/
theorem witness_ErrorCodesAndWhoRaisesThem :
    (did .build 0#32 State.reset).err = .emptyInput ∧ (did (.encb 0x64#8) 0#32 coded).err = .unknownSymbol ∧
    (did .decend 0#32 decoding).err = .truncatedStream ∧ (did (.decb 0x80#8) 0#32 loneDecoding).err = .badCode ∧
    (did .encend 0#32 tree).err = .sequence ∧ (did (.count 0x06#8) 0#32 fullTable).err = .overflow ∧
    (nextOf (engineTurn { table with pend := some ⟨0xFF#32, 0#32⟩ })).err = .illegalCmd := by decide +kernel

/-- Every condition of R162, true in one of the states and false in another. -/
theorem witness_PhaseTableDecidesSequence :
    (table.err = .none ∧ table.tv = false ∧ table.cv = false ∧ table.da = false) ∧
    (coded.err = .none ∧ coded.tv = true ∧ coded.cv = true ∧ coded.da = false) ∧
    (decoding.err = .none ∧ decoding.tv = true ∧ decoding.cv = false ∧ decoding.da = true) := by decide

/-- One state for each row of R163; each meets the invariants. -/
theorem witness_PhaseFlagsChangeOnlyByTheTable :
    (did .gencode 0#32 tree).cv = true ∧ (did .decstart 9#32 tree).da = true ∧
    (did .decend 0#32 { decoding with drem := 0#32 }).da = false ∧ (did .clear 0#32 coded).tv = false := by decide

theorem witness_ResultRegistersWrittenOnlyBySixCommands :
    (∃ t, step { pending (.rdfreq 0x61#8) 0#32 table with sched := [.engine] } = .next t ∧ t.res1 ≠ table.res1) ∧
    ∃ t, step { table with res0 := 5#32, sched := [.reset] } = .next t ∧ t.res0 ≠ 5#32 :=
  ⟨⟨_, eq_nextOf (step_next _), by decide⟩, ⟨_, eq_nextOf (step_next _), by decide⟩⟩

theorem witness_ArgIsSetOnlyByTheHost : table.pend = none ∧ ∃ t, engineTurn table = .next t :=
  ⟨by decide, engineTurn_next _⟩

theorem witness_LostIsSetAndClearedAsStated :
    (∃ t, step { pending .nop 0#32 table with host := ⟨[.wr 3#4 0#32], [], []⟩, sched := [.host] } = .next t ∧
      table.lost = false ∧ t.lost = true) ∧
    (∃ t, step { pending .clear 0#32 table with lost := true } = .next t ∧ t.lost = false) ∧
    (pending .nop 0#32 table).pend ≠ none ∧ (∃ t, exec .clear (pending .clear 0#32 table) = .next t) ∧
    ∃ t, exec .build (pending .build 0#32 table) = .next t :=
  ⟨⟨_, eq_nextOf (step_next _), by decide⟩, ⟨_, eq_nextOf (step_next _), by decide⟩, by decide, exec_next _ _,
    exec_next _ _⟩

theorem witness_EveryCommandWritesOnlyWhatItsRuleLists (i : Instr) : ∃ t, exec i (pending i 0#32 coded) = .next t :=
  exec_next _ _

/-- The clauses of ENCB, ENCEND and DECB, each one byte more than there is room for. -/
theorem witness_CommandsAreHeldOnlyForRoomInOut :
    (let s := fullOut { coded with pfill := 7#3, ebits := 7#32 }
     s.err = .none ∧ s.cv = true ∧ 0 < (s.codeAt 0x61#8).len ∧
      s.ebits.toNat + (s.codeAt 0x61#8).len ≤ 4294967295 ∧ 8 ≤ s.pfill.toNat + (s.codeAt 0x61#8).len ∧
      s.config.outDepth < s.out.length + (s.pfill.toNat + (s.codeAt 0x61#8).len) / 8) ∧
    (let s := fullOut { coded with pfill := 1#3, ebits := 1#32 }
     s.err = .none ∧ s.cv = true ∧ 0 < s.pfill.toNat ∧ s.config.outDepth < s.out.length + 1) ∧
    (let s := fullOut decoding
     s.err = .none ∧ s.da = true ∧
      decodeBits s.nodeAt s.root s.dpos ((byteBits 0x1F#8).take s.drem.toNat) =
        some (3#9, [0x61#8, 0x61#8, 0x61#8, 0x62#8, 0x62#8]) ∧
      s.config.outDepth < s.out.length + 5) := by decide +kernel

theorem witness_CommandsAreHeldOnlyForRoomInOut_empty :
    let s := pending (.encb 0x61#8) 0#32 coded
    Inv s ∧ s.pend = some ⟨encode (.encb 0x61#8), 0#32⟩ ∧ s.out = [] :=
  ⟨inv_pending inv_coded _ _, by decide⟩

theorem witness_EnabledCommandStaysEnabled :
    ∃ t, engineTurn (pending .encend 0#32 { coded with host := ⟨[.wr 3#4 0#32], [], []⟩ }) = .next t ∧ t.pend = none :=
  ⟨_, eq_nextOf (engineTurn_next _), by decide⟩

theorem witness_OutputOfOneCommandIsBounded :
    ∃ t, exec (.decb 0x1F#8) (pending (.decb 0x1F#8) 0#32 decoding) = .next t ∧
      Inv (pending (.decb 0x1F#8) 0#32 decoding) ∧ t.err = .none :=
  ⟨_, eq_nextOf (exec_next _ _), inv_pending inv_decoding _ _, by decide +kernel⟩

theorem witness_CmdWriteIssuesOrSetsLost :
    table.pend = none ∧ (pending .nop 0#32 table).pend = some ⟨0#32, 0#32⟩ := by decide

/-- The queue empty and full. -/
theorem witness_StatusFieldsAreExact : InvQueue table ∧ InvQueue (fullOut table) := by decide

theorem witness_OutReadPopsTheHead :
    ({ table with out := [7#8] } : State).out = 7#8 :: [] ∧ table.out = [] := by decide

theorem witness_ReadsWhileBusyAreDraws :
    (pending .nop 0#32 table).pend ≠ none ∧
      5#4 ∈ [5#4, 6#4, 8#4, 9#4, 10#4, 11#4, 12#4, 13#4, 14#4, 15#4] ∧ table.pend = none := by decide

theorem witness_TreeInfoDposAndPackFields :
    (Inv tree ∧ tree.pend = none ∧ tree.tv = true) ∧ (Inv table ∧ table.pend = none ∧ table.tv = false) :=
  ⟨⟨inv_tree, by decide⟩, ⟨inv_table, by decide⟩⟩

theorem witness_WritesToReadOnlyRegistersAreIgnored :
    15#4 ∈ [0#4, 2#4, 5#4, 6#4, 7#4, 8#4, 9#4, 10#4, 11#4, 12#4, 13#4, 14#4, 15#4] := by decide

theorem witness_ResetEventLeavesTheResetValues :
    ({ coded with sched := [.reset] } : State).sched = .reset :: [] ∧ (1#32).getLsbD 0 = true ∧
      (0xFFFFFFFE#32).getLsbD 0 = false := by decide

/-- The phase check of CountAddsOneOccurrence, LoadfReplacesOneEntry, BuildSizesTheTree, EncbAppendsTheCode,
EncendClosesTheStream, DecbWalksTheDeclaredBits and DecendChecksTheEnd: a tree, no codes, no open decode. -/
theorem witness_SequenceClauses :
    Inv tree ∧ tree.err = .none ∧ tree.tv = true ∧ tree.cv = false ∧ tree.da = false ∧
      (let s := pending (.loadf 0x61#8) 1#32 tree
       Inv s ∧ s.pend = some ⟨encode (.loadf 0x61#8), 1#32⟩ ∧ s.err = .none ∧ s.tv = true) :=
  ⟨inv_tree, by decide, by decide, by decide, by decide, inv_pending inv_tree _ _, by decide⟩

/-- The phase check of GencodeGivesEverySymbolItsPath and DecstartOpensADecode: no tree, codes, an open decode. -/
theorem witness_SequenceClauses_two :
    (Inv table ∧ table.err = .none ∧ table.tv = false) ∧ (Inv coded ∧ coded.err = .none ∧ coded.cv = true) ∧
    (let s := pending .decstart 9#32 table
     s.pend = some ⟨encode .decstart, 9#32⟩ ∧ s.err = .none ∧ s.tv = false) ∧
    (let s := pending .decstart 9#32 decoding
     s.pend = some ⟨encode .decstart, 9#32⟩ ∧ s.err = .none ∧ s.da = true) :=
  ⟨⟨inv_table, by decide⟩, ⟨inv_coded, by decide⟩, by decide, by decide⟩

/-- TOTAL at its bound, and below it. -/
theorem witness_CountAddsOneOccurrence :
    (Inv fullTable ∧ fullTable.err = .none ∧ fullTable.tv = false ∧ fullTable.total.toNat = 4294967295) ∧
    (Inv table ∧ table.err = .none ∧ table.tv = false ∧ table.total.toNat ≠ 4294967295) :=
  ⟨⟨inv_fullTable, by decide⟩, ⟨inv_table, by decide⟩⟩

/-- The new total exactly `2^32 - 1`, and exactly `2^32`. -/
theorem witness_LoadfReplacesOneEntry :
    (let s := pending (.loadf 0x64#8) 0xFFFFFFF9#32 table
     Inv s ∧ s.pend = some ⟨encode (.loadf 0x64#8), 0xFFFFFFF9#32⟩ ∧ s.err = .none ∧ s.tv = false ∧
      s.total.toNat - (s.freqAt 0x64#8).toNat + (0xFFFFFFF9#32).toNat = 4294967295) ∧
    (let s := pending (.loadf 0x64#8) 0xFFFFFFFA#32 table
     Inv s ∧ s.pend = some ⟨encode (.loadf 0x64#8), 0xFFFFFFFA#32⟩ ∧ s.err = .none ∧ s.tv = false ∧
      s.total.toNat - (s.freqAt 0x64#8).toNat + (0xFFFFFFFA#32).toNat = 4294967296) :=
  ⟨⟨inv_pending inv_table _ _, by decide +kernel⟩, ⟨inv_pending inv_table _ _, by decide +kernel⟩⟩

theorem witness_CountingABufferGivesItsHistogram :
    table.pend = none ∧ [0x61#8, 0x61#8, 0x62#8].length ≤ 4294967295 := by decide

theorem witness_LoadingATableInAnyOrderReproducesIt :
    table.pend = none ∧ freqSum abcFreq ≤ 4294967295 ∧ [0x63#8, 0x61#8, 0x62#8].Nodup ∧
      ∀ c, c ∈ [0x63#8, 0x61#8, 0x62#8] ↔ abcFreq c ≠ 0#32 :=
  ⟨by decide, by decide +kernel, by decide, fun c => by
    by_cases h1 : c = 0x61#8 <;> by_cases h2 : c = 0x62#8 <;> by_cases h3 : c = 0x63#8 <;> simp [abcFreq, h1, h2, h3]⟩

theorem witness_ExtractMinTakesTheLeastKey :
    (⟨3#32, 0⟩ : Key) ≠ ⟨3#32, 3⟩ ∧ [(⟨3#32, 0⟩ : Key), ⟨3#32, 3⟩] ≠ [] := by decide

theorem witness_BuildSizesTheTree :
    (Inv table ∧ table.err = .none ∧ table.tv = false ∧ table.nsym ≠ 0#9) ∧
    (let s := pending .build 0#32 State.reset
     Inv s ∧ s.err = .none ∧ s.tv = false ∧ s.nsym = 0#9) :=
  ⟨⟨inv_table, by decide⟩, ⟨inv_empty _ _, by decide⟩⟩

theorem witness_LeavesStandInAscendingSymbolOrder : Inv tree ∧ tree.tv = true := ⟨inv_tree, by decide⟩

/-- Without codes, and with them. -/
theorem witness_SingleSymbolGetsAWrapper :
    (Inv lone ∧ lone.tv = true ∧ ∀ d, lone.freqAt d ≠ 0#32 ↔ d = 0x41#8) ∧
    (let s := { lone with code := codeTableOf lone.nodeAt lone.root, cv := true }
     Inv s ∧ s.tv = true ∧ (∀ d, s.freqAt d ≠ 0#32 ↔ d = 0x41#8) ∧ s.cv = true) := by
  have h : ∀ d, lone.freqAt d ≠ 0#32 ↔ d = 0x41#8 := fun d => by
    rw [lone_freqAt]; by_cases h : d = 0x41#8 <;> simp [h]
  exact ⟨⟨inv_lone, by decide, h⟩, inv_loneCoded, by decide, h, by decide⟩

/-- The first and the last internal node. -/
theorem witness_InternalNodesHaveTwoOlderChildren :
    Inv tree ∧ tree.tv = true ∧ 2 ≤ tree.nsym.toNat ∧ tree.nsym.toNat ≤ (3#9).toNat ∧
      (3#9).toNat < tree.ncount.toNat ∧ tree.nsym.toNat ≤ (4#9).toNat ∧ (4#9).toNat < tree.ncount.toNat :=
  ⟨inv_tree, by decide⟩

/-- Two passes of R203, the second the pass after the first. -/
theorem witness_ChildrenAreExtractedInKeyOrder :
    Inv tree ∧ tree.tv = true ∧ 2 ≤ tree.nsym.toNat ∧ tree.nsym.toNat ≤ (3#9).toNat ∧
      (4#9).toNat = (3#9).toNat + 1 ∧ (4#9).toNat < tree.ncount.toNat :=
  ⟨inv_tree, by decide⟩

theorem witness_WeightsAreSumsAndRootIsTotal :
    (Inv lone ∧ lone.tv = true ∧ (1#9).toNat < lone.ncount.toNat ∧ (lone.nodeAt 1#9).kind = .internal) ∧
    (Inv tree ∧ tree.tv = true ∧ (4#9).toNat < tree.ncount.toNat ∧ (tree.nodeAt 4#9).kind = .internal) :=
  ⟨⟨inv_lone, by decide⟩, ⟨inv_tree, by decide⟩⟩

/-- A leaf of a tree of one symbol, and the deepest leaf of a tree of three. -/
theorem witness_TreeIsStrictAndDepthBounded :
    (Inv lone ∧ lone.tv = true ∧ (0#9).toNat < lone.ncount.toNat ∧ (lone.nodeAt 0#9).kind = .leaf ∧
      pathTo lone.nodeAt lone.root [false] 0#9) ∧
    (Inv tree ∧ tree.tv = true ∧ (2#9).toNat < tree.ncount.toNat ∧ (tree.nodeAt 2#9).kind = .leaf ∧
      pathTo tree.nodeAt tree.root [true, false] 2#9) :=
  ⟨⟨inv_lone, by decide, by decide, by decide, by decide, by decide, rfl⟩,
    ⟨inv_tree, by decide, by decide, by decide, by decide, by decide, by decide, by decide, rfl⟩⟩

/-- Two states that agree on FREQ and differ elsewhere. -/
theorem witness_TreeIsAFunctionOfTheTable :
    let s := pending .build 0#32 table
    let s' := pending .build 7#32 { table with res0 := 9#32, arg := 7#32 }
    Inv s ∧ Inv s' ∧ (s.err = .none ∧ s'.err = .none ∧ s.tv = false ∧ s'.tv = false ∧ s.nsym ≠ 0#9) ∧
      (∀ c, s.freqAt c = s'.freqAt c) ∧ (∃ t, exec .build s = .next t) ∧ ∃ t, exec .build s' = .next t :=
  ⟨inv_pending inv_table _ _, inv_pending (s := { table with res0 := 9#32, arg := 7#32 }) inv_table _ _, by decide,
    fun _ => rfl, exec_next _ _, exec_next _ _⟩

/-- The last node in use, and the first index past it. -/
theorem witness_RdnodeReadsTheNode :
    (pending .rdnode 4#32 tree).pend = some ⟨encode .rdnode, 4#32⟩ ∧ (4#32).toNat % 512 < tree.ncount.toNat ∧
      tree.ncount.toNat ≤ (5#32).toNat % 512 := by decide

/-- The index NIL under a tree, and an index without a tree. -/
theorem witness_RdnodeReadsTheNode_none :
    (let s := pending .rdnode 0x1FF#32 tree
     Inv s ∧ s.pend = some ⟨encode .rdnode, 0x1FF#32⟩ ∧ (0x1FF#32).toNat % 512 = 511) ∧
    (let s := pending .rdnode 0#32 table
     Inv s ∧ s.pend = some ⟨encode .rdnode, 0#32⟩ ∧ s.tv = false) :=
  ⟨⟨inv_pending inv_tree _ _, by decide⟩, ⟨inv_pending inv_table _ _, by decide⟩⟩

theorem witness_GencodeGivesEverySymbolItsPath :
    Inv tree ∧ tree.err = .none ∧ tree.tv = true ∧ tree.cv = false ∧ tree.freqAt 0x61#8 ≠ 0#32 ∧
      tree.freqAt 0x64#8 = 0#32 :=
  ⟨inv_tree, by decide, by decide, by decide, by decide +kernel, by decide +kernel⟩

theorem witness_CodesArePrefixFree :
    Inv coded ∧ coded.cv = true ∧ 0x61#8 ≠ 0x62#8 ∧ 0 < (coded.codeAt 0x61#8).len ∧ 0 < (coded.codeAt 0x62#8).len :=
  ⟨inv_coded, by decide +kernel⟩

/-- With several symbols, and with one. -/
theorem witness_KraftSumOfTheCodes :
    (Inv coded ∧ coded.cv = true ∧ coded.nsym.toNat ≠ 1) ∧
    (let s := { lone with code := codeTableOf lone.nodeAt lone.root, cv := true }
     Inv s ∧ s.cv = true ∧ s.nsym.toNat = 1) :=
  ⟨⟨inv_coded, by decide⟩, ⟨inv_loneCoded, by decide⟩⟩

theorem witness_RdcodeReadsAWindow :
    (pending (.rdcode 0x63#8) 9#32 coded).pend = some ⟨encode (.rdcode 0x63#8), 9#32⟩ ∧ coded.cv = true ∧
      0 < (coded.codeAt 0x63#8).len ∧ (coded.codeAt 0x64#8).len = 0 ∧ tree.cv = false := by decide +kernel

/-- EBITS ends at `2^32 - 1`; no code; EBITS would end at `2^32`. -/
theorem witness_EncbAppendsTheCode :
    (let s := { coded with pfill := 6#3, ebits := 0xFFFFFFFE#32, out := [] }
     Inv s ∧ s.err = .none ∧ s.cv = true ∧ 0 < (s.codeAt 0x61#8).len ∧
      s.ebits.toNat + (s.codeAt 0x61#8).len = 4294967295 ∧
      s.out.length + (s.pfill.toNat + (s.codeAt 0x61#8).len) / 8 ≤ s.config.outDepth) ∧
    (coded.codeAt 0x64#8).len = 0 ∧
    (let s := { coded with pfill := 7#3, ebits := 0xFFFFFFFF#32, out := [] }
     Inv s ∧ s.err = .none ∧ s.cv = true ∧ 0 < (s.codeAt 0x61#8).len ∧
      4294967295 < s.ebits.toNat + (s.codeAt 0x61#8).len) :=
  ⟨⟨inv_packed _ _ _ (by decide) (by decide), by decide +kernel⟩, by decide +kernel,
    ⟨inv_packed _ _ _ (by decide) (by decide), by decide +kernel⟩⟩

/-- A partial byte with exactly one place free in OUT, and no partial byte with OUT full. -/
theorem witness_EncendClosesTheStream :
    (let s := { coded with pfill := 1#3, ebits := 9#32, out := List.replicate 63 0#8 }
     Inv s ∧ s.err = .none ∧ s.cv = true ∧ s.out.length + (if s.pfill = 0#3 then 0 else 1) = s.config.outDepth) ∧
    (let s := { coded with pfill := 0#3, ebits := 0#32, out := List.replicate 64 0#8 }
     Inv s ∧ s.err = .none ∧ s.cv = true ∧ s.out.length + (if s.pfill = 0#3 then 0 else 1) = s.config.outDepth) :=
  ⟨⟨inv_packed _ _ _ (by decide) (by decide), by decide⟩, ⟨inv_packed _ _ _ (by decide) (by decide), by decide⟩⟩

theorem witness_EncodingASequencePacksItsCodes :
    Inv coded ∧ (coded.pend = none ∧ coded.out = [] ∧ coded.err = .none ∧ coded.cv = true ∧ coded.ebits = 0#32) ∧
      (∀ c ∈ [0x61#8, 0x62#8, 0x63#8], 0 < (coded.codeAt c).len) ∧
      (coded.codeBits [0x61#8, 0x62#8, 0x63#8]).length ≤ 4294967295 :=
  ⟨inv_coded, by decide, by decide +kernel, by decide +kernel⟩

theorem witness_DecstartOpensADecode :
    let s := pending .decstart 9#32 tree
    s.pend = some ⟨encode .decstart, 9#32⟩ ∧ s.err = .none ∧ s.tv = true ∧ s.da = false := by decide

/-- The walk that emits five symbols with exactly five places free. -/
theorem witness_DecbWalksTheDeclaredBits :
    let s := { decoding with out := List.replicate 59 0#8 }
    Inv s ∧ s.err = .none ∧ s.da = true ∧
      decodeBits s.nodeAt s.root s.dpos ((byteBits 0x1F#8).take s.drem.toNat) =
        some (3#9, [0x61#8, 0x61#8, 0x61#8, 0x62#8, 0x62#8]) ∧
      s.out.length + 5 = s.config.outDepth := by
  obtain ⟨a, b, c, d, e, f, g, h, _, _, k⟩ := inv_decoding
  exact ⟨⟨a, b, c, d, e, f, g, h, by decide, fun h => absurd rfl h, k⟩, by decide +kernel⟩

/-- The walk into the missing child. -/
theorem witness_DecbWalksTheDeclaredBits_bad :
    Inv loneDecoding ∧ loneDecoding.err = .none ∧ loneDecoding.da = true ∧
      decodeBits loneDecoding.nodeAt loneDecoding.root loneDecoding.dpos
        ((byteBits 0x80#8).take loneDecoding.drem.toNat) = none :=
  ⟨inv_loneDecoding, by decide +kernel⟩

theorem witness_BadCodeOnlyAtTheWrapper :
    (Inv loneDecoding ∧ loneDecoding.err = .none ∧ loneDecoding.da = true ∧ loneDecoding.nsym = 1#9) ∧
      ∃ t, exec (.decb 0x80#8) loneDecoding = .next t :=
  ⟨⟨inv_loneDecoding, by decide⟩, exec_next _ _⟩

/-- One declared bit left, and none. -/
theorem witness_BitsBeyondTheCountAreDiscarded :
    (byteBits 0x00#8).take 1 = (byteBits 0x7F#8).take 1 ∧
    (let s := { decoding with drem := 0#32 }
     s.err = .none ∧ s.da = true ∧ s.drem = 0#32) := by decide

/-- The good end, a bit left at the root, and no bit left in the middle of a code. -/
theorem witness_DecendChecksTheEnd :
    (let s := { decoding with drem := 0#32 }
     s.err = .none ∧ s.da = true ∧ s.drem = 0#32 ∧ s.dpos = s.root) ∧
    (let s := { decoding with drem := 1#32 }
     s.err = .none ∧ s.da = true ∧ s.drem ≠ 0#32) ∧
    (let s := { decoding with drem := 0#32, dpos := 3#9 }
     s.err = .none ∧ s.da = true ∧ s.dpos ≠ s.root) := by decide

/-- L2.5-b: padding bits set, and a byte more than needed. -/
theorem witness_DecodingAStreamGivesItsSymbols :
    Inv coded ∧ (coded.pend = none ∧ coded.out = [] ∧ coded.err = .none ∧ coded.cv = true ∧ coded.da = false) ∧
      (∀ c ∈ [0x61#8, 0x61#8, 0x61#8, 0x62#8, 0x62#8, 0x63#8], 0 < (coded.codeAt c).len) ∧
      (coded.codeBits [0x61#8, 0x61#8, 0x61#8, 0x62#8, 0x62#8, 0x63#8]).length = 9 ∧
      (bytesBits [0x1F#8, 0x7F#8, 0xAA#8]).take 9 =
        coded.codeBits [0x61#8, 0x61#8, 0x61#8, 0x62#8, 0x62#8, 0x63#8] :=
  ⟨inv_coded, by decide, by decide +kernel, by decide +kernel, by decide +kernel⟩

/-- Any two idle states, the second in an error. -/
theorem witness_CompressThenDecompressGivesTheBuffer :
    coded.pend = none ∧ failed.pend = none ∧ [0x61#8, 0x62#8, 0x61#8] ≠ [] ∧ [0x62#8, 0x61#8].Nodup ∧
      ∀ c : Byte, c ∈ [0x62#8, 0x61#8] ↔ c ∈ [0x61#8, 0x62#8, 0x61#8] :=
  ⟨by decide, by decide, by decide, by decide, fun c => by
    by_cases h1 : c = 0x61#8 <;> by_cases h2 : c = 0x62#8 <;> simp [h1, h2]⟩

/-- Every operand at the top of its range (R129, R130), the words written out from R130. -/
theorem witness_AssemblerRejectsAndExpands :
    assemble [.wr 15 4294967295, .rd 15 0, .cmdw 4294967295, .count 255, .loadf 255 4294967295] =
      some [.wr 15#4 0xFFFFFFFF#32, .rd 15#4 0, .wr 3#4 0xFFFFFFFF#32, .poll, .wr 3#4 0xFF02#32, .poll,
        .wr 4#4 0xFFFFFFFF#32, .wr 3#4 0xFF03#32, .poll] ∧
    assemble [.decstart 4294967295, .decb 255, .rdcode 255 7, .rdnode 510] =
      some [.wr 4#4 0xFFFFFFFF#32, .wr 3#4 0x08#32, .poll, .wr 3#4 0xFF09#32, .poll, .wr 4#4 7#32,
        .wr 3#4 0xFF0C#32, .poll, .wr 4#4 510#32, .wr 3#4 0x0D#32, .poll] := by decide

/-- Every operand one past the top of its range (R129, R130). -/
theorem witness_AssemblerRejectsAndExpands_none :
    ([.wr 16 0, .wr 0 4294967296, .rd 16 0, .cmdw 4294967296, .count 256, .loadf 256 0, .loadf 0 4294967296, .encb 256,
      .decstart 4294967296, .decb 256, .rdfreq 256, .rdcode 256 0, .rdcode 0 8, .rdnode 511] : List Stmt).all
      (fun st => assemble [.nop, st] == none) = true := by decide

/-- R384: the state after a reset event and after CLEAR is a clean entry; with a symbol counted or a result left over it
is not. -/
theorem test_cleanEntry :
    State.reset.cleanEntry = true ∧ (did .clear 7#32 failed).cleanEntry = true ∧
      (did (.count 0x61#8) 0#32 State.reset).cleanEntry = false ∧
      ({ State.reset with res0 := 1#32 } : State).cleanEntry = false := by decide +kernel

theorem witness_PollDrainsAndWaits :
    (let s := { table with host := ⟨[.poll], [], []⟩, out := [7#8] }
     s.host.prog = .poll :: [] ∧ s.out = 7#8 :: []) ∧
    (let s := pending .nop 0#32 { table with host := ⟨[.poll], [], []⟩ }
     s.host.prog = .poll :: [] ∧ s.out = [] ∧ s.pend ≠ none) ∧
    (let s := { table with host := ⟨[.poll], [], []⟩ }
     s.host.prog = .poll :: [] ∧ s.out = [] ∧ s.pend = none) := by decide

theorem witness_EveryStepKeepsTheInvariants :
    Inv (pending (.decb 0x1F#8) 0#32 decoding) ∧ ∃ t, step (pending (.decb 0x1F#8) 0#32 decoding) = .next t :=
  ⟨inv_pending inv_decoding _ _, step_next _⟩

end Sys2Proof.Tests
end

/-! SUPPORT. The state of the block (10_state): what a command, a host access and a step leave unchanged, and what follows
of RES0, RES1, ARG, LOST, the reset values and the fields of the register words. -/

namespace Sys2Proof.Machine

/-! ### What a command leaves unchanged (40_command_model R155, R161) -/

theorem sameBut_setRes (s : State) (x y : Word) : SameBut [.pend, .res0, .res1] s (s.setRes x y).done := by
  intro P hP
  cases P <;> simp_all [Part.same]

/-- A command the gate lets through writes only what its rule lists. -/
theorem alwaysState_frame (i : Instr) (s : State) : SameBut (.pend :: writesOf i) s (alwaysState i s).done := by
  cases i with
  | clear =>
    intro P hP
    cases P <;> simp_all [writesOf, alwaysState, Part.same]
  | rdfreq | rdcode | rdnode => exact sameBut_setRes s _ _
  | _ => exact sameBut_mono (sameBut_done s) (by simp)

/-- The perform of a command writes PEND and what its rule lists, or it fails (R155). -/
theorem exec_frame {i : Instr} {s t : State} (h : exec i s = .next t) :
    SameBut (.pend :: writesOf i) s t ∨ (s.err = .none ∧ ∃ e, e ≠ .none ∧ t = s.fail e) := by
  cases hg : passesGate i with
  | true =>
    rw [exec_always hg] at h
    cases h
    exact .inl (alwaysState_frame i s)
  | false =>
    rw [exec_gated hg] at h
    cases h
    exact performGated_frame hg s _

theorem sameBut_performIllegal (s : State) : SameBut [.err, .out, .pend] s (performIllegal s) := by
  rcases performIllegal_cases s with ⟨_, e⟩ | ⟨_, e⟩ <;> rw [e]
  · exact sameBut_mono (sameBut_done s) (by simp)
  · exact sameBut_fail s _

/-- A turn of the engine changes PEND, ERR and OUT, and else only what the rule of the command it performs lists. -/
theorem engineTurn_part {s t : State} (h : engineTurn s = .next t) {P : Part} (hP : P ∉ [.err, .out, .pend]) :
    P.same s t ∨ ∃ p i, s.pend = some p ∧ decode p.word = .ok i ∧ P ∈ writesOf i ∧ exec i s = .next t := by
  rcases engineTurn_cases h with ⟨_, rfl⟩ | ⟨p, i, hp, hd, he⟩ | ⟨_, _, _, _, rfl⟩
  · exact .inl (sameBut_refl [] t P (by simp))
  · rcases exec_frame he with hf | ⟨_, e, _, rfl⟩
    · by_cases hw : P ∈ writesOf i
      · exact .inr ⟨p, i, hp, hd, hw, he⟩
      · refine .inl (hf P ?_)
        simp only [List.mem_cons, not_or] at hP ⊢
        obtain ⟨_, _, hpend, _⟩ := hP
        exact ⟨hpend, hw⟩
    · exact .inl (sameBut_fail s e P hP)
  · exact .inl (sameBut_performIllegal s P hP)

/-! ### What the host leaves unchanged (20_memory R86, R88) -/

/-- The fields a host access can change without a reset event and without setting LOST. -/
def hostParts : List Part := [.pend, .arg, .out, .host, .draws]

theorem sameBut_hostParts (s : State) (pend : Option PendCmd) (arg : Word) (out : List Byte) (host : HostAgent)
    (draws : Nat) :
    SameBut hostParts s { s with pend := pend, arg := arg, out := out, host := host, draws := draws } := by
  intro P hP
  cases P <;> simp_all [hostParts, Part.same]

/-- What one host access does: a reset event, a CMD write that is lost, or nothing beyond PEND, ARG, OUT, the host and
the count of draws (R34, R37, R40, R151, R152, R160). -/
theorem hostTurn_frame (s : State) :
    SameBut hostParts s (hostTurn s) ∨
    (∃ w rest, s.host.prog = .wr 1#4 w :: rest ∧ w.getLsbD 0 = true ∧ hostTurn s = s.resetBlock.withProg rest) ∨
    (∃ w rest, s.host.prog = .wr 3#4 w :: rest ∧ s.pend ≠ none ∧
      hostTurn s = State.withProg { s with lost := true } rest) := by
  rcases hostTurn_cases s with ⟨host, out, draws, e, _⟩ | ⟨idx, w, rest, hp, e⟩
  · exact .inl (e ▸ sameBut_hostParts s s.pend s.arg out host draws)
  · rcases portWrite_cases idx w s with h | ⟨rfl, hw, h⟩ | ⟨rfl, _, h⟩ | ⟨rfl, hn, h⟩ | ⟨_, h⟩ <;> rw [h] at e
    · exact .inl (e ▸ sameBut_hostParts s s.pend s.arg s.out _ s.draws)
    · exact .inr (.inl ⟨w, rest, hp, hw, e⟩)
    · exact .inl (e ▸ sameBut_hostParts s (some ⟨w, s.arg⟩) s.arg s.out _ s.draws)
    · exact .inr (.inr ⟨w, rest, hp, hn, e⟩)
    · exact .inl (e ▸ sameBut_hostParts s s.pend w s.out _ s.draws)

/-! ### What one step leaves unchanged (20_memory R91) -/

/-- The next step is a reset event: the pin's, or a CTRL write with bit 0 = 1 by the host (R34, R360). -/
def ResetNext (s : State) : Prop :=
  s.sched.head? = some .reset ∨ ∃ w rest, s.host.prog = .wr 1#4 w :: rest ∧ w.getLsbD 0 = true

/-- The next step may be a CMD write by the host while a command is pending (R152). -/
def LostNext (s : State) : Prop := s.pend ≠ none ∧ ∃ w rest, s.host.prog = .wr 3#4 w :: rest

/-- The fields no command's rule lists that a step may change all the same: those of the host and of the interleaving,
and those every perform may set. -/
def looseParts : List Part := [.pend, .arg, .err, .out, .host, .sched, .draws]

theorem same_of_sched {s : State} {rest : List Turn} {P : Part} (hP : P ∉ looseParts) {t : State}
    (h : P.same { s with sched := rest } t) : P.same s t := by
  cases P <;> simp_all [looseParts, Part.same]

/-- After a reset event every field outside `looseParts` has its reset value (R62, R360). -/
def LeavesReset (s t : State) : Prop := ∀ P ∉ looseParts, P.same s.resetBlock t

theorem leavesReset_withProg (s : State) (rest : List HostOp) : LeavesReset s (s.resetBlock.withProg rest) := by
  intro P hP
  cases P <;> simp_all [looseParts, Part.same]

theorem leavesReset_sched (s : State) (rest : List Turn) {t : State} (h : LeavesReset { s with sched := rest } t) :
    LeavesReset s t :=
  fun P hP => same_of_sched (s := s.resetBlock) (rest := rest) hP (h P hP)

theorem hostTurn_part {s : State} {P : Part} (hP : P ∉ looseParts) :
    P.same s (hostTurn s) ∨
    ((∃ w rest, s.host.prog = .wr 1#4 w :: rest ∧ w.getLsbD 0 = true) ∧ LeavesReset s (hostTurn s)) ∨
    (P = .lost ∧ (hostTurn s).lost = true ∧ LostNext s) := by
  rcases hostTurn_frame s with h | ⟨w, rest, hp, hw, e⟩ | ⟨w, rest, hp, hn, e⟩
  · exact .inl (h P fun hm => hP ((by decide : hostParts ⊆ looseParts) hm))
  · exact .inr (.inl ⟨⟨w, rest, hp, hw⟩, e ▸ leavesReset_withProg s rest⟩)
  · rw [e]
    by_cases hl : P = .lost
    · exact .inr (.inr ⟨hl, rfl, hn, w, rest, hp⟩)
    · left
      cases P <;> simp_all [looseParts, Part.same]

/-- All that a step does to a field outside `looseParts`: a command whose rule lists it is performed, a reset event gives
every such field its reset value, or it is LOST and a CMD write sets it. -/
theorem step_part {s t : State} (h : step s = .next t) {P : Part} (hP : P ∉ looseParts) :
    P.same s t ∨
    (∃ p i u, s.pend = some p ∧ decode p.word = .ok i ∧ P ∈ writesOf i ∧ exec i u = .next t) ∨
    (ResetNext s ∧ LeavesReset s t) ∨
    (P = .lost ∧ t.lost = true ∧ LostNext s) := by
  have hE : P ∉ [.err, .out, .pend] := fun hm => hP ((by decide : [.err, .out, .pend] ⊆ looseParts) hm)
  have engine : ∀ rest, engineTurn { s with sched := rest } = .next t → P.same s t ∨
      ∃ p i u, s.pend = some p ∧ decode p.word = .ok i ∧ P ∈ writesOf i ∧ exec i u = .next t := by
    intro rest he
    rcases engineTurn_part he hE with h | ⟨p, i, hp, hd, hw, hx⟩
    · exact .inl (same_of_sched hP h)
    · exact .inr ⟨p, i, _, hp, hd, hw, hx⟩
  have host : ∀ rest, t = hostTurn { s with sched := rest } → P.same s t ∨
      (ResetNext s ∧ LeavesReset s t) ∨ (P = .lost ∧ t.lost = true ∧ LostNext s) := by
    rintro rest rfl
    rcases hostTurn_part (s := { s with sched := rest }) hP with h | ⟨hr, h⟩ | ⟨hl, ht, hn⟩
    · exact .inl (same_of_sched hP h)
    · exact .inr (.inl ⟨.inr hr, leavesReset_sched s rest h⟩)
    · exact .inr (.inr ⟨hl, ht, hn⟩)
  rcases step_cases h with ⟨rest, _, he⟩ | ⟨rest, _, he⟩ | ⟨rest, hs, rfl⟩ | ⟨_, he, _⟩ | ⟨_, he⟩
  · exact (engine rest he).imp_right .inl
  · exact (host rest he).imp_right .inr
  · exact .inr (.inr (.inl ⟨.inl (by rw [hs]; rfl),
      leavesReset_sched s rest fun Q _ => sameBut_refl [] _ Q (by simp)⟩))
  · exact (engine s.sched he).imp_right .inl
  · exact (host s.sched he).imp_right .inr

/-- The commands that write RES0 or RES1 (R38, R39). -/
theorem result_writers {i : Instr} (h : .res0 ∈ writesOf i ∨ .res1 ∈ writesOf i) :
    i = .clear ∨ i = .encend ∨ i = .decend ∨ i = .rdnode ∨ (∃ c, i = .rdfreq c) ∨ ∃ c, i = .rdcode c := by
  cases i <;> simp_all [writesOf]

/-- CLEAR alone writes LOST (R51). -/
theorem lost_writer {i : Instr} (h : .lost ∈ writesOf i) : i = .clear := by
  cases i <;> simp_all [writesOf]

/-- ARG is in no command's list (R37). -/
theorem arg_not_written (i : Instr) : .arg ∉ writesOf i := by
  cases i <;> simp [writesOf]

/-! ### RES0, RES1, ARG and LOST -/

/-- Settles O12: what a step can do to a field, for RES0 and for RES1. -/
theorem resultRegistersWrittenOnlyBySixCommands : Obligations.ResultRegistersWrittenOnlyBySixCommands := by
  intro s t h hne
  have key : ∀ P : Part, P = .res0 ∨ P = .res1 → ¬ P.same s t →
      (∃ p i, s.pend = some p ∧ decode p.word = .ok i ∧ (.res0 ∈ writesOf i ∨ .res1 ∈ writesOf i)) ∨
        (ResetNext s ∧ LeavesReset s t) := by
    rintro P hP hn
    rcases step_part h (P := P) (by rcases hP with rfl | rfl <;> decide) with
      h | ⟨p, i, _, hp, hd, hw, _⟩ | h | ⟨rfl, _⟩
    · exact absurd h hn
    · exact .inl ⟨p, i, hp, hd, by rcases hP with rfl | rfl <;> simp [hw]⟩
    · exact .inr h
    · simp at hP
  rcases hne.elim (key .res0 (.inl rfl)) (key .res1 (.inr rfl)) with ⟨p, i, hp, hd, hw⟩ | ⟨hr, hl⟩
  · exact .inl ⟨p, i, hp, hd, result_writers hw⟩
  · exact .inr ⟨hl .res0 (by decide), hl .res1 (by decide), hr⟩

/-! ### Register reads (20_memory R81, 40_command_model R160) -/

/-- A register that is exact while busy reads its word, busy or not (R160). -/
theorem portRead_exact {idx : RegIdx} (h : (Reg.ofIdx idx).exactWhileBusy = true) (s : State) :
    portRead idx s = (s.afterRead (Reg.ofIdx idx), s.regWord (Reg.ofIdx idx)) := by
  simp [portRead, h]

/-- Without a pending command every register reads its word (R160). -/
theorem portRead_idle {s : State} (h : s.pend = none) (idx : RegIdx) :
    portRead idx s = (s.afterRead (Reg.ofIdx idx), s.regWord (Reg.ofIdx idx)) := by
  simp [portRead, State.busy, h]

theorem portWrite_arg (w : Word) (s : State) : portWrite 4#4 w s = { s with arg := w } := rfl

theorem portWrite_cmd (w : Word) (s : State) : portWrite 3#4 w s = s.issue w := rfl

theorem portWrite_ctrl (w : Word) (s : State) : portWrite 1#4 w s = s.writeCtrl w := rfl

theorem issue_idle {s : State} (h : s.pend = none) (w : Word) : s.issue w = { s with pend := some ⟨w, s.arg⟩ } := by
  simp [State.issue, h]

theorem issue_busy {s : State} (h : s.pend ≠ none) (w : Word) : s.issue w = { s with lost := true } := by
  obtain ⟨p, hp⟩ := Option.ne_none_iff_exists'.1 h
  simp [State.issue, hp]

/-- Settles O13: the write is an update of ARG, and no command lists ARG. -/
theorem argIsSetOnlyByTheHost : Obligations.ArgIsSetOnlyByTheHost := by
  refine ⟨fun s w => ⟨rfl, ?_, ?_⟩, fun s t h => ?_, fun s => rfl, fun s w w' h => ?_⟩
  · intro P hP
    cases P <;> simp_all [portWrite_arg, Part.same]
  · rw [portRead_exact rfl]
    rfl
  · rcases engineTurn_part h (P := .arg) (by decide) with h | ⟨_, i, _, _, hw, _⟩
    · exact h
    · exact absurd hw (arg_not_written i)
  · rw [portWrite_arg, portWrite_cmd, issue_idle h]

/-! ### No command looks at LOST (10_state R51) -/

/-- `LOST <- b`. -/
def State.setLost (s : State) (b : Bool) : State := { s with lost := b }

/-- The result of a command's pseudocode with LOST set. -/
def setLostBody (b : Bool) (r : Body) : Body := r.map fun x => (x.1.setLost b, x.2)

theorem phaseOk_setLost (i : Instr) (s : State) (b : Bool) : phaseOk i (s.setLost b) = phaseOk i s := by
  cases i <;> rfl

theorem gatedBody_setLost (i : Instr) (s : State) (b : Bool) :
    gatedBody i (s.setLost b) = setLostBody b (gatedBody i s) := by
  cases i with
  | count c =>
    refine ((apply_ite (setLostBody b) (s.total.toNat = maxCount) _ _).trans ?_).symm
    rfl
  | loadf c =>
    refine ((apply_ite (setLostBody b) (loadTotal c s.operandCount s > (maxCount : Int)) _ _).trans ?_).symm
    rfl
  | build =>
    refine ((apply_ite (setLostBody b) (s.nsym = 0#9) _ _).trans ?_).symm
    rfl
  | decend =>
    refine ((apply_ite (setLostBody b) (s.drem ≠ 0#32 ∨ s.dpos ≠ s.root) _ _).trans ?_).symm
    rfl
  | encb c =>
    refine ((apply_ite (setLostBody b) ((s.codeAt c).len = 0) _ _).trans ?_).symm
    exact congrArg (ite _ _) (apply_ite (setLostBody b) (s.ebits.toNat + (s.codeAt c).len > maxCount) _ _)
  | decb c =>
    cases h : walkBits s.nodeAt s.root c bitPositions s.walk with
    | error e =>
      have h' : walkBits (s.setLost b).nodeAt (s.setLost b).root c bitPositions (s.setLost b).walk = .error e := h
      simp only [gatedBody, decbBody, h, h']; rfl
    | ok w =>
      have h' : walkBits (s.setLost b).nodeAt (s.setLost b).root c bitPositions (s.setLost b).walk = .ok w := h
      simp only [gatedBody, decbBody, h, h']; rfl
  | nop | clear | gencode | encend | decstart | rdfreq | rdcode | rdnode => rfl

theorem performGated_setLost (s : State) (ok : Bool) (body : Body) (b : Bool) :
    (s.setLost b).performGated ok (setLostBody b body) = (s.performGated ok body).setLost b := by
  by_cases herr : s.err = .none
  · have herr' : (s.setLost b).err = .none := herr
    cases ok
    · rw [performGated_phase herr, performGated_phase herr']; rfl
    · rcases body with e | ⟨t, o⟩
      · rw [performGated_error herr]; exact performGated_error herr' e
      · rw [performGated_ok herr]
        refine (performGated_ok herr' (t.setLost b) o).trans ?_
        refine ((apply_ite (State.setLost · b) (s.fits o = true) _ _).trans ?_).symm
        rfl
  · have herr' : (s.setLost b).err ≠ .none := herr
    rw [performGated_err herr, performGated_err herr']; rfl

theorem alwaysState_setLost {i : Instr} (h : i ≠ .clear) (s : State) (b : Bool) :
    alwaysState i (s.setLost b) = (alwaysState i s).setLost b := by
  cases i with
  | clear => exact absurd rfl h
  | _ => rfl

/-- Every command but CLEAR does the same whatever LOST is (R51). -/
theorem exec_setLost {i : Instr} {s t : State} (h : exec i s = .next t) (hc : i ≠ .clear) (b : Bool) :
    exec i (s.setLost b) = .next (t.setLost b) := by
  cases hg : passesGate i with
  | true =>
    rw [exec_always hg] at h ⊢
    cases h
    rw [alwaysState_setLost hc]
    rfl
  | false =>
    rw [exec_gated hg] at h ⊢
    cases h
    rw [phaseOk_setLost, gatedBody_setLost, performGated_setLost]

theorem clear_lost {s t : State} (h : exec .clear s = .next t) : t.lost = false := by
  cases h
  rfl

/-- Settles O14: what a step can do to LOST, and that no command looks at it. -/
theorem lostIsSetAndClearedAsStated : Obligations.LostIsSetAndClearedAsStated := by
  refine ⟨fun s t h h0 h1 => ?_, fun s t h h1 h0 => ?_, fun s w h => ?_, fun s t h => clear_lost h, fun s => rfl,
    fun i s t b h hc => exec_setLost h hc b⟩
  · rcases step_part h (P := .lost) (by decide) with hs | ⟨_, i, u, _, _, hw, hx⟩ | ⟨_, hr⟩ | ⟨_, _, hl⟩
    · exact absurd (h1.symm.trans (hs.trans h0)) (by decide)
    · cases lost_writer hw
      exact absurd (h1.symm.trans (clear_lost hx)) (by decide)
    · exact absurd (h1.symm.trans (show t.lost = false from hr .lost (by decide))) (by decide)
    · exact hl
  · rcases step_part h (P := .lost) (by decide) with hs | ⟨p, i, _, hp, hd, hw, _⟩ | ⟨hr, _⟩ | ⟨_, hl, _⟩
    · exact absurd (h0.symm.trans (hs.trans h1)) (by decide)
    · cases lost_writer hw
      exact .inl ⟨p, hp, hd⟩
    · exact .inr hr
    · exact absurd (h0.symm.trans hl) (by decide)
  · rw [portWrite_cmd, issue_busy h]

/-! ### What a reset event leaves (10_state R62) -/

theorem ofIdx_eq_id {idx : RegIdx} (h : Reg.ofIdx idx = .id) : idx = 0#4 := by
  revert idx
  decide

/-- After a reset event every register but ID reads 0: OUTFULL is 0 since OUT_DEPTH is not 0 (R9). -/
theorem regWord_resetBlock (s : State) {r : Reg} (h : r ≠ .id) : s.resetBlock.regWord r = 0#32 := by
  have hfull : s.resetBlock.outFull = false := by
    have := s.config.depth_min
    simp [State.outFull]; omega
  cases r with
  | id => exact absurd rfl h
  | status => simp [State.regWord, State.statusWord, hfull, State.outNonEmpty, State.busy, bit, ErrCode.code]
  | treeinfo => simp [State.regWord, State.treeInfoWord]
  | dpos => simp [State.regWord, State.dposWord]
  | pack => simp [State.regWord, State.packWord]
  | _ => rfl

/-- Settles O25: the reset values field by field, and the registers computed from them. -/
theorem resetEventLeavesTheResetValues : Obligations.ResetEventLeavesTheResetValues := by
  unfold Obligations.ResetEventLeavesTheResetValues
  intro isReset
  have reset : ∀ s : State, isReset s.resetBlock := by
    intro s
    refine ⟨rfl, rfl, rfl, rfl, rfl, rfl, rfl, rfl, rfl, freqAt_resetBlock s, rfl, rfl, rfl, rfl, rfl, rfl, rfl, rfl, rfl,
      rfl, rfl, rfl, ?_, fun idx hidx => ?_⟩
    · rw [portRead_exact rfl]
      rfl
    · rw [portRead_idle (State.resetBlock_pend s)]
      exact regWord_resetBlock s fun h => hidx (ofIdx_eq_id h)
  refine ⟨reset State.reset, fun s rest hs => ⟨State.resetBlock { s with sched := rest }, ?_, reset _⟩,
    fun s w hw => ?_, fun s w hw => ?_⟩
  · simp [step, hs, takeTurn]
  · rw [portWrite_ctrl, State.writeCtrl, if_pos hw]
    exact reset s
  · rw [portWrite_ctrl, State.writeCtrl, if_neg (by rw [hw]; decide)]

/-! ### Fields of the register words (10_state R35, R40, R45, R47, R48) -/

@[simp] theorem bit_getLsbD_zero (b : Bool) : (bit b).getLsbD 0 = b := by
  cases b <;> rfl

/-- The word of a byte in OUT: VALID above the byte (R40). -/
theorem outWord_toNat {s : State} {b : Byte} {rest : List Byte} (h : s.out = b :: rest) :
    s.outWord.toNat = 256 + b.toNat := by
  have hb := b.isLt
  simp only [State.outWord, h, BitVec.toNat_append]
  rw [← Nat.shiftLeft_add_eq_or_of_lt (by omega)]
  simp

theorem outWord_nil {s : State} (h : s.out = []) : s.outWord = 0#32 := by
  rw [State.outWord, h]

/-- A read of OUT returns its word and drops its head, busy or not (R40, R160). -/
theorem portRead_out (s : State) : portRead 7#4 s = ({ s with out := s.out.tail }, s.outWord) := portRead_exact rfl s

/-- Settles O21: the word of the head byte, and the pop. -/
theorem outReadPopsTheHead : Obligations.OutReadPopsTheHead := by
  refine ⟨fun s b rest h => ?_, fun s h => ?_, fun s w => rfl⟩
  · rw [portRead_out]
    refine ⟨outWord_toNat h, congrArg List.tail h, fun P hP => ?_⟩
    cases P <;> simp_all [Part.same]
  · rw [portRead_out, outWord_nil h, h, List.tail_nil, ← h]

theorem outNonEmpty_eq (s : State) : s.outNonEmpty = decide (s.out.length > 0) := by
  cases h : s.out <;> simp [State.outNonEmpty, h]

/-- Settles O20: STATUS field by field, from the word's parts; OUTLVL holds the length because OUT_DEPTH is at most
255 (R9). -/
theorem statusFieldsAreExact : Obligations.StatusFieldsAreExact := by
  intro s hq
  have hlen : s.out.length < 2 ^ 8 := Nat.lt_of_le_of_lt (Nat.le_trans hq s.config.depth_max) (by decide)
  refine ⟨s.statusWord, portRead_exact rfl s, ?_⟩
  simp (disch := decide) only [State.statusWord, BitVec.getLsbD_append, BitVec.extractLsb'_append_eq_of_le,
    BitVec.extractLsb'_append_eq_of_add_le, BitVec.extractLsb'_eq_self, Nat.reduceLT, Nat.reduceSub, if_true, if_false,
    bit_getLsbD_zero, true_and]
  exact ⟨rfl, outNonEmpty_eq s, rfl, rfl, Nat.mod_eq_of_lt hlen, fun _ => rfl⟩

/-- NCOUNT, a 10-bit counter, fits the nine bits of TREEINFO (R45, R61). -/
theorem ncount_lt_of_inv {s : State} (h : Inv s) : s.ncount.toNat < 2 ^ 9 := by
  cases ht : s.tv with
  | true =>
    have tr := tree_of_inv h ht
    have := tr.length_pos.2
    have := tr.length_eq
    omega
  | false =>
    obtain ⟨_, _, _, hno, _⟩ := h
    rw [(hno ht).2]
    decide

/-- Settles O23: the fields from the parts of the words; NSYM and NCOUNT by the invariants. -/
theorem treeInfoDposAndPackFields : Obligations.TreeInfoDposAndPackFields := by
  intro s hi hp
  have hn := ncount_lt_of_inv hi
  obtain ⟨_, hnsym, _, hno, _⟩ := hi
  refine ⟨⟨s.treeInfoWord, portRead_idle hp _, ?_⟩, ⟨s.dposWord, portRead_idle hp _, ?_⟩,
    ⟨s.packWord, portRead_idle hp _, ?_⟩⟩ <;>
    simp (disch := decide) only [State.treeInfoWord, State.dposWord, State.packWord,
      BitVec.extractLsb'_append_eq_of_le, BitVec.extractLsb'_append_eq_of_add_le, BitVec.extractLsb'_eq_self,
      Nat.reduceSub, true_and, and_true]
  refine ⟨?_, hnsym, fun ht => ?_⟩
  · rw [BitVec.extractLsb'_toNat, Nat.shiftRight_zero, Nat.mod_eq_of_lt hn]
  · rw [(hno ht).1, (hno ht).2]
    apply BitVec.eq_of_getLsbD_eq
    intro k hk
    simp only [BitVec.getLsbD_extractLsb', BitVec.getLsbD_append, BitVec.getLsbD_zero, Nat.zero_add]
    have hk' : k - 9 < 9 := by omega
    simp [hk']

end Sys2Proof.Machine

/-! SUPPORT. The invariants of 10_state R61: a reset event gives them, and every step of every agent keeps them. -/

namespace Sys2Proof.Machine

/-! ### The invariants after a reset event (10_state R61, R62) -/

theorem freqSum_resetBlock (s : State) : freqSum s.resetBlock.freqAt = 0 := by
  simp [freqSum, freqAt_resetBlock]

/-- A reset event gives the invariants in any state: nothing is counted, and the flags are 0. -/
theorem inv_resetBlock (s : State) : Inv s.resetBlock :=
  ⟨(freqSum_resetBlock s).symm, ((entryCount_zero_iff _).2 (freqAt_resetBlock s)).symm,
    ⟨fun h => absurd h Bool.false_ne_true, fun h => absurd h Bool.false_ne_true⟩, fun _ => ⟨rfl, rfl⟩,
    fun h => absurd h Bool.false_ne_true, fun h => absurd h Bool.false_ne_true, ⟨rfl, fun _ _ => BitVec.getLsbD_zero⟩,
    fun h => absurd h Bool.false_ne_true, Nat.zero_le _, fun _ => rfl, Nat.zero_le _⟩

theorem inv_clearBlock (s : State) : Inv s.clearBlock :=
  inv_congr (s := s.resetBlock) (fun P hP => by cases P <;> simp_all [Part.same, idleParts]) (inv_resetBlock s)

/-- Settles O59: the reset state is what a reset event leaves of it. -/
theorem invariantsHoldAtReset : Obligations.InvariantsHoldAtReset := inv_resetBlock State.reset

/-! ### The invariants after a command's own effect -/

/-- Without a tree there are no codes and no open decode (R61). -/
theorem inv_no_tree {s : State} (h : Inv s) (ht : s.tv = false) : s.cv = false ∧ s.da = false := by
  obtain ⟨_, _, ⟨hc, hd⟩, _⟩ := h
  exact ⟨Bool.eq_false_iff.2 fun e => absurd ((hc e).symm.trans ht) (by decide),
    Bool.eq_false_iff.2 fun e => absurd ((hd e).symm.trans ht) (by decide)⟩

/-- Before BUILD an entry of FREQ may change, if TOTAL and NSYM follow it (R180, R181). -/
theorem inv_setFreq {s : State} (h : Inv s) (ht : s.tv = false) (c : Byte) (k : Word) {total : Word} {nsym : BitVec 9}
    (htotal : total.toNat = freqSum (s.setFreq c k).freqAt) (hnsym : nsym.toNat = entryCount (s.setFreq c k).freqAt) :
    Inv { s.setFreq c k with nsym := nsym, total := total } := by
  obtain ⟨hcv, _⟩ := inv_no_tree h ht
  obtain ⟨_, _, hphase, hno, _, _, hpack, hwalk, hq, herr, hcount⟩ := h
  exact ⟨htotal, hnsym, hphase, hno, fun e => absurd (ht.symm.trans e) (by decide),
    fun e => absurd (hcv.symm.trans e) (by decide), hpack, hwalk, hq, herr, hcount⟩

/-- NSYM as LOADF computes it is the number of entries after the change (R181). -/
theorem loadNsym_eq {s : State} (h : InvNsym s) (c : Byte) (k : Word) :
    (loadNsym c k s).toNat = entryCount (s.setFreq c k).freqAt := by
  have hent := entryCount_setFreq s c k
  have hle := entryCount_le (s.setFreq c k).freqAt
  have hns : s.nsym.toNat = entryCount s.freqAt := h
  by_cases hc : s.freqAt c = 0#32 <;> by_cases hk : k = 0#32 <;>
    simp only [loadNsym, hc, hk, ne_eq, not_true_eq_false, not_false_eq_true, and_self, and_true, and_false, if_true,
      if_false] at hent hle ⊢
  · omega
  · rw [BitVec.toNat_add, BitVec.toNat_ofNat]; omega
  · rw [BitVec.toNat_sub, BitVec.toNat_ofNat]; omega
  · omega

theorem inv_count {s u : State} {c : Byte} {o : List Byte} (h : Inv s) (ht : s.tv = false)
    (hb : countBody c s = .ok (u, o)) : Inv u := by
  unfold countBody at hb
  split at hb
  · simp at hb
  · rename_i hmax
    cases hb
    have ⟨htot, hns, _⟩ := h
    have htot : s.total.toNat = freqSum s.freqAt := htot
    have hsum := freqSum_setFreq s c (s.freqAt c + 1#32)
    have hle := freqAt_le_freqSum s.freqAt c
    have hlt := s.total.isLt
    simp only [maxCount] at hmax
    have hk : (s.freqAt c + 1#32).toNat = (s.freqAt c).toNat + 1 := by
      rw [BitVec.toNat_add, BitVec.toNat_ofNat]; omega
    have hk0 : s.freqAt c + 1#32 ≠ 0#32 := fun e => by
      rw [e, BitVec.toNat_ofNat] at hk; omega
    have hnsym : loadNsym c (s.freqAt c + 1#32) s = if s.freqAt c = 0#32 then s.nsym + 1#9 else s.nsym := by
      simp [loadNsym, hk0]
    refine inv_setFreq h ht c _ ?_ (hnsym ▸ loadNsym_eq hns c _)
    rw [BitVec.toNat_add, BitVec.toNat_ofNat]; omega

theorem inv_loadf {s u : State} {c : Byte} {k : Word} {o : List Byte} (h : Inv s) (ht : s.tv = false)
    (hb : loadfBody c k s = .ok (u, o)) : Inv u := by
  unfold loadfBody at hb
  split at hb
  · simp at hb
  · rename_i hmax
    cases hb
    have ⟨htot, hns, _⟩ := h
    have htot : s.total.toNat = freqSum s.freqAt := htot
    have hsum := freqSum_setFreq s c k
    have hload : loadTotal c k s = (freqSum (s.setFreq c k).freqAt : Int) := by
      unfold loadTotal; omega
    refine inv_setFreq h ht c _ ?_ (loadNsym_eq hns c k)
    simp only [hload, maxCount] at hmax ⊢
    rw [BitVec.ofInt_natCast, BitVec.toNat_ofNat]
    omega

theorem inv_build {s u : State} {o : List Byte} (h : Inv s) (ht : s.tv = false) (hb : buildBody s = .ok (u, o)) :
    Inv u := by
  unfold buildBody at hb
  split at hb
  · simp at hb
  · rename_i hne
    cases hb
    obtain ⟨hcv, hda⟩ := inv_no_tree h ht
    have hsum := freqSum_le_of_inv h
    obtain ⟨htot, hns, _, _, _, _, hpack, _, hq, herr, hcount⟩ := h
    have hpos : 1 ≤ s.nsym.toNat := Nat.one_le_iff_ne_zero.2 fun e => hne (BitVec.eq_of_toNat_eq e)
    have hN := entryCount_le s.freqAt
    have hlen := (treeNodes_shape hsum (hns ▸ hpos)).length_eq
    rw [leafNodes_length, ← hns] at hlen
    have hbound : 2 ≤ (treeNodes s.freqAt).length ∧ (treeNodes s.freqAt).length ≤ 511 := by
      split at hlen <;> omega
    have hnc : (BitVec.ofNat 10 (treeNodes s.freqAt).length).toNat = (treeNodes s.freqAt).length := by
      rw [BitVec.toNat_ofNat]; omega
    refine ⟨htot, hns, ⟨fun _ => rfl, fun _ => rfl⟩, fun e => absurd e.symm Bool.false_ne_true,
      fun _ => ⟨hpos, hnc.trans hlen, ?_, rfl⟩, fun e => absurd (hcv.symm.trans e) (by decide), hpack,
      fun e => absurd (hda.symm.trans e) (by decide), hq, herr, hcount⟩
    show (BitVec.ofNat 9 ((treeNodes s.freqAt).length - 1)).toNat =
      (BitVec.ofNat 10 (treeNodes s.freqAt).length).toNat - 1
    rw [hnc, BitVec.toNat_ofNat]
    omega

theorem inv_encb {s u : State} {c : Byte} {o : List Byte} (h : Inv s) (hb : encbBody c s = .ok (u, o)) : Inv u := by
  unfold encbBody at hb
  simp only [] at hb
  split at hb
  · simp at hb
  · split at hb
    · simp at hb
    · rename_i hmax
      cases hb
      obtain ⟨htot, hns, hphase, hno, htree, hcode, ⟨hfill, hclean⟩, hwalk, hq, herr, hcount⟩ := h
      refine ⟨htot, hns, hphase, hno, htree, hcode, ⟨?_, ?_⟩, hwalk, hq, herr, hcount⟩
      · simp only [maxCount] at hmax
        have := putBits_pfill s.packer (s.codeAt c).bits
        simp only [State.packer, List.length_nil, hfill, CodeRec.len] at this hmax ⊢
        rw [this, BitVec.toNat_ofNat]
        omega
      · exact putBits_clean (p := s.packer) hclean _

theorem inv_decstart {s u : State} {n : Word} {o : List Byte} (h : Inv s) (ht : s.tv = true)
    (hb : decstartBody n s = .ok (u, o)) : Inv u := by
  cases hb
  have tr := tree_of_inv h ht
  obtain ⟨htot, hns, ⟨hcv, _⟩, hno, htree, hcode, hpack, _, hq, herr, _⟩ := h
  have hn := n.isLt
  exact ⟨htot, hns, ⟨hcv, fun _ => ht⟩, hno, htree, hcode, hpack,
    fun _ => ⟨tr.length_eq ▸ tr.root_lt, tr.root_internal⟩, hq, herr, by
      show 0 + n.toNat ≤ maxCount
      unfold maxCount; omega⟩

theorem inv_decb {s u : State} {b : Byte} {o : List Byte} (h : Inv s) (hd : s.da = true)
    (hb : decbBody b s = .ok (u, o)) : Inv u := by
  unfold decbBody at hb
  rw [walkBits_eq] at hb
  simp only [State.walk] at hb
  cases hw : decodeBits s.nodeAt s.root s.dpos (takenBits bitPositions b s.drem) with
  | none => rw [hw] at hb; simp at hb
  | some r =>
    obtain ⟨d, syms⟩ := r
    rw [hw] at hb
    cases hb
    have ⟨_, _, ⟨_, htv⟩, _⟩ := h
    have tr := tree_of_inv h (htv hd)
    obtain ⟨htot, hns, hphase, hno, htree, hcode, hpack, hwalk, hq, herr, hcount⟩ := h
    obtain ⟨hlt, hint⟩ := hwalk hd
    obtain ⟨h1, h2, h3⟩ := tr.walk_end (by rw [tr.length_eq]; exact hlt) hint hw
    refine ⟨htot, hns, hphase, hno, htree, hcode, hpack, fun _ => ⟨tr.length_eq ▸ h1, h2⟩, hq, herr, ?_⟩
    have htk : (takenBits bitPositions b s.drem).length ≤ s.drem.toNat := by
      simp [takenBits]
    have hc : s.dcount.toNat + s.drem.toNat ≤ maxCount := hcount
    show (s.dcount + BitVec.ofNat 32 syms.length).toNat +
      (s.drem - BitVec.ofNat 32 (takenBits bitPositions b s.drem).length).toNat ≤ maxCount
    simp only [maxCount, BitVec.toNat_add, BitVec.toNat_sub, BitVec.toNat_ofNat] at hc ⊢
    omega

theorem inv_decend {s u : State} {o : List Byte} (h : Inv s) (hb : decendBody s = .ok (u, o)) : Inv u := by
  unfold decendBody at hb
  split at hb
  · simp at hb
  · cases hb
    obtain ⟨htot, hns, ⟨hcv, _⟩, hno, htree, hcode, hpack, _, hrest⟩ := h
    exact ⟨htot, hns, ⟨hcv, fun e => absurd e Bool.false_ne_true⟩, hno, htree, hcode, hpack,
      fun e => absurd e Bool.false_ne_true, hrest⟩

/-- A command's own effect keeps the invariants, where its phase condition holds. -/
theorem inv_body {i : Instr} {s u : State} {o : List Byte} (h : Inv s) (hp : phaseOk i s = true)
    (hb : gatedBody i s = .ok (u, o)) : Inv u := by
  cases i with
  | count c => exact inv_count h (by simpa [phaseOk] using hp) hb
  | loadf c => exact inv_loadf h (by simpa [phaseOk] using hp) hb
  | build => exact inv_build h (by simpa [phaseOk] using hp) hb
  | gencode =>
    cases hb
    simp only [phaseOk, Bool.and_eq_true] at hp
    obtain ⟨htot, hns, ⟨_, hda⟩, hno, htree, _, hrest⟩ := h
    exact ⟨htot, hns, ⟨fun _ => hp.1, hda⟩, hno, htree, fun _ => rfl, hrest⟩
  | encb c => exact inv_encb h hb
  | encend =>
    cases hb
    obtain ⟨htot, hns, hphase, hno, htree, hcode, _, hrest⟩ := h
    exact ⟨htot, hns, hphase, hno, htree, hcode, ⟨rfl, fun _ _ => BitVec.getLsbD_zero⟩, hrest⟩
  | decstart => exact inv_decstart h (by simp_all [phaseOk]) hb
  | decb b => exact inv_decb h hp hb
  | decend => exact inv_decend h hb
  | nop | clear | rdfreq | rdcode | rdnode => cases hb; exact h

/-! ### The invariants after a step (R61) -/

/-- Bytes that fit may go to the tail of OUT where there is no error (R156). -/
theorem inv_append {u : State} (h : Inv u) (he : u.err = .none) {outl : List Byte}
    (hf : outl = [] ∨ u.out.length + outl.length ≤ u.config.outDepth) :
    Inv { u with out := u.out ++ outl, pend := none } := by
  obtain ⟨htot, hns, hphase, hno, htree, hcode, hpack, hwalk, hq, _, hcount⟩ := h
  refine ⟨htot, hns, hphase, hno, htree, hcode, hpack, hwalk, ?_, fun hn => absurd he hn, hcount⟩
  show (u.out ++ outl).length ≤ u.config.outDepth
  rcases hf with rfl | hf
  · rw [List.append_nil]; exact hq
  · rw [List.length_append]; exact hf

theorem inv_gated {i : Instr} {s : State} (hg : passesGate i = false) (h : Inv s) :
    Inv (s.performGated (phaseOk i s) (gatedBody i s)) := by
  rcases performGated_cases s (phaseOk i s) (gatedBody i s) with
    ⟨_, e⟩ | ⟨_, _, e⟩ | ⟨_, _, x, _, e⟩ | ⟨h0, hp, u, outl, hb, hf, e⟩ | ⟨_, _, _, _, _, _, e⟩ <;> rw [e]
  · exact inv_done h
  · exact inv_fail h _
  · exact inv_fail h x
  · obtain ⟨hframe, hout, _, _⟩ := body_frame hg hb
    have hconf : u.config = s.config := hframe .config (by cases i <;> simp [writesOf])
    exact inv_append (inv_body h hp hb) ((body_err hb).trans h0) (by rw [hout, hconf]; exact (fits_iff s outl).1 hf)
  · exact h

theorem inv_always {s : State} (i : Instr) (h : Inv s) : Inv (alwaysState i s) := by
  cases i with
  | clear => exact inv_clearBlock s
  | _ => exact h

theorem inv_exec {i : Instr} {s t : State} (h : Inv s) (he : exec i s = .next t) : Inv t := by
  cases hg : passesGate i with
  | true =>
    rw [exec_always hg] at he
    cases he
    exact inv_done (inv_always i h)
  | false =>
    rw [exec_gated hg] at he
    cases he
    exact inv_gated hg h

theorem inv_engineTurn {s t : State} (h : Inv s) (he : engineTurn s = .next t) : Inv t := by
  rcases engineTurn_cases he with ⟨_, rfl⟩ | ⟨_, _, _, _, hx⟩ | ⟨_, _, _, _, rfl⟩
  · exact h
  · exact inv_exec h hx
  · rcases performIllegal_cases s with ⟨_, e⟩ | ⟨_, e⟩ <;> rw [e]
    · exact inv_done h
    · exact inv_fail h _

theorem inv_portWrite {s : State} (h : Inv s) (idx : RegIdx) (w : Word) : Inv (portWrite idx w s) := by
  rcases portWrite_cases idx w s with e | ⟨_, _, e⟩ | ⟨_, _, e⟩ | ⟨_, _, e⟩ | ⟨_, e⟩ <;> rw [e]
  · exact h
  · exact inv_resetBlock s
  · exact h
  · exact h
  · exact h

theorem inv_hostTurn {s : State} (h : Inv s) : Inv (hostTurn s) := by
  rcases hostTurn_cases s with ⟨host, out, draws, e, ho⟩ | ⟨idx, w, rest, _, e⟩ <;> rw [e]
  · exact inv_out (out := out) h (by rcases ho with rfl | rfl <;> simp)
  · exact inv_portWrite h idx w

/-- Settles O60: each agent's turn keeps the invariants. -/
theorem everyStepKeepsTheInvariants : Obligations.EveryStepKeepsTheInvariants := by
  intro s t h hs
  have hsched : ∀ rest, Inv { s with sched := rest } := fun _ => h
  rcases step_cases hs with ⟨rest, _, he⟩ | ⟨rest, _, rfl⟩ | ⟨rest, _, rfl⟩ | ⟨_, he, _⟩ | ⟨_, rfl⟩
  · exact inv_engineTurn (hsched rest) he
  · exact inv_hostTurn (hsched rest)
  · exact inv_resetBlock _
  · exact inv_engineTurn h he
  · exact inv_hostTurn h

end Sys2Proof.Machine

/-! SUPPORT. The register port and the interleaving (20_memory): writes to read-only registers, and what a step at the
engine's turn is. -/

namespace Sys2Proof.Machine

/-! ### Writes to read-only registers (20_memory R86) -/

/-- Only CTRL, CMD and ARG take a write (R34, R86). -/
theorem portWrite_readOnly {idx : RegIdx} (hctrl : idx ≠ 1#4) (hcmd : idx ≠ 3#4) (harg : idx ≠ 4#4) (w : Word)
    (s : State) : portWrite idx w s = s := by
  rcases portWrite_cases idx w s with e | ⟨h, _⟩ | ⟨h, _⟩ | ⟨h, _⟩ | ⟨h, _⟩
  · exact e
  · exact absurd h hctrl
  · exact absurd h hcmd
  · exact absurd h hcmd
  · exact absurd h harg

/-- Settles O24: none of the thirteen indices is that of CTRL, CMD or ARG. -/
theorem writesToReadOnlyRegistersAreIgnored : Obligations.WritesToReadOnlyRegistersAreIgnored := by
  intro s w idx hidx
  refine portWrite_readOnly ?ctrl ?cmd ?arg w s <;> rintro rfl <;> exact absurd hidx (by decide)

/-! ### A step at the engine's turn (20_memory R91, 40_command_model R153) -/

/-- The engine performs a pending command whose word decodes (R153, R154). -/
theorem engineTurn_of_decode {s : State} {p : PendCmd} {i : Instr} (hp : s.pend = some p)
    (hd : decode p.word = .ok i) : engineTurn s = exec i s := by
  simp only [engineTurn, hp, hd]

/-- A listed turn is the next one taken (R91; log 4). -/
theorem step_of_sched {s : State} {turn : Turn} {rest : List Turn} (h : s.sched = turn :: rest) :
    step s = takeTurn turn { s with sched := rest } := by
  simp only [step, h]

/-- With no turn listed, a pending command that completes is performed (log 4). -/
theorem step_of_completes {s t : State} (hs : s.sched = []) (hp : s.pend ≠ none) (he : engineTurn s = .next t)
    (ht : t.pend = none) : step s = .next t := by
  have hbusy : s.busy = true := Option.isSome_iff_ne_none.2 hp
  have hdone : t.busy = false := by rw [State.busy, ht, Option.isSome_none]
  simp [step, hs, defaultTurn, he, hbusy, hdone]

theorem decodeTableWord_eq_some {nbits w : Nat} {i : Instr} (h : decodeTableWord nbits w = some i) :
    decode (tableWord nbits w) = .ok i := by
  unfold decodeTableWord at h
  split at h
  · cases h
    assumption
  · cases h

/-- A listed turn of the engine is `exec` of the pending command (R91, R153). -/
theorem step_of_engine_listed {s : State} {p : PendCmd} {i : Instr} {rest : List Turn} (hs : s.sched = .engine :: rest)
    (hp : s.pend = some p) (hd : decode p.word = .ok i) : step s = exec i { s with sched := rest } :=
  (step_of_sched hs).trans (engineTurn_of_decode (s := { s with sched := rest }) hp hd)

/-- Settles O5: `withFetchWord` lists a turn of the engine, and an enabled command takes the default turn. -/
theorem stepPerformsThePendingCommand : Obligations.StepPerformsThePendingCommand := by
  refine ⟨?listed, ?fetched, ?default⟩
  case listed => exact fun s p i rest hs hp hd => step_of_engine_listed hs hp hd
  case fetched =>
    intro s nbits w i h
    exact step_of_engine_listed (s := s.withFetchWord nbits w) rfl rfl (decodeTableWord_eq_some h)
  case default =>
    intro s t p i hs hp hd he ht
    exact step_of_completes hs (by rw [hp]; exact Option.some_ne_none p) ((engineTurn_of_decode hp hd).trans he) ht

end Sys2Proof.Machine

/-! SUPPORT. Command words (30_encoding R120-R126): the decoder and the encoder, and the opcode map. -/

namespace Sys2Proof

open Laws.EncodedFormat (rsv_encode opc_encode sym_encode)

/-! ### The fields of a command word (30_encoding R120-R122) -/

/-- A word is its three fields (R120). -/
theorem fields_append (w : Word) : rsvField w ++ symField w ++ opcField w = w := by
  rw [rsvField, symField, opcField, BitVec.extractLsb'_append_extractLsb'_eq_extractLsb' (show 16 = 8 + 8 from rfl),
    BitVec.extractLsb'_append_extractLsb'_eq_extractLsb' (show 8 = 0 + 8 from rfl)]
  exact BitVec.extractLsb'_eq_self

/-- The word of a command is the one whose fields are the command's (R120, R130). -/
theorem encode_eq_iff {i : Instr} {w : Word} :
    encode i = w ↔ rsvField w = 0#16 ∧ symField w = i.sym ∧ opcField w = i.opc := by
  constructor
  · rintro rfl
    exact ⟨rsv_encode i, sym_encode i, opc_encode i⟩
  · rintro ⟨hr, hs, ho⟩
    rw [← fields_append w, hr, hs, ho, encode]

/-! ### The decoder (30_encoding R125, R126) -/

theorem formN_eq_ok_iff {c : Byte} {i j : Instr} : formN c i = .ok j ↔ c = 0#8 ∧ i = j := by
  by_cases h : c = 0#8 <;> simp [formN, h]

/-- What a word that decodes looks like: each arm of the decoder, form N, form S and the reserved opcodes apart. -/
theorem fields_of_decode_eq_ok {w : Word} {i : Instr} (h : decode w = .ok i) :
    rsvField w = 0#16 ∧ symField w = i.sym ∧ opcField w = i.opc := by
  unfold decode at h
  split at h
  · cases h
  · rename_i hr
    refine ⟨not_not.1 hr, ?_⟩
    split at h
    case h_1 ho | h_2 ho | h_5 ho | h_6 ho | h_8 ho | h_9 ho | h_11 ho | h_14 ho =>
      obtain ⟨hs, rfl⟩ := formN_eq_ok_iff.1 h
      exact ⟨hs, BitVec.eq_of_toNat_eq ho⟩
    case h_3 ho | h_4 ho | h_7 ho | h_10 ho | h_12 ho | h_13 ho =>
      cases h
      exact ⟨rfl, BitVec.eq_of_toNat_eq ho⟩
    case h_15 => cases h

theorem decode_encode (i : Instr) : decode (encode i) = .ok i := by
  rw [decode, rsv_encode, opc_encode, sym_encode, if_neg (not_not.2 rfl)]
  cases i <;> rfl

theorem decode_eq_ok_iff {w : Word} {i : Instr} : decode w = .ok i ↔ encode i = w :=
  ⟨fun h => encode_eq_iff.2 (fields_of_decode_eq_ok h), fun h => h ▸ decode_encode i⟩

/-- Settles O1: the fields of the word are the command's, read both ways. -/
theorem decodeIsTheInverseOfEncode : Obligations.DecodeIsTheInverseOfEncode := fun _ _ => decode_eq_ok_iff

/-- Settles O4: each word is the word of its command. -/
theorem specWordsDecodeAsWritten : Obligations.SpecWordsDecodeAsWritten := by
  have dec : ∀ {w : Word} {i : Instr}, encode i = w → decode w = .ok i := decode_eq_ok_iff.2
  exact ⟨dec rfl, dec rfl, dec rfl, dec rfl, dec rfl, dec rfl, dec rfl, dec rfl, dec rfl, dec rfl, dec rfl, dec rfl,
    dec rfl, dec rfl⟩

/-! ### The opcode map (30_encoding R124, R125) -/

/-- No two rows have the same opcode (R125). -/
theorem opcodeRows_eq_of_opc {r r' : OpcodeRow} (hr : r ∈ opcodeRows) (hr' : r' ∈ opcodeRows)
    (h : opcField r.pattern = opcField r'.pattern) : r = r' := by
  have distinct : ∀ r ∈ opcodeRows, ∀ r' ∈ opcodeRows, opcField r.pattern = opcField r'.pattern → r = r' := by decide
  exact distinct r hr r' hr' h

/-- Every row compares OPC and RSV whole, and its RSV is 0 (R125). -/
theorem opcodeRows_mask {r : OpcodeRow} (hr : r ∈ opcodeRows) :
    opcField r.mask = BitVec.allOnes 8 ∧ rsvField r.mask = BitVec.allOnes 16 ∧ rsvField r.pattern = 0#16 := by
  revert r
  decide

theorem eq_of_and_allOnes {n : Nat} {x m p : BitVec n} (hm : m = BitVec.allOnes n) (h : x &&& m = p) : x = p := by
  rwa [hm, BitVec.and_allOnes] at h

/-- A word that a row matches has the row's opcode and RSV = 0, and its SYM passes the row's mask (R125). -/
theorem fields_of_match {r : OpcodeRow} {w : Word} (hr : r ∈ opcodeRows) (h : w &&& r.mask = r.pattern) :
    rsvField w = 0#16 ∧ symField w &&& symField r.mask = symField r.pattern ∧ opcField w = opcField r.pattern := by
  obtain ⟨hopc, hrsv, hzero⟩ := opcodeRows_mask hr
  have field : ∀ k n, w.extractLsb' k n &&& r.mask.extractLsb' k n = r.pattern.extractLsb' k n := fun k n => by
    rw [← h, BitVec.extractLsb'_and]
  exact ⟨(eq_of_and_allOnes hrsv (field 16 16)).trans hzero, field 8 8, eq_of_and_allOnes hopc (field 0 8)⟩

/-- The commands of a row: its mnemonic, its opcode, and any symbol its mask lets through (R121, R125). -/
theorem exists_instr_of_row {r : OpcodeRow} {c : Byte} (hr : r ∈ opcodeRows)
    (hc : c &&& symField r.mask = symField r.pattern) :
    ∃ i : Instr, i.mnemonic = r.mnemonic ∧ c = i.sym ∧ opcField r.pattern = i.opc := by
  have zero : c &&& symField maskN = 0#8 → c = 0#8 := eq_of_and_allOnes (by decide)
  simp only [opcodeRows, List.cons_append, List.nil_append, List.mem_cons, List.not_mem_nil, or_false] at hr
  rcases hr with rfl | rfl | rfl | rfl | rfl | rfl | rfl | rfl | rfl | rfl | rfl | rfl | rfl | rfl
  · exact ⟨.nop, rfl, zero hc, rfl⟩
  · exact ⟨.clear, rfl, zero hc, rfl⟩
  · exact ⟨.count c, rfl, rfl, rfl⟩
  · exact ⟨.loadf c, rfl, rfl, rfl⟩
  · exact ⟨.build, rfl, zero hc, rfl⟩
  · exact ⟨.gencode, rfl, zero hc, rfl⟩
  · exact ⟨.encb c, rfl, rfl, rfl⟩
  · exact ⟨.encend, rfl, zero hc, rfl⟩
  · exact ⟨.decstart, rfl, zero hc, rfl⟩
  · exact ⟨.decb c, rfl, rfl, rfl⟩
  · exact ⟨.decend, rfl, zero hc, rfl⟩
  · exact ⟨.rdfreq c, rfl, rfl, rfl⟩
  · exact ⟨.rdcode c, rfl, rfl, rfl⟩
  · exact ⟨.rdnode, rfl, zero hc, rfl⟩

theorem encodedFormat (i : Instr) : Laws.EncodedFormat.Statement i := by
  cases i with
  | nop => exact Laws.EncodedFormat.nop
  | clear => exact Laws.EncodedFormat.clear
  | count c => exact Laws.EncodedFormat.count c
  | loadf c => exact Laws.EncodedFormat.loadf c
  | build => exact Laws.EncodedFormat.build
  | gencode => exact Laws.EncodedFormat.gencode
  | encb c => exact Laws.EncodedFormat.encb c
  | encend => exact Laws.EncodedFormat.encend
  | decstart => exact Laws.EncodedFormat.decstart
  | decb b => exact Laws.EncodedFormat.decb b
  | decend => exact Laws.EncodedFormat.decend
  | rdfreq c => exact Laws.EncodedFormat.rdfreq c
  | rdcode c => exact Laws.EncodedFormat.rdcode c
  | rdnode => exact Laws.EncodedFormat.rdnode

/-- Settles O2: a row and a word that match share their opcode, and no two rows do; the commands of a row are those its
mask lets through. -/
theorem opcodeRowsMatchAtMostOneCommand : Obligations.OpcodeRowsMatchAtMostOneCommand := by
  refine ⟨by decide, fun w r r' hr hr' h h' => ?_, fun w m => ⟨?_, ?_⟩⟩
  · obtain ⟨_, _, ho⟩ := fields_of_match hr h
    obtain ⟨_, _, ho'⟩ := fields_of_match hr' h'
    exact opcodeRows_eq_of_opc hr hr' (ho.symm.trans ho')
  · rintro ⟨r, hr, rfl, h⟩
    obtain ⟨hrsv, hs, ho⟩ := fields_of_match hr h
    obtain ⟨i, hm, hsym, hopc⟩ := exists_instr_of_row hr hs
    exact ⟨i, decode_eq_ok_iff.2 (encode_eq_iff.2 ⟨hrsv, hsym, ho.trans hopc⟩), hm⟩
  · rintro ⟨i, hd, rfl⟩
    obtain ⟨_, _, _, _, r, hr, hm, h⟩ := encodedFormat i
    rw [decode_eq_ok_iff.1 hd] at h
    exact ⟨r, hr, hm, beq_iff_eq.1 h⟩

end Sys2Proof

/-! SUPPORT. The host's statements (30_encoding R129-R132): the assembler, and the accesses of POLL. -/

namespace Sys2Proof.Machine

/-! ### The assembler (30_encoding R129-R131) -/

theorem assemble_of_wellFormed {p : List Stmt} (h : ∀ st ∈ p, st.wellFormed = true) :
    assemble p = some (p.flatMap Stmt.ops) :=
  if_pos (List.all_eq_true.2 h)

theorem assemble_of_not_wellFormed {p : List Stmt} {st : Stmt} (hm : st ∈ p) (h : st.wellFormed ≠ true) :
    assemble p = none :=
  if_neg fun hall => h (List.all_eq_true.1 hall st hm)

/-- The word of a command as a number (R130). -/
theorem encode_toNat (i : Instr) : (encode i).toNat = 256 * i.sym.toNat + i.opc.toNat := by
  rw [encode, BitVec.toNat_append, BitVec.toNat_append, ← Nat.shiftLeft_add_eq_or_of_lt i.opc.isLt]
  simp only [BitVec.toNat_ofNat, Nat.zero_mod, Nat.shiftLeft_eq, Nat.zero_mul, Nat.zero_or]
  omega

/-- The word of a command whose symbol is the number `c`, in range (R130). -/
theorem encode_eq_ofNat {i : Instr} {c : Nat} (hc : c ≤ 255) (hs : i.sym = BitVec.ofNat 8 c) :
    encode i = BitVec.ofNat 32 (256 * c + i.opc.toNat) := by
  apply BitVec.eq_of_toNat_eq
  have ho := i.opc.isLt
  rw [encode_toNat, hs, BitVec.toNat_ofNat, BitVec.toNat_ofNat]
  omega

/-- A mnemonic statement's accesses: the CMD write of its word, and POLL (R131). -/
theorem issueOps_eq {i : Instr} {c : Nat} (hc : c ≤ 255) (hs : i.sym = BitVec.ofNat 8 c) :
    issueOps i = [.wr 3#4 (BitVec.ofNat 32 (256 * c + i.opc.toNat)), .poll] := by
  rw [issueOps, encode_eq_ofNat hc hs]
  rfl

/-- Settles O57: the ranges are the assembler's check, and a symbol in range is the command's SYM field. -/
theorem assemblerRejectsAndExpands : Obligations.AssemblerRejectsAndExpands := by
  unfold Obligations.AssemblerRejectsAndExpands
  intro inRange arg cmd expansion p
  have range : ∀ st, inRange st ↔ st.wellFormed = true := by
    intro st
    cases st <;> simp [inRange, Stmt.wellFormed] <;> omega
  have ops : ∀ st, inRange st → Stmt.ops st = expansion st := by
    intro st hst
    cases st with
    | count c => exact issueOps_eq (i := .count _) hst rfl
    | encb c => exact issueOps_eq (i := .encb _) hst rfl
    | decb c => exact issueOps_eq (i := .decb _) hst rfl
    | rdfreq c => exact issueOps_eq (i := .rdfreq _) hst rfl
    | loadf c k =>
      obtain ⟨hc, _⟩ := hst
      exact congrArg (arg k :: ·) (issueOps_eq (i := .loadf _) hc rfl)
    | rdcode c wi =>
      obtain ⟨hc, _⟩ := hst
      exact congrArg (arg wi :: ·) (issueOps_eq (i := .rdcode _) hc rfl)
    | _ => rfl
  constructor
  · intro h
    rw [assemble_of_wellFormed fun st hst => (range st).1 (h st hst)]
    exact congrArg some (List.flatMap_congr fun st hst => ops st (h st hst))
  · rintro ⟨st, hst, h⟩
    exact assemble_of_not_wellFormed hst (mt (range st).2 h)

/-! ### POLL (30_encoding R132) -/

/-- BUSY and OUTNE where POLL tests them (R35). -/
theorem statusWord_getLsbD_busy (s : State) : s.statusWord.getLsbD 0 = s.busy := by
  simp only [State.statusWord, BitVec.getLsbD_append, Nat.reduceLT, if_true, bit_getLsbD_zero]

theorem statusWord_getLsbD_outNonEmpty (s : State) : s.statusWord.getLsbD 5 = s.outNonEmpty := by
  simp only [State.statusWord, BitVec.getLsbD_append, Nat.reduceLT, Nat.reduceSub, if_true, if_false, bit_getLsbD_zero]

theorem outWord_byte {s : State} {b : Byte} {rest : List Byte} (h : s.out = b :: rest) :
    s.outWord.extractLsb' 0 8 = b := by
  rw [State.outWord, h]
  exact (BitVec.extractLsb'_append_eq_of_add_le (by decide)).trans BitVec.extractLsb'_eq_self

/-- At `RD STATUS` of POLL (R132). -/
theorem hostTurn_poll {s : State} {rest : List HostOp} (h : s.host.prog = .poll :: rest) :
    hostTurn s = s.withProg (if s.outNonEmpty then .pollOut :: rest else if s.busy then .poll :: rest else rest) := by
  have hread : portRead Reg.status.idx s = (s, s.statusWord) := portRead_exact rfl s
  simp only [hostTurn, h, pollAccess, hread, statusWord_getLsbD_busy, statusWord_getLsbD_outNonEmpty]
  split
  · rfl
  · split <;> rfl

/-- At `RD OUT` of POLL (R132). -/
theorem hostTurn_pollOut {s : State} {b : Byte} {out : List Byte} {rest : List HostOp}
    (h : s.host.prog = .pollOut :: rest) (ho : s.out = b :: out) :
    hostTurn s = { s with out := out, host := ⟨.poll :: rest, s.host.hout ++ [b], s.host.vars⟩ } := by
  have hread : portRead Reg.out.idx s = ({ s with out := s.out.tail }, s.outWord) := portRead_out s
  simp only [hostTurn, h, pollOutAccess, hread, outWord_byte ho, ho, List.tail_cons]
  rfl

theorem sameBut_withProg (s : State) (prog : List HostOp) : SameBut [.host] s (s.withProg prog) := by
  intro P hP
  cases P <;> simp_all [Part.same]

theorem sameBut_host_out (s : State) (host : HostAgent) (out : List Byte) :
    SameBut [.host, .out] s { s with host := host, out := out } := by
  intro P hP
  cases P <;> simp_all [Part.same]

/-- Settles O58: the three branches of the access at `RD STATUS`, and the pop after the first. -/
theorem pollDrainsAndWaits : Obligations.PollDrainsAndWaits := by
  refine ⟨fun s b out rest h ho => ?pops, fun s rest h ho hp => ?waits, fun s rest h ho hp => ?ends⟩
  case pops =>
    have hpoll : hostTurn s = s.withProg (.pollOut :: rest) := by
      rw [hostTurn_poll h]
      simp [State.outNonEmpty, ho]
    rw [hpoll, hostTurn_pollOut (s := s.withProg (.pollOut :: rest)) rfl ho]
    exact ⟨sameBut_withProg s _, rfl, sameBut_host_out s _ out, rfl, rfl⟩
  case waits =>
    have hbusy : s.busy = true := Option.isSome_iff_ne_none.2 hp
    rw [hostTurn_poll h, State.outNonEmpty, ho, hbusy]
    simp [State.withProg, ← h]
  case ends =>
    have hpoll : hostTurn s = s.withProg rest := by
      rw [hostTurn_poll h]
      simp [State.outNonEmpty, State.busy, ho, hp]
    rw [hpoll]
    exact ⟨rfl, sameBut_withProg s _⟩

end Sys2Proof.Machine

/-! SUPPORT. The command model (40_command_model): what a failing command leaves, the phase conditions and flags, when a
command is held for room in OUT, and the CMD write and register reads while busy. -/

namespace Sys2Proof.Machine

/-! ### Failing commands and frames (R155, R161) -/

/-- Settles O15: the frame of a perform, and of a failure. -/
theorem everyCommandWritesOnlyWhatItsRuleLists : Obligations.EveryCommandWritesOnlyWhatItsRuleLists := by
  intro i s t h
  rcases exec_frame h with hf | ⟨h0, e, he, rfl⟩
  · exact .inl hf
  · exact .inr ⟨h0, he, sameBut_fail s e⟩

/-- CLEAR alone writes ERR when it succeeds (R334). -/
theorem err_writer {i : Instr} (h : .err ∈ writesOf i) : i = .clear := by
  cases i <;> simp_all [writesOf]

theorem clear_err {s t : State} (h : exec .clear s = .next t) : t.err = .none := by
  cases h
  rfl

/-- A command leaves ERR, clears it, or fails (R155, R332, R334). -/
theorem exec_err {i : Instr} {s t : State} (h : exec i s = .next t) :
    t.err = s.err ∨ t.err = .none ∨ (s.err = .none ∧ ∃ e, t = s.fail e) := by
  rcases exec_frame h with hf | ⟨h0, e, _, rfl⟩
  · by_cases hw : .err ∈ writesOf i
    · cases err_writer hw
      exact .inr (.inl (clear_err h))
    · exact .inl (hf .err (by simp [hw]))
  · exact .inr (.inr ⟨h0, e, rfl⟩)

/-- A turn of the engine leaves ERR, clears it, or is a failure (R155, R327, R332). -/
theorem engineTurn_err {s t : State} (h : engineTurn s = .next t) :
    t.err = s.err ∨ t.err = .none ∨ (s.err = .none ∧ ∃ e, t = s.fail e) := by
  rcases engineTurn_cases h with ⟨_, rfl⟩ | ⟨_, _, _, _, he⟩ | ⟨_, _, _, _, rfl⟩
  · exact .inl rfl
  · exact exec_err he
  · rcases performIllegal_cases s with ⟨_, e⟩ | ⟨h0, e⟩
    · exact .inl (by rw [e, State.done_err])
    · exact .inr (.inr ⟨h0, _, e⟩)

/-- Settles O7: a perform that sets a new error is a failure. -/
theorem failingCommandChangesOnlyErrAndOut : Obligations.FailingCommandChangesOnlyErrAndOut := by
  intro s t h hne hnew
  rcases engineTurn_err h with he | he | ⟨h0, e, rfl⟩
  · exact absurd he hnew
  · exact absurd he hne
  · exact ⟨h0, rfl, rfl, sameBut_fail s e⟩

/-! ### Phase conditions and flags (R162, R163) -/

/-- Only gated commands have a phase condition (R154, R162). -/
theorem phaseOk_of_passesGate {i : Instr} (h : passesGate i = true) (s : State) : phaseOk i s = true := by
  cases i with
  | nop | clear | rdfreq | rdcode | rdnode => rfl
  | _ => cases h

theorem exec_phase_false {i : Instr} {s : State} (h0 : s.err = .none) (hp : phaseOk i s = false) :
    exec i s = .next (s.fail .sequence) := by
  have hg : passesGate i = false := Bool.eq_false_iff.2 fun hg =>
    absurd ((phaseOk_of_passesGate hg s).symm.trans hp) (by decide)
  rw [exec_gated hg, hp, performGated_phase h0]

/-- All that a gated command can do to the fields besides ERR, OUT and PEND: nothing, or, where its phase condition
holds, the effect of its own pseudocode (R154). -/
theorem exec_gated_cases {i : Instr} {s t : State} (hg : passesGate i = false) (h : exec i s = .next t) :
    SameBut [.err, .out, .pend] s t ∨
      (phaseOk i s = true ∧ ∃ u outl, gatedBody i s = .ok (u, outl) ∧ SameBut [.out, .pend] u t) := by
  rw [exec_gated hg] at h
  cases h
  rcases performGated_cases s (phaseOk i s) (gatedBody i s) with
    ⟨_, e⟩ | ⟨_, _, e⟩ | ⟨_, _, x, _, e⟩ | ⟨_, hp, u, outl, hb, _, e⟩ | ⟨_, _, _, _, _, _, e⟩ <;> rw [e]
  · exact .inl (sameBut_mono (sameBut_done s) (by simp))
  · exact .inl (sameBut_fail s _)
  · exact .inl (sameBut_fail s x)
  · refine .inr ⟨hp, u, outl, hb, fun P hP => ?_⟩
    cases P <;> simp_all [Part.same]
  · exact .inl (sameBut_refl _ s)

theorem alwaysState_err (i : Instr) (s : State) : (alwaysState i s).err = s.err ∨ (alwaysState i s).err = .none := by
  cases i with
  | clear => exact .inr rfl
  | _ => exact .inl rfl

/-- A command whose phase condition is true raises no SEQUENCE: its own errors are others (R154, R325). -/
theorem exec_err_ne_sequence {i : Instr} {s : State} (h0 : s.err = .none) (hp : phaseOk i s = true) :
    ∃ t, exec i s = .next t ∧ t.err ≠ .sequence := by
  cases hg : passesGate i with
  | true =>
    have herr : (alwaysState i s).err = .none := (alwaysState_err i s).elim (·.trans h0) id
    exact ⟨_, exec_always hg s, by rw [State.done_err, herr]; decide⟩
  | false =>
    refine ⟨_, exec_gated hg s, ?_⟩
    rcases performGated_cases s (phaseOk i s) (gatedBody i s) with
      ⟨hn, _⟩ | ⟨_, hf, _⟩ | ⟨_, _, x, hb, e⟩ | ⟨_, _, u, outl, hb, _, e⟩ | ⟨_, _, _, _, _, _, e⟩
    · exact absurd h0 hn
    · exact absurd (hp.symm.trans hf) (by decide)
    · obtain ⟨_, hseq, _⟩ := ownErrors_spec (body_error hb)
      rwa [e]
    · rw [e]
      show u.err ≠ .sequence
      rw [body_err hb, h0]; decide
    · rw [e, h0]; decide

/-- Settles O10: the statement's table is `phaseOk`, and the phase check comes before a command's own checks. -/
theorem phaseTableDecidesSequence : Obligations.PhaseTableDecidesSequence := by
  intro i s h0 ok
  have hok : ok ↔ phaseOk i s = true := by
    cases i <;> simp [ok, phaseOk]
  rw [hok]
  refine ⟨fun hp => ?_, fun hp => exec_err_ne_sequence h0 hp⟩
  exact ⟨_, exec_phase_false h0 (Bool.eq_false_iff.2 hp), rfl, rfl, rfl, sameBut_fail s _⟩

/-- TV, CV and DA (R49). -/
def State.flags (s : State) : Bool × Bool × Bool := (s.tv, s.cv, s.da)

theorem flags_of_sameBut {l : List Part} {s t : State} (h : SameBut l s t) (htv : .tv ∉ l) (hcv : .cv ∉ l)
    (hda : .da ∉ l) : t.flags = s.flags := by
  have h1 : t.tv = s.tv := h .tv htv
  have h2 : t.cv = s.cv := h .cv hcv
  have h3 : t.da = s.da := h .da hda
  rw [State.flags, h1, h2, h3, State.flags]

/-- A gated command keeps the flags, or, its phase condition being true, sets them as its own pseudocode does. -/
theorem exec_gated_flags {i : Instr} {s t : State} (hg : passesGate i = false) (h : exec i s = .next t) :
    t.flags = s.flags ∨ (phaseOk i s = true ∧ ∃ u outl, gatedBody i s = .ok (u, outl) ∧ t.flags = u.flags) := by
  rcases exec_gated_cases hg h with hs | ⟨hp, u, outl, hb, hs⟩
  · exact .inl (flags_of_sameBut hs (by decide) (by decide) (by decide))
  · exact .inr ⟨hp, u, outl, hb, flags_of_sameBut hs (by decide) (by decide) (by decide)⟩

/-- A command whose rule lists no flag changes none (R163). -/
theorem exec_flags_of_writesOf {i : Instr} {s t : State} (h : exec i s = .next t) (htv : .tv ∉ writesOf i)
    (hcv : .cv ∉ writesOf i) (hda : .da ∉ writesOf i) : t.flags = s.flags := by
  rcases exec_frame h with hs | ⟨_, e, _, rfl⟩
  · exact flags_of_sameBut hs (by simp [htv]) (by simp [hcv]) (by simp [hda])
  · rfl

theorem build_flags {s u : State} {o : List Byte} (h : buildBody s = .ok (u, o)) : u.flags = (true, s.cv, s.da) := by
  unfold buildBody at h
  split at h
  · cases h
  · cases h
    rfl

theorem decend_flags {s u : State} {o : List Byte} (h : decendBody s = .ok (u, o)) : u.flags = (s.tv, s.cv, false) := by
  unfold decendBody at h
  split at h
  · cases h
  · cases h
    rfl

/-- Settles O11: BUILD, GENCODE, DECSTART and DECEND set the flags where their phase condition holds, CLEAR clears them,
and the other commands list none. -/
theorem phaseFlagsChangeOnlyByTheTable : Obligations.PhaseFlagsChangeOnlyByTheTable := by
  intro i s t hinv h
  show t.flags = s.flags ∨ _
  cases i with
  | clear =>
    cases h
    exact .inr (.inl ⟨rfl, rfl⟩)
  | build =>
    refine (exec_gated_flags rfl h).imp_right fun ⟨hp, u, o, hb, hf⟩ => .inr (.inl ⟨rfl, ?_⟩)
    have htv : s.tv = false := by simpa [phaseOk] using hp
    obtain ⟨hcv, hda⟩ := inv_no_tree hinv htv
    exact ⟨by rw [htv, hcv, hda], hf.trans (by rw [build_flags hb, hcv, hda])⟩
  | gencode =>
    refine (exec_gated_flags rfl h).imp_right fun ⟨hp, u, o, hb, hf⟩ => .inr (.inr (.inl ⟨rfl, ?_⟩))
    cases hb
    obtain ⟨htv, hcv⟩ : s.tv = true ∧ s.cv = false := by simpa [phaseOk] using hp
    exact ⟨by rw [htv, hcv], hf.trans (congrArg (·, true, s.da) htv)⟩
  | decstart =>
    refine (exec_gated_flags rfl h).imp_right fun ⟨hp, u, o, hb, hf⟩ => .inr (.inr (.inr (.inl ⟨rfl, ?_⟩)))
    cases hb
    obtain ⟨htv, hda⟩ : s.tv = true ∧ s.da = false := by simpa [phaseOk] using hp
    exact ⟨by rw [htv, hda], hf.trans (congrArg (·, s.cv, true) htv)⟩
  | decend =>
    refine (exec_gated_flags rfl h).imp_right fun ⟨hp, u, o, hb, hf⟩ => .inr (.inr (.inr (.inr ⟨rfl, ?_⟩)))
    have hda : s.da = true := hp
    obtain ⟨_, _, ⟨_, htree⟩, _⟩ := hinv
    have htv : s.tv = true := htree hda
    exact ⟨by rw [htv, hda], hf.trans ((decend_flags hb).trans (congrArg (·, s.cv, false) htv))⟩
  | _ => exact .inl (exec_flags_of_writesOf h (by simp [writesOf]) (by simp [writesOf]) (by simp [writesOf]))

/-! ### The hold (R156, R157, R158) -/

/-- The bytes a gated command's pseudocode appends; none where it fails. -/
def appended (i : Instr) (s : State) : List Byte :=
  match gatedBody i s with
  | .ok (_, outl) => outl
  | .error _ => []

/-- The command is held (R157): the gate and the phase check let it through, and its bytes do not fit. -/
def Held (i : Instr) (s : State) : Prop :=
  passesGate i = false ∧ s.err = .none ∧ phaseOk i s = true ∧ s.fits (appended i s) = false

/-- A held command changes nothing (R157). -/
theorem exec_of_held {i : Instr} {s : State} (h : Held i s) : exec i s = .next s := by
  obtain ⟨hg, h0, hp, hf⟩ := h
  rw [exec_gated hg, hp]
  unfold appended at hf
  split at hf
  · rename_i u outl hb
    rw [hb, performGated_ok h0, State.commit, if_neg (by rw [hf]; decide)]
  · cases hf

/-- A command that is not held completes (R153, R157). -/
theorem exec_of_not_held {i : Instr} {s : State} (h : ¬ Held i s) : ∃ t, exec i s = .next t ∧ t.pend = none := by
  cases hg : passesGate i with
  | true => exact ⟨_, exec_always hg s, rfl⟩
  | false =>
    refine ⟨_, exec_gated hg s, ?_⟩
    rcases performGated_cases s (phaseOk i s) (gatedBody i s) with
      ⟨_, e⟩ | ⟨_, _, e⟩ | ⟨_, _, _, _, e⟩ | ⟨_, _, _, _, _, _, e⟩ | ⟨h0, hp, u, outl, hb, hf, _⟩
    · rw [e, State.done_pend]
    · rw [e, State.fail_pend]
    · rw [e, State.fail_pend]
    · rw [e]
    · exact absurd ⟨hg, h0, hp, by rw [appended, hb]; exact hf⟩ h

/-- An illegal word always completes (R126, R154). -/
theorem performIllegal_pend (s : State) : (performIllegal s).pend = none := by
  rcases performIllegal_cases s with ⟨_, e⟩ | ⟨_, e⟩ <;> rw [e]
  · exact State.done_pend s
  · exact State.fail_pend s _

/-- The engine completes a pending word that is illegal, or whose command is not held. -/
theorem engineTurn_completes {s : State} {p : PendCmd} (hp : s.pend = some p)
    (h : ∀ i, decode p.word = .ok i → ¬ Held i s) : ∃ t, engineTurn s = .next t ∧ t.pend = none := by
  cases hd : decode p.word with
  | ok i =>
    rw [engineTurn_of_decode hp hd]
    exact exec_of_not_held (h i hd)
  | error e =>
    exact ⟨performIllegal s, by simp only [engineTurn, hp, hd], performIllegal_pend s⟩

theorem fits_eq_false_iff (s : State) (outl : List Byte) :
    s.fits outl = false ↔ outl ≠ [] ∧ s.config.outDepth < s.out.length + outl.length := by
  rw [← Bool.not_eq_true, fits_iff, not_or, Nat.not_le]

/-- The bytes of ENCB (R252). -/
theorem appended_encb (c : Byte) (s : State) :
    appended (.encb c) s =
      if (s.codeAt c).len = 0 ∨ s.ebits.toNat + (s.codeAt c).len > maxCount then []
      else (s.packer.putBits (s.codeAt c).bits).emitted := by
  unfold appended gatedBody encbBody
  by_cases h1 : (s.codeAt c).len = 0
  · simp [h1]
  · by_cases h2 : s.ebits.toNat + (s.codeAt c).len > maxCount
    · simp [h1, h2]
    · simp [h1, h2]

/-- The byte of ENCEND (R256). -/
theorem appended_encend (s : State) : appended .encend s = if s.pfill = 0#3 then [] else [s.pacc] := rfl

/-- The symbols of DECB (R273). -/
theorem appended_decb (b : Byte) (s : State) :
    appended (.decb b) s =
      ((decodeBits s.nodeAt s.root s.dpos ((byteBits b).take s.drem.toNat)).map Prod.snd).getD [] := by
  have hwalk := walkBits_eq s.nodeAt s.root b bitPositions s.walk
  have hbits : takenBits bitPositions b s.walk.drem = (byteBits b).take s.drem.toNat := rfl
  have hpos : s.walk.dpos = s.dpos := rfl
  rw [hbits, hpos] at hwalk
  cases hd : decodeBits s.nodeAt s.root s.dpos ((byteBits b).take s.drem.toNat) with
  | none =>
    rw [hd] at hwalk
    simp only [appended, gatedBody, decbBody, hwalk]
    rfl
  | some r =>
    rw [hd] at hwalk
    simp only [appended, gatedBody, decbBody, hwalk]
    rfl

/-- The commands without OUT in their rule append nothing (R161). -/
theorem appended_of_writesOf {i : Instr} (s : State) (hg : passesGate i = false) (hw : .out ∉ writesOf i) :
    appended i s = [] := by
  unfold appended
  split
  · rename_i u outl hb
    obtain ⟨_, _, _, hnil⟩ := body_frame hg hb
    exact hnil hw
  · rfl

/-- What a host access short of a reset event can do while a command is pending: the command stays, and OUT does not
grow (R37, R40, R152, R160). -/
theorem hostTurn_of_pending {s : State} {p : PendCmd} (hp : s.pend = some p)
    (hr : ∀ w rest, s.host.prog = .wr 1#4 w :: rest → w.getLsbD 0 = false) :
    ∃ arg lost host out draws,
      hostTurn s = { s with arg := arg, lost := lost, host := host, out := out, draws := draws } ∧
        out.length ≤ s.out.length := by
  rcases hostTurn_cases s with ⟨host, out, draws, e, ho⟩ | ⟨idx, w, rest, hprog, e⟩
  · exact ⟨s.arg, s.lost, host, out, draws, e, by rcases ho with rfl | rfl <;> simp⟩
  · rcases portWrite_cases idx w s with h | ⟨rfl, hw, _⟩ | ⟨_, hn, _⟩ | ⟨_, _, h⟩ | ⟨_, h⟩
    · exact ⟨s.arg, s.lost, _, s.out, s.draws, by rw [e, h]; rfl, Nat.le_refl _⟩
    · exact absurd ((hr w rest hprog).symm.trans hw) (by decide)
    · exact absurd (hp.symm.trans hn) (Option.some_ne_none p)
    · exact ⟨s.arg, true, _, s.out, s.draws, by rw [e, h]; rfl, Nat.le_refl _⟩
    · exact ⟨w, s.lost, _, s.out, s.draws, by rw [e, h]; rfl, Nat.le_refl _⟩

section HostFields

variable (s : State) (arg : Word) (lost : Bool) (host : HostAgent) (out : List Byte) (draws : Nat)

/-- No phase condition looks at the fields the host changes (R162). -/
theorem phaseOk_hostFields (i : Instr) :
    phaseOk i { s with arg := arg, lost := lost, host := host, out := out, draws := draws } = phaseOk i s := by
  cases i <;> rfl

/-- What a command appends does not depend on the fields the host changes (R252, R256, R273). -/
theorem appended_hostFields {i : Instr} (hg : passesGate i = false) :
    appended i { s with arg := arg, lost := lost, host := host, out := out, draws := draws } = appended i s := by
  cases i with
  | encb c => rw [appended_encb, appended_encb]; rfl
  | encend => rfl
  | decb b => rw [appended_decb, appended_decb]; rfl
  | count | loadf | build | gencode | decstart | decend =>
    rw [appended_of_writesOf _ hg (by simp [writesOf]), appended_of_writesOf _ hg (by simp [writesOf])]
  | nop | clear | rdfreq | rdcode | rdnode => cases hg

variable {s arg lost host out draws}

/-- A command held after a host access was held before it: its bytes are the same, and OUT has no less room (R158). -/
theorem Held.of_hostFields {i : Instr} (hl : out.length ≤ s.out.length)
    (h : Held i { s with arg := arg, lost := lost, host := host, out := out, draws := draws }) : Held i s := by
  obtain ⟨hg, h0, hp, hf⟩ := h
  rw [phaseOk_hostFields] at hp
  rw [appended_hostFields _ _ _ _ _ _ hg, fits_eq_false_iff] at hf
  obtain ⟨hne, hroom⟩ := hf
  exact ⟨hg, h0, hp, (fits_eq_false_iff _ _).2 ⟨hne, Nat.lt_of_lt_of_le hroom (Nat.add_le_add_right hl _)⟩⟩

end HostFields

/-- Settles O17: a command that completes is not held, and a host access does not make it so. -/
theorem enabledCommandStaysEnabled : Obligations.EnabledCommandStaysEnabled := by
  intro s t p hp he ht hr
  obtain ⟨arg, lost, host, out, draws, hhost, hl⟩ := hostTurn_of_pending hp hr
  rw [hhost]
  refine ⟨hp, engineTurn_completes hp fun i hd hheld => ?_⟩
  have hsame : engineTurn s = .next s := (engineTurn_of_decode hp hd).trans (exec_of_held (hheld.of_hostFields hl))
  rw [hsame] at he
  cases he
  exact absurd (hp.symm.trans ht) (Option.some_ne_none p)

/-- A code is at most 255 bits (R210, R230). -/
theorem code_len_le {s : State} (h : Inv s) (hcv : s.cv = true) (c : Byte) : (s.codeAt c).len ≤ 255 := by
  have ⟨_, _, ⟨htree, _⟩, _, _, hcode, _⟩ := h
  obtain ⟨hsome, hnone⟩ := (tree_of_inv h (htree hcv)).code c
  rw [State.codeAt]
  simp only [show s.code = _ from hcode hcv]
  by_cases hc : s.freqAt c = 0#32
  · rw [hnone hc]
    exact Nat.zero_le _
  · obtain ⟨q, _, hq, _, _, _, _, hlen⟩ := hsome hc
    rw [hq]
    exact hlen

/-- The most bytes a command appends (R253). -/
def appendedBound : Instr → Nat
  | .encb _ => 32
  | .encend => 1
  | .decb _ => 8
  | .nop | .clear | .count _ | .loadf _ | .build | .gencode | .decstart | .decend | .rdfreq _ | .rdcode _ | .rdnode => 0

theorem appended_length_le {i : Instr} {s : State} (h : Inv s) (hp : phaseOk i s = true) :
    (appended i s).length ≤ appendedBound i := by
  cases i with
  | encb c =>
    have hlen := code_len_le h hp c
    have hfill := s.pfill.isLt
    rw [appended_encb]
    split
    · exact Nat.zero_le _
    · rw [putBits_emitted_length]
      simp only [State.packer, List.length_nil, CodeRec.len, appendedBound] at hlen ⊢
      omega
  | encend =>
    rw [appended_encend]
    split <;> simp [appendedBound]
  | decb b =>
    have ⟨_, _, ⟨_, htree⟩, _, _, _, _, hwalk, _⟩ := h
    have tr := tree_of_inv h (htree hp)
    obtain ⟨hlt, hint⟩ := hwalk hp
    rw [appended_decb]
    cases hd : decodeBits s.nodeAt s.root s.dpos ((byteBits b).take s.drem.toNat) with
    | none => exact Nat.zero_le _
    | some r =>
      obtain ⟨_, _, hle⟩ := tr.walk_end (by rw [tr.length_eq]; exact hlt) hint hd
      exact Nat.le_trans hle ((List.length_take_le' _ _).trans (byteBits_length b).le)
  | count | loadf | build | gencode | decstart | decend =>
    rw [appended_of_writesOf s rfl (by simp [writesOf])]
    exact Nat.zero_le _
  | nop | clear | rdfreq | rdcode | rdnode => exact Nat.zero_le _

/-- OUT_DEPTH is at least 32, the most any command appends, so with OUT empty no command is held (R9, R157, R253). -/
theorem not_held_of_out_nil {i : Instr} {s : State} (h : Inv s) (ho : s.out = []) : ¬ Held i s := by
  rintro ⟨_, _, hp, hf⟩
  obtain ⟨_, hroom⟩ := (fits_eq_false_iff _ _).1 hf
  have hle := appended_length_le h hp
  have hbound : appendedBound i ≤ 32 := by cases i <;> simp [appendedBound]
  have hmin := s.config.depth_min
  rw [ho, List.length_nil] at hroom
  omega

/-- Settles O16: the bytes of ENCB, ENCEND and DECB, and the bound on them. -/
theorem commandsAreHeldOnlyForRoomInOut : Obligations.CommandsAreHeldOnlyForRoomInOut := by
  refine ⟨?encb, ?encend, ?decb, ?empty⟩
  case encb =>
    intro s c h0 hcv hlen hmax hbyte hroom
    have hemit := putBits_emitted_length s.packer (s.codeAt c).bits
    have happ : appended (.encb c) s = (s.packer.putBits (s.codeAt c).bits).emitted := by
      rw [appended_encb, if_neg (by unfold maxCount; omega)]
    have hlength : (appended (.encb c) s).length = (s.pfill.toNat + (s.codeAt c).len) / 8 := by
      rw [happ, hemit]
      exact Nat.zero_add _
    refine exec_of_held ⟨rfl, h0, hcv, (fits_eq_false_iff _ _).2 ⟨fun e => ?_, by rw [hlength]; exact hroom⟩⟩
    rw [e, List.length_nil] at hlength
    omega
  case encend =>
    intro s h0 hcv hfill hroom
    have hne : s.pfill ≠ 0#3 := fun e => absurd (e ▸ hfill) (by decide)
    refine exec_of_held ⟨rfl, h0, hcv, ?_⟩
    rw [appended_encend, if_neg hne]
    exact (fits_eq_false_iff _ _).2 ⟨List.cons_ne_nil _ _, hroom⟩
  case decb =>
    intro s b j syms h0 hda hd hne hroom
    refine exec_of_held ⟨rfl, h0, hda, ?_⟩
    rw [appended_decb, hd]
    exact (fits_eq_false_iff _ _).2 ⟨hne, hroom⟩
  case empty =>
    intro s p hinv hp ho
    exact engineTurn_completes hp fun i _ => not_held_of_out_nil hinv ho

/-! ### The machine never stops (R154, R341) -/

theorem engineTurn_of_idle {s : State} (h : s.pend = none) : engineTurn s = .next s := by
  simp only [engineTurn, h]

/-- Settles O6: an idle block with an idle host takes the host's default turn, which is empty. -/
theorem everyStepAnswersANextState : Obligations.EveryStepAnswersANextState := by
  refine ⟨step_next, fun s hp => engineTurn_of_idle hp, fun s hp hprog hs => ?_⟩
  have hidle : s.busy = false := by rw [State.busy, hp, Option.isSome_none]
  simp [step, hs, defaultTurn, engineTurn_of_idle hp, hidle, hostTurn_idle hprog]

/-! ### CMD writes and register reads (R151, R152, R160) -/

/-- Settles O19: the two branches of an issue, and the word of CMD. -/
theorem cmdWriteIssuesOrSetsLost : Obligations.CmdWriteIssuesOrSetsLost := by
  refine ⟨fun s w hp => ?idle, fun s w p hp => ?busy, fun s => portRead_exact rfl s⟩
  case idle =>
    rw [portWrite_cmd, issue_idle hp]
    refine ⟨rfl, fun P hP => ?_⟩
    cases P <;> simp_all [Part.same]
  case busy =>
    rw [portWrite_cmd, issue_busy (by rw [hp]; exact Option.some_ne_none p)]
    refine ⟨rfl, fun P hP => ?_⟩
    cases P <;> simp_all [Part.same]

/-- While busy, a register that is not exact reads as the next draw (R160; log 5). -/
theorem portRead_draw {s : State} {idx : RegIdx} (hp : s.pend ≠ none) (h : (Reg.ofIdx idx).exactWhileBusy = false) :
    portRead idx s = ({ s with draws := s.draws + 1 }, Config.draw s.draws) := by
  have hbusy : s.busy = true := Option.isSome_iff_ne_none.2 hp
  simp [portRead, hbusy, h]

/-- Settles O22: the ten registers are those that are not exact while busy; the others read their words. -/
theorem readsWhileBusyAreDraws : Obligations.ReadsWhileBusyAreDraws := by
  refine ⟨fun s idx hp hidx => ?draws, fun s => ?exact, fun s hp => ?idle⟩
  case draws =>
    have hten : ∀ r ∈ [5#4, 6#4, 8#4, 9#4, 10#4, 11#4, 12#4, 13#4, 14#4, 15#4],
        (Reg.ofIdx r).exactWhileBusy = false := by decide
    rw [portRead_draw hp (hten idx hidx)]
    refine ⟨rfl, rfl, fun P hP => ?_⟩
    cases P <;> simp_all [Part.same]
  case exact =>
    exact ⟨portRead_exact rfl s, portRead_exact rfl s, portRead_exact rfl s, portRead_exact rfl s⟩
  case idle =>
    exact ⟨portRead_idle hp _, portRead_idle hp _, portRead_idle hp _, portRead_idle hp _, portRead_idle hp _,
      portRead_idle hp _, portRead_idle hp _⟩

end Sys2Proof.Machine

/-! SUPPORT. The frequency table commands (41_frequency): COUNT, LOADF and RDFREQ, and the rules for a gated command
that appends nothing or fails. -/

namespace Sys2Proof.Machine

/-! ### Gated commands that append nothing, and failures (40_command_model R154, R155) -/

theorem failsWith_of_exec {e : ErrCode} {i : Instr} {s : State} (h : exec i s = .next (s.fail e)) : FailsWith e i s :=
  ⟨s.fail e, h, rfl, rfl, rfl, sameBut_fail s e⟩

theorem failsWith_of_phase {i : Instr} {s : State} (h0 : s.err = .none) (hp : phaseOk i s = false) :
    FailsWith .sequence i s :=
  failsWith_of_exec (exec_phase_false h0 hp)

theorem failsWith_of_body {e : ErrCode} {i : Instr} {s : State} (hg : passesGate i = false) (h0 : s.err = .none)
    (hp : phaseOk i s = true) (hb : gatedBody i s = .error e) : FailsWith e i s :=
  failsWith_of_exec (by rw [exec_gated hg, hp, hb, performGated_error h0])

theorem exec_of_body {i : Instr} {s u : State} (hg : passesGate i = false) (h0 : s.err = .none)
    (hp : phaseOk i s = true) (hb : gatedBody i s = .ok (u, [])) : exec i s = .next u.done := by
  rw [exec_gated hg, hp, hb, performGated_ok h0, commit_nil]

/-! ### One entry of FREQ replaced, TOTAL and NSYM with it (R180, R181) -/

/-- What LOADF leaves before it completes (R181); COUNT leaves the same for the entry one higher (`countBody_ok`). -/
def State.setEntry (s : State) (c : Byte) (k : Word) : State :=
  { s.setFreq c k with nsym := loadNsym c k s, total := BitVec.ofInt 32 (loadTotal c k s) }

theorem freqAt_setEntry (s : State) (c d : Byte) (k : Word) :
    (s.setEntry c k).freqAt d = if d = c then k else s.freqAt d :=
  freqAt_setFreq s c d k

theorem sameBut_setEntry_done (s : State) (c : Byte) (k : Word) :
    SameBut [.freq, .total, .nsym, .pend] s (s.setEntry c k).done := by
  intro P hP
  cases P with
  | freq | total | nsym | pend => exact absurd (by decide) hP
  | _ => rfl

theorem loadTotal_eq {s : State} (h : InvTotal s) (c : Byte) (k : Word) :
    loadTotal c k s = (freqSum (s.setFreq c k).freqAt : Int) := by
  have htot : s.total.toNat = freqSum s.freqAt := h
  have hsum := freqSum_setFreq s c k
  unfold loadTotal
  omega

/-- The new sum of FREQ in the form of R181, where the subtraction does not go below 0. -/
theorem freqSum_setFreq_eq {s : State} (h : InvTotal s) (c : Byte) (k : Word) :
    freqSum (s.setFreq c k).freqAt = s.total.toNat - (s.freqAt c).toNat + k.toNat := by
  have htot : s.total.toNat = freqSum s.freqAt := h
  have hsum := freqSum_setFreq s c k
  have hle := freqAt_le_freqSum s.freqAt c
  omega

theorem total_setEntry {s : State} (h : InvTotal s) {c : Byte} {k : Word}
    (hsum : freqSum (s.setFreq c k).freqAt ≤ maxCount) :
    (s.setEntry c k).total.toNat = freqSum (s.setFreq c k).freqAt := by
  show (BitVec.ofInt 32 (loadTotal c k s)).toNat = _
  rw [loadTotal_eq h, BitVec.ofInt_natCast, BitVec.toNat_ofNat]
  unfold maxCount at hsum
  omega

theorem nsym_setEntry {s : State} (h : InvNsym s) (c : Byte) (k : Word) :
    (s.setEntry c k).nsym.toNat + (if s.freqAt c = 0#32 then 0 else 1) =
      s.nsym.toNat + (if k = 0#32 then 0 else 1) := by
  have hold : s.nsym.toNat = entryCount s.freqAt := h
  have hnew : (s.setEntry c k).nsym.toNat = entryCount (s.setFreq c k).freqAt := loadNsym_eq h c k
  rw [hold, hnew, entryCount_setFreq]

/-! ### LOADF (R181) -/

theorem loadfBody_ok {s : State} (h : InvTotal s) {c : Byte} {k : Word}
    (hsum : freqSum (s.setFreq c k).freqAt ≤ maxCount) : loadfBody c k s = .ok (s.setEntry c k, []) := by
  rw [loadfBody, loadTotal_eq h, if_neg (by omega), ← loadTotal_eq h, State.setEntry]

theorem loadfBody_overflow {s : State} (h : InvTotal s) {c : Byte} {k : Word}
    (hsum : maxCount < freqSum (s.setFreq c k).freqAt) : loadfBody c k s = .error .overflow := by
  rw [loadfBody, loadTotal_eq h, if_pos (by omega)]

theorem gatedBody_loadf {s : State} {p : PendCmd} (hp : s.pend = some p) (c : Byte) :
    gatedBody (.loadf c) s = loadfBody c p.arg s := by
  simp only [gatedBody, State.operandCount, State.capturedArg, hp]

/-- Settles O29: the two branches of LOADF, by the new sum of FREQ. -/
theorem loadfReplacesOneEntry : Obligations.LoadfReplacesOneEntry := by
  intro s p c hinv hp h0
  obtain ⟨htot, hns, _⟩ := hinv
  have hsum := freqSum_setFreq_eq htot c p.arg
  refine ⟨fun ht => ?tree, fun ht hle => ?fits, fun ht hgt => ?overflow⟩
  case tree =>
    exact failsWith_of_phase h0 (by simp [phaseOk, ht])
  case fits =>
    have hmax : freqSum (s.setFreq c p.arg).freqAt ≤ maxCount := hsum ▸ hle
    have hb : gatedBody (.loadf c) s = .ok (s.setEntry c p.arg, []) :=
      (gatedBody_loadf hp c).trans (loadfBody_ok htot hmax)
    refine ⟨_, exec_of_body rfl h0 (by simp [phaseOk, ht]) hb, rfl, ?_, fun d hd => ?_, ?_, nsym_setEntry hns c p.arg,
      sameBut_setEntry_done s c p.arg⟩
    · exact (freqAt_setEntry s c c p.arg).trans (if_pos rfl)
    · exact (freqAt_setEntry s c d p.arg).trans (if_neg hd)
    · exact (total_setEntry htot hmax).trans hsum
  case overflow =>
    exact failsWith_of_body rfl h0 (by simp [phaseOk, ht])
      ((gatedBody_loadf hp c).trans (loadfBody_overflow htot (hsum ▸ hgt)))

/-! ### COUNT (R180) -/

section Count

variable {s : State} (h : InvTotal s) (hmax : s.total.toNat ≠ maxCount) (c : Byte)
include h hmax

/-- Below the bound of TOTAL no entry is at its own bound. -/
theorem freqAt_succ_toNat : (s.freqAt c + 1#32).toNat = (s.freqAt c).toNat + 1 := by
  have htot : s.total.toNat = freqSum s.freqAt := h
  have hle := freqAt_le_freqSum s.freqAt c
  have hlt := s.total.isLt
  unfold maxCount at hmax
  rw [BitVec.toNat_add, BitVec.toNat_ofNat]
  omega

theorem freqAt_succ_ne_zero : s.freqAt c + 1#32 ≠ 0#32 := by
  intro e
  have hsucc := freqAt_succ_toNat h hmax c
  rw [e, BitVec.toNat_ofNat] at hsucc
  omega

theorem loadTotal_succ : loadTotal c (s.freqAt c + 1#32) s = ((s.total.toNat + 1 : Nat) : Int) := by
  rw [loadTotal, freqAt_succ_toNat h hmax]
  omega

/-- The new sum of FREQ is within the bound of TOTAL. -/
theorem freqSum_succ :
    freqSum (s.setFreq c (s.freqAt c + 1#32)).freqAt = s.total.toNat + 1 ∧ s.total.toNat + 1 ≤ maxCount := by
  refine ⟨Int.ofNat.inj ((loadTotal_eq h c _).symm.trans (loadTotal_succ h hmax c)), ?_⟩
  have hlt := s.total.isLt
  unfold maxCount at hmax ⊢
  omega

/-- COUNT is LOADF of the entry one higher. -/
theorem countBody_ok : countBody c s = .ok (s.setEntry c (s.freqAt c + 1#32), []) := by
  have hns : loadNsym c (s.freqAt c + 1#32) s = if s.freqAt c = 0#32 then s.nsym + 1#9 else s.nsym := by
    simp [loadNsym, freqAt_succ_ne_zero h hmax c]
  have htot : BitVec.ofInt 32 (loadTotal c (s.freqAt c + 1#32) s) = s.total + 1#32 := by
    rw [loadTotal_succ h hmax, BitVec.ofInt_natCast, BitVec.ofNat_add, BitVec.ofNat_toNat, BitVec.setWidth_eq]
  rw [countBody, if_neg hmax, State.setEntry, hns, htot]

end Count

theorem countBody_overflow {s : State} (hmax : s.total.toNat = maxCount) (c : Byte) :
    countBody c s = .error .overflow := by
  rw [countBody, if_pos hmax]

/-- Settles O28: COUNT below the bound of TOTAL is `State.setEntry` of the entry one higher. -/
theorem countAddsOneOccurrence : Obligations.CountAddsOneOccurrence := by
  intro s c hinv h0
  obtain ⟨htot, hns, _⟩ := hinv
  refine ⟨fun ht => ?tree, fun ht hmax => ?fits, fun ht hmax => ?overflow⟩
  case tree =>
    exact failsWith_of_phase h0 (by simp [phaseOk, ht])
  case fits =>
    obtain ⟨hsum, hle⟩ := freqSum_succ htot hmax c
    have hnsym := nsym_setEntry hns c (s.freqAt c + 1#32)
    refine ⟨_, exec_of_body rfl h0 (by simp [phaseOk, ht]) (countBody_ok htot hmax c), rfl, ?_, fun d hd => ?_, ?_, ?_,
      sameBut_setEntry_done s c _⟩
    · exact (congrArg BitVec.toNat ((freqAt_setEntry s c c _).trans (if_pos rfl))).trans (freqAt_succ_toNat htot hmax c)
    · exact (freqAt_setEntry s c d _).trans (if_neg hd)
    · exact (total_setEntry htot (hsum ▸ hle)).trans hsum
    · rw [if_neg (freqAt_succ_ne_zero htot hmax c)] at hnsym
      split at hnsym
      · rename_i hc
        rw [if_pos hc]
        exact hnsym
      · rename_i hc
        rw [if_neg hc]
        exact Nat.succ.inj hnsym
  case overflow =>
    exact failsWith_of_body rfl h0 (by simp [phaseOk, ht]) (countBody_overflow hmax c)

/-! ### RDFREQ (R182) -/

/-- Settles O30: RDFREQ passes the error gate and sets the two result registers. -/
theorem rdfreqReadsTheEntry : Obligations.RdfreqReadsTheEntry := by
  intro s c
  refine ⟨_, exec_always rfl s, rfl, rfl, ?_, sameBut_mono (sameBut_setRes s _ _) (by simp)⟩
  show (s.nsym.setWidth 32).toNat = s.nsym.toNat
  exact BitVec.toNat_setWidth_of_le (by decide)

end Sys2Proof.Machine

/-! SUPPORT. Runs of commands issued through the port (Safety's `runCommands`): one command of a run, CLEAR, and the
runs of COUNT and LOADF that fill the frequency table (41_frequency R183, R184). -/

namespace Sys2Proof.Machine

/-! ### One command of a run (R131, R132, R151) -/

/-- The state after the host's writes of ARG and CMD to an idle block (R151). -/
def State.issued (s : State) (i : Instr) (a : Word) : State := { s with arg := a, pend := some ⟨encode i, a⟩ }

theorem portWrite_issues {s : State} (hp : s.pend = none) (i : Instr) (a : Word) :
    portWrite (Reg.cmd).idx (encode i) (portWrite (Reg.arg).idx a s) = s.issued i a :=
  issue_idle (s := { s with arg := a }) hp (encode i)

theorem issueAndDrain_of_exec {i : Instr} {a : Word} {s t : State} (hp : s.pend = none)
    (he : exec i (s.issued i a) = .next t) (ht : t.pend = none) :
    issueAndDrain i a s = some ({ t with out := [] }, t.out) := by
  have hturn : engineTurn (s.issued i a) = .next t :=
    (engineTurn_of_decode (p := ⟨encode i, a⟩) rfl (decode_encode i)).trans he
  simp [issueAndDrain, portWrite_issues hp, hturn, State.busy, ht]

/-- A command without output does not show in the bytes of a run. -/
theorem runCommands_cons_of_silent {i : Instr} {a : Word} {s t : State} (h : issueAndDrain i a s = some (t, []))
    (rest : List (Instr × Word)) : runCommands ((i, a) :: rest) s = runCommands rest t := by
  simp [runCommands, h]

/-- What a CLEAR issued with `ARG = a` leaves (R301, R362). -/
def State.cleared (s : State) (a : Word) : State := { s.clearBlock with arg := a }

theorem issueAndDrain_clear {s : State} (hp : s.pend = none) (a : Word) :
    issueAndDrain .clear a s = some (s.cleared a, []) :=
  issueAndDrain_of_exec hp (exec_always rfl _) rfl

/-! ### Filling the table -/

/-- A state in which COUNT and LOADF are performed: idle, no error, no tree, nothing in OUT (R154, R162). -/
structure Loadable (s : State) : Prop where
  inv : Inv s
  idle : s.pend = none
  noErr : s.err = .none
  noTree : s.tv = false
  noOut : s.out = []

theorem Loadable.invTotal {s : State} (h : Loadable s) : InvTotal s := h.inv.1

/-- What a run of COUNT and LOADF may change. -/
def tableParts : List Part := [.arg, .freq, .total, .nsym]

theorem Loadable.of_sameBut {s t : State} (h : Loadable s) (hi : Inv t) (hf : SameBut tableParts s t) : Loadable t where
  inv := hi
  idle := (hf .pend (by decide)).trans h.idle
  noErr := (hf .err (by decide)).trans h.noErr
  noTree := (hf .tv (by decide)).trans h.noTree
  noOut := (hf .out (by decide)).trans h.noOut

theorem loadable_cleared (s : State) (a : Word) : Loadable (s.cleared a) :=
  ⟨inv_clearBlock s, rfl, rfl, rfl, rfl⟩

/-- FREQ is all 0 after a CLEAR (R301). -/
theorem freqAt_cleared (s : State) (a : Word) (c : Byte) : (s.cleared a).freqAt c = 0#32 :=
  freqAt_resetBlock s c

theorem sameBut_trans {l : List Part} {s t u : State} (h : SameBut l s t) (h' : SameBut l t u) : SameBut l s u := by
  intro P hP
  have h1 := h P hP
  have h2 := h' P hP
  cases P <;> exact Eq.trans h2 h1

/-- A command that sets one entry of FREQ and is not stopped is performed in a run, without output (R180, R181). -/
theorem Loadable.issueAndDrain_setEntry {i : Instr} {a k : Word} {c : Byte} {s : State} (h : Loadable s)
    (hg : passesGate i = false) (hp : phaseOk i (s.issued i a) = true)
    (hb : gatedBody i (s.issued i a) = .ok ((s.issued i a).setEntry c k, [])) :
    ∃ t, issueAndDrain i a s = some (t, []) ∧ Inv t ∧ SameBut tableParts s t ∧
      t.freqAt = (s.setFreq c k).freqAt := by
  have he : exec i (s.issued i a) = .next ((s.issued i a).setEntry c k).done := exec_of_body hg h.noErr hp hb
  have hinv : Inv ((s.issued i a).setEntry c k).done := inv_exec (s := s.issued i a) h.inv he
  have hout : ((s.issued i a).setEntry c k).done.out = [] := h.noOut
  refine ⟨{ ((s.issued i a).setEntry c k).done with out := [] }, ?_, inv_out hinv (Nat.zero_le _), fun P hP => ?_, rfl⟩
  · rw [issueAndDrain_of_exec h.idle he rfl, hout]
  · cases P with
    | pend => exact h.idle.symm
    | out => exact h.noOut.symm
    | arg | freq | total | nsym => exact absurd (by decide) hP
    | _ => rfl

theorem Loadable.issueAndDrain_count {s : State} (h : Loadable s) (hmax : s.total.toNat ≠ maxCount) (c : Byte)
    (a : Word) :
    ∃ t, issueAndDrain (.count c) a s = some (t, []) ∧ Inv t ∧ SameBut tableParts s t ∧
      t.freqAt = (s.setFreq c (s.freqAt c + 1#32)).freqAt :=
  h.issueAndDrain_setEntry rfl (congrArg (!·) h.noTree) (countBody_ok (s := s.issued (.count c) a) h.invTotal hmax c)

theorem Loadable.issueAndDrain_loadf {s : State} (h : Loadable s) {c : Byte} {k : Word}
    (hsum : freqSum (s.setFreq c k).freqAt ≤ maxCount) :
    ∃ t, issueAndDrain (.loadf c) k s = some (t, []) ∧ Inv t ∧ SameBut tableParts s t ∧
      t.freqAt = (s.setFreq c k).freqAt :=
  h.issueAndDrain_setEntry rfl (congrArg (!·) h.noTree) (loadfBody_ok (s := s.issued (.loadf c) k) h.invTotal hsum)

/-! ### Counting a buffer (R183) -/

/-- COUNT of each byte of a buffer adds its histogram to FREQ and its length to the sum of FREQ. -/
theorem Loadable.runCommands_count {s : State} (h : Loadable s) {buf : List Byte}
    (hlen : freqSum s.freqAt + buf.length ≤ maxCount) :
    ∃ t, runCommands (plain (buf.map .count)) s = some (t, []) ∧ Inv t ∧ SameBut tableParts s t ∧
      (∀ c, (t.freqAt c).toNat = (s.freqAt c).toNat + buf.count c) ∧
      freqSum t.freqAt = freqSum s.freqAt + buf.length := by
  induction buf generalizing s with
  | nil => exact ⟨s, rfl, h.inv, sameBut_refl _ s, fun _ => by rw [List.count_nil, Nat.add_zero],
      by rw [List.length_nil, Nat.add_zero]⟩
  | cons b buf ih =>
    have htot : s.total.toNat = freqSum s.freqAt := h.invTotal
    rw [List.length_cons] at hlen
    have hmax : s.total.toNat ≠ maxCount := by omega
    obtain ⟨u, hu, hinv, hframe, hfreq⟩ := h.issueAndDrain_count hmax b 0#32
    have hsum : freqSum u.freqAt = freqSum s.freqAt + 1 := by
      rw [hfreq, (freqSum_succ h.invTotal hmax b).1, htot]
    obtain ⟨t, ht, hinv', hframe', hcount, hsum'⟩ := ih (h.of_sameBut hinv hframe) (by omega)
    refine ⟨t, (runCommands_cons_of_silent hu _).trans ht, hinv', sameBut_trans hframe hframe', fun c => ?_, ?_⟩
    · rw [hcount, hfreq, freqAt_setFreq, List.count_cons]
      by_cases hc : c = b
      · subst hc
        rw [if_pos rfl, freqAt_succ_toNat h.invTotal hmax, if_pos (beq_self_eq_true c)]
        omega
      · rw [if_neg hc, if_neg (by simpa using Ne.symm hc)]
        rfl
    · rw [hsum', hsum, List.length_cons]
      omega

/-- A table that is 0 exactly off the list has as many entries as the list has distinct symbols. -/
theorem entryCount_eq_dedup_length {f : Byte → Word} {l : List Byte} (h : ∀ c, f c ≠ 0#32 ↔ c ∈ l) :
    entryCount f = l.dedup.length := by
  refine List.Perm.length_eq ((List.perm_ext_iff_of_nodup (nodup_allSyms.filter _) l.nodup_dedup).2 fun c => ?_)
  simp [mem_allSyms, h]

/-- Settles O31: a CLEAR leaves a table of 0s, to which the run of COUNT adds the histogram. -/
theorem countingABufferGivesItsHistogram : Obligations.CountingABufferGivesItsHistogram := by
  intro s buf hp hlen
  have hl := loadable_cleared s 0#32
  have hzero : freqSum (s.cleared 0#32).freqAt = 0 := freqSum_resetBlock s
  obtain ⟨t, ht, ⟨htot, hns, _⟩, hframe, hcount, hsum⟩ :=
    hl.runCommands_count (buf := buf) (by rwa [hzero, Nat.zero_add])
  have hfreq : ∀ c, (t.freqAt c).toNat = buf.count c := fun c => by
    rw [hcount, freqAt_cleared, BitVec.toNat_ofNat, Nat.zero_mod, Nat.zero_add]
  have hmem : ∀ c, t.freqAt c ≠ 0#32 ↔ c ∈ buf := fun c => by
    rw [← List.count_pos_iff, ← hfreq, Nat.pos_iff_ne_zero, ne_eq, ne_eq, ← BitVec.toNat_inj, BitVec.toNat_ofNat,
      Nat.zero_mod]
  refine ⟨t, (runCommands_cons_of_silent (issueAndDrain_clear hp 0#32) _).trans ht, hframe .err (by decide), hfreq, ?_,
    Eq.trans hns (entryCount_eq_dedup_length hmem)⟩
  exact Eq.trans htot (by rw [hsum, hzero, Nat.zero_add])

/-! ### Loading a table (R184) -/

theorem freqSum_mono {f g : Byte → Word} (h : ∀ c, (f c).toNat ≤ (g c).toNat) : freqSum f ≤ freqSum g :=
  List.sum_le_sum fun c _ => h c

/-- LOADF of entries of a table, over a table that is nowhere larger, replaces just these entries: on the way FREQ never
passes the table, so TOTAL never passes its sum. -/
theorem Loadable.runCommands_loadf {s : State} (h : Loadable s) {table : Byte → Word}
    (hsum : freqSum table ≤ maxCount) (hle : ∀ c, (s.freqAt c).toNat ≤ (table c).toNat) (order : List Byte) :
    ∃ t, runCommands (order.map fun c => (.loadf c, table c)) s = some (t, []) ∧ Inv t ∧ SameBut tableParts s t ∧
      ∀ c, t.freqAt c = if c ∈ order then table c else s.freqAt c := by
  induction order generalizing s with
  | nil => exact ⟨s, rfl, h.inv, sameBut_refl _ s, fun _ => (if_neg List.not_mem_nil).symm⟩
  | cons b order ih =>
    have hstep : ∀ c, ((s.setFreq b (table b)).freqAt c).toNat ≤ (table c).toNat := fun c => by
      rw [freqAt_setFreq]
      split
      · rename_i hc
        rw [hc]
      · exact hle c
    obtain ⟨u, hu, hinv, hframe, hfreq⟩ := h.issueAndDrain_loadf (Nat.le_trans (freqSum_mono hstep) hsum)
    obtain ⟨t, ht, hinv', hframe', hload⟩ := ih (h.of_sameBut hinv hframe) (by rwa [hfreq])
    refine ⟨t, (runCommands_cons_of_silent hu _).trans ht, hinv', sameBut_trans hframe hframe', fun c => ?_⟩
    rw [hload, hfreq, freqAt_setFreq]
    by_cases hc : c = b
    · subst hc
      simp
    · simp [hc]

/-- Settles O32: a CLEAR leaves a table of 0s, and the symbols not loaded have 0 in the table. -/
theorem loadingATableInAnyOrderReproducesIt : Obligations.LoadingATableInAnyOrderReproducesIt := by
  intro s table order hp hsum _ horder
  have hl := loadable_cleared s 0#32
  obtain ⟨t, ht, _, hframe, hload⟩ := hl.runCommands_loadf hsum (fun c => by
    rw [freqAt_cleared]; exact Nat.zero_le _) order
  refine ⟨t, (runCommands_cons_of_silent (issueAndDrain_clear hp 0#32) _).trans ht, hframe .err (by decide), ?_⟩
  funext c
  rw [hload, freqAt_cleared]
  by_cases hc : table c = 0#32 <;> simp [horder, hc]

end Sys2Proof.Machine

/-! SUPPORT. The tree builder (42_tree): keys and ExtractMin, BUILD, the shape of the tree it leaves, RDNODE. -/

namespace Sys2Proof.Machine

/-! ### Keys and ExtractMin (R200, R201) -/

theorem Key.less_iff {a b : Key} :
    a.less b = true ↔ a.weight.toNat < b.weight.toNat ∨ a.weight.toNat = b.weight.toNat ∧ a.idx < b.idx := by
  simp [Key.less, BitVec.toNat_inj]

theorem Key.less_eq_false_iff {a b : Key} :
    a.less b = false ↔ b.weight.toNat < a.weight.toNat ∨ a.weight.toNat = b.weight.toNat ∧ b.idx ≤ a.idx := by
  rw [← Bool.not_eq_true, Key.less_iff]
  omega

theorem Key.eq_of_toNat_eq {a b : Key} (hw : a.weight.toNat = b.weight.toNat) (hi : a.idx = b.idx) : a = b := by
  obtain ⟨w, i⟩ := a
  obtain ⟨w', i'⟩ := b
  cases hi
  cases BitVec.eq_of_toNat_eq hw
  rfl

theorem Key.less_trans {a b c : Key} (hab : a.less b = true) (hbc : b.less c = true) : a.less c = true := by
  rw [Key.less_iff] at *
  omega

theorem Key.not_less_trans {a b c : Key} (hba : b.less a = false) (hcb : c.less b = false) : c.less a = false := by
  rw [Key.less_eq_false_iff] at *
  omega

theorem Key.not_less_of_less {a b : Key} (h : a.less b = true) : b.less a = false := by
  rw [Key.less_eq_false_iff]
  rw [Key.less_iff] at h
  omega

/-- No key left behind is less than the one ExtractMin takes. -/
theorem extractMin_least {q r : List Key} {m : Key} (h : extractMin q = some (m, r)) : ∀ k ∈ r, k.less m = false := by
  induction q generalizing m r with
  | nil => cases h
  | cons a q ih =>
    simp only [extractMin] at h
    cases hq : extractMin q with
    | none =>
      rw [hq] at h
      cases h
      simp
    | some mr =>
      obtain ⟨m', r'⟩ := mr
      rw [hq] at h
      cases hless : a.less m' with
      | false =>
        simp only [hless] at h
        cases h
        exact List.forall_mem_cons.2 ⟨hless, ih hq⟩
      | true =>
        simp only [hless] at h
        cases h
        have ha : m'.less a = false := Key.not_less_of_less hless
        exact List.forall_mem_cons.2 ⟨ha, fun k hk => Key.not_less_trans ha (ih hq k hk)⟩

/-- Settles O33: the order compares the two components as numbers; ExtractMin by induction on the collection. -/
theorem extractMinTakesTheLeastKey : Obligations.ExtractMinTakesTheLeastKey := by
  refine ⟨fun a b hne => ?_, fun q hq => ?_⟩
  · have hidx : a.weight.toNat = b.weight.toNat → a.idx ≠ b.idx := fun hw hi => hne (Key.eq_of_toNat_eq hw hi)
    simp only [Key.less_iff, Key.less_eq_false_iff]
    omega
  · cases h : extractMin q with
    | none => exact absurd (extractMin_none h) hq
    | some mr => exact ⟨mr.1, mr.2, rfl, extractMin_perm h, extractMin_least h⟩

/-! ### BUILD (R206) -/

/-- What BUILD leaves before it completes (R202-R206). -/
def State.built (s : State) : State :=
  { s with
    node := treeNodes s.freqAt
    ncount := BitVec.ofNat 10 (treeNodes s.freqAt).length
    root := BitVec.ofNat 9 ((treeNodes s.freqAt).length - 1)
    tv := true }

theorem buildBody_ok {s : State} (hn : s.nsym ≠ 0#9) : buildBody s = .ok (s.built, []) := by
  rw [buildBody, if_neg hn]
  rfl

theorem buildBody_empty {s : State} (hn : s.nsym = 0#9) : buildBody s = .error .emptyInput := by
  rw [buildBody, if_pos hn]

theorem phaseOk_build {s : State} (ht : s.tv = false) : phaseOk .build s = true := by
  simp [phaseOk, ht]

theorem exec_build {s : State} (h0 : s.err = .none) (ht : s.tv = false) (hn : s.nsym ≠ 0#9) :
    exec .build s = .next s.built.done :=
  exec_of_body rfl h0 (phaseOk_build ht) (buildBody_ok hn)

theorem sameBut_built_done (s : State) : SameBut [.node, .ncount, .root, .tv, .pend] s s.built.done := by
  intro P hP
  cases P with
  | node | ncount | root | tv | pend => exact absurd (by decide) hP
  | _ => rfl

/-- Settles O34: the sizes are the invariants of the state BUILD leaves. -/
theorem buildSizesTheTree : Obligations.BuildSizesTheTree := by
  intro s hinv h0
  refine ⟨fun ht => ?tree, fun ht hn => ?entry, fun ht hn => ?empty⟩
  case tree =>
    exact failsWith_of_phase h0 (by simp [phaseOk, ht])
  case entry =>
    have hbuilt : Inv s.built := inv_build hinv ht (buildBody_ok hn)
    have hlen := (tree_of_inv hbuilt rfl).length_eq
    obtain ⟨_, _, _, _, htree, _⟩ := hbuilt
    obtain ⟨_, hncount, hroot, _⟩ := htree rfl
    exact ⟨s.built.done, exec_build h0 ht hn, rfl, rfl, hncount, hroot, hlen, sameBut_built_done s⟩
  case empty =>
    exact failsWith_of_body rfl h0 (phaseOk_build ht) (buildBody_empty hn)

/-- Settles O41: NODE, ROOT and NCOUNT of `State.built` are functions of FREQ. -/
theorem treeIsAFunctionOfTheTable : Obligations.TreeIsAFunctionOfTheTable := by
  intro s s' t t' hinv hinv' h0 h0' ht ht' hn hfreq he he'
  have hf : s.freqAt = s'.freqAt := funext hfreq
  have hns : s.nsym = s'.nsym := by
    obtain ⟨_, hns, _⟩ := hinv
    obtain ⟨_, hns', _⟩ := hinv'
    exact BitVec.eq_of_toNat_eq (hns.trans ((congrArg entryCount hf).trans hns'.symm))
  rw [exec_build h0 ht hn] at he
  rw [exec_build h0' ht' (hns ▸ hn)] at he'
  cases he
  cases he'
  simp [State.built, hf]

/-! ### The leaves, and the tree of one symbol (R202, R205) -/

theorem leafNodes_eq_map (f : Byte → Word) :
    leafNodes f = (allSyms.filter fun c => decide (f c ≠ 0#32)).map fun c => leafNode c (f c) := by
  unfold leafNodes
  induction allSyms with
  | nil => rfl
  | cons a l ih => by_cases h : f a = 0#32 <;> simp [h, ih]

theorem TreeOf.take_nsym {s : State} (h : TreeOf s) : s.node.take s.nsym.toNat = leafNodes s.freqAt := by
  obtain ⟨inner, hinner⟩ := h.shape.leaves_first
  rw [hinner, List.take_left' h.leaves_length]

/-- Settles O35: the arena begins with the leaves of the table. -/
theorem leavesStandInAscendingSymbolOrder : Obligations.LeavesStandInAscendingSymbolOrder :=
  fun s hinv ht => (tree_of_inv hinv ht).take_nsym.trans (leafNodes_eq_map s.freqAt)

/-- A table with one entry gives one leaf. -/
theorem leafNodes_of_single {f : Byte → Word} {c : Byte} (h : ∀ d, f d ≠ 0#32 ↔ d = c) :
    leafNodes f = [leafNode c (f c)] := by
  have hlen : (leafNodes f).length = 1 := by
    rw [leafNodes_length, entryCount_eq_dedup_length (l := [c]) (by simpa using h)]
    rfl
  obtain ⟨leaf, hleaf⟩ := List.length_eq_one_iff.1 hlen
  have hmem : leafNode c (f c) ∈ leafNodes f := mem_leafNodes.2 ⟨c, (h c).2 rfl, rfl⟩
  rw [hleaf, List.mem_singleton] at hmem
  rw [hleaf, hmem]

/-- With codes, the code of a symbol with an entry is a path of at least one step to its leaf (R230, R232). -/
theorem codeAt_path {s : State} (hinv : Inv s) (hcv : s.cv = true) {c : Byte} (hc : s.freqAt c ≠ 0#32) :
    ∃ j, pathTo s.nodeAt s.root (s.codeAt c).bits j ∧ (s.nodeAt j).kind = .leaf ∧ (s.nodeAt j).sym = c ∧
      1 ≤ (s.codeAt c).bits.length := by
  have ⟨_, _, ⟨htree, _⟩, _, _, hcode, _⟩ := hinv
  obtain ⟨q, j, hq, hpath, hleaf, hsym, hpos, _⟩ := ((tree_of_inv hinv (htree hcv)).code c).1 hc
  have hbits : s.codeAt c = ⟨q⟩ := by
    rw [State.codeAt]
    simp only [show s.code = _ from hcode hcv, hq, Option.getD_some]
  exact hbits ▸ ⟨j, hpath, hleaf, hsym, hpos⟩

/-- With one symbol the root is node 1, and the only steps from it lead left. -/
theorem TreeOf.path_of_single {s : State} (h : TreeOf s) (hn : s.nsym.toNat = 1) {p : List Bool} {j : NodeIdx}
    (hp : pathTo s.nodeAt s.root p j) (hpos : 1 ≤ p.length) : p = [false] := by
  have hroot := h.root_eq
  rw [h.size, if_pos hn] at hroot
  have hle := h.path_lt h.root_lt hp
  obtain ⟨b, rfl⟩ := List.length_eq_one_iff.1 (show p.length = 1 by omega)
  obtain ⟨hk, hchild, _⟩ := hp
  cases b with
  | false => rfl
  | true => exact absurd ((h.child_nil h.root_lt hk).2 ⟨hn, rfl⟩) hchild

/-- Settles O36: the lone leaf makes BUILD wrap it, and the code is the one path of such a tree. -/
theorem singleSymbolGetsAWrapper : Obligations.SingleSymbolGetsAWrapper := by
  intro s c hinv ht hone
  have tr := tree_of_inv hinv ht
  have hleaves := leafNodes_of_single hone
  have hnsym : s.nsym.toNat = 1 := by rw [← tr.leaves_length, hleaves, List.length_singleton]
  have hlen : s.node.length = 2 := by rw [tr.size, if_pos hnsym]
  have hroot := tr.root_eq
  have hncount := tr.length_eq
  rw [hlen] at hroot hncount
  refine ⟨?_, BitVec.eq_of_toNat_eq hncount.symm, BitVec.eq_of_toNat_eq hroot, fun hcv => ?_⟩
  · rw [tr.node_eq, treeNodes, hleaves]
    rfl
  · obtain ⟨j, hpath, _, _, hpos⟩ := codeAt_path hinv hcv ((hone c).2 rfl)
    exact tr.path_of_single hnsym hpath hpos

/-! ### Internal nodes, weights and depths (R204, R207, R210) -/

/-- With two symbols or more no child of an internal node is missing. -/
theorem TreeOf.child_present {s : State} (h : TreeOf s) (hn : 2 ≤ s.nsym.toNat) {i : NodeIdx}
    (hlt : i.toNat < s.node.length) (hk : (s.nodeAt i).kind = .internal) (b : Bool) : childOf s.nodeAt i b ≠ NIL :=
  fun hnil => by
    have hone := ((h.child_nil hlt hk).1 hnil).1
    omega

/-- Settles O37: the children of an internal node are missing in the wrapper only, and those there are older. -/
theorem internalNodesHaveTwoOlderChildren : Obligations.InternalNodesHaveTwoOlderChildren := by
  intro s i hinv ht hn hge hlt
  have tr := tree_of_inv hinv ht
  rw [← tr.length_eq] at hlt
  obtain ⟨hk, hsym, _⟩ := tr.shape.internal _ _ (tr.leaves_length.le.trans hge) (reads_nodeAt s i hlt)
  have hchild : ∀ b, childOf s.nodeAt i b ≠ NIL := tr.child_present hn hlt hk
  exact ⟨hk, hsym, hchild false, hchild true, tr.child_lt hlt hk (hchild false), tr.child_lt hlt hk (hchild true)⟩

/-- The weight a node adds to its parent's, 0 for NIL (R207). -/
def State.weightAt (s : State) (i : NodeIdx) : Nat := if i = 0x1FF#9 then 0 else (s.nodeAt i).weight.toNat

/-- An index of the arena is not NIL, which is past the largest arena. -/
theorem TreeOf.weightAt_eq {s : State} (h : TreeOf s) {i : NodeIdx} {nd : NodeRec}
    (hi : s.node[i.toNat]? = some nd) : s.weightAt i = nd.weight.toNat := by
  have hlt := (List.getElem?_eq_some_iff.1 hi).1
  have hmax := h.length_pos.2
  have hne : i ≠ 0x1FF#9 := fun e => absurd hlt (by rw [e]; exact Nat.not_lt.2 hmax)
  rw [State.weightAt, if_neg hne, Option.some.inj ((reads_nodeAt s i hlt).symm.trans hi)]

theorem TreeOf.weightAt_children {s : State} (h : TreeOf s) {i : NodeIdx} (hlt : i.toNat < s.node.length)
    (hk : (s.nodeAt i).kind = .internal) :
    s.weightAt i = s.weightAt (s.nodeAt i).left + s.weightAt (s.nodeAt i).right := by
  have hi := reads_nodeAt s i hlt
  have hge := (h.internal_iff hlt).1 hk
  obtain ⟨nl, hl, hright⟩ := h.shape.weight_sum _ _ (h.leaves_length.le.trans hge) hi
  rw [h.weightAt_eq hi, h.weightAt_eq hl]
  rcases hright with ⟨hnil, hsum⟩ | ⟨nr, hr, hsum⟩
  · rw [hnil, hsum]
    rfl
  · rw [h.weightAt_eq hr, hsum]

theorem TreeOf.weightAt_root {s : State} (h : TreeOf s) : s.weightAt s.root = freqSum s.freqAt := by
  obtain ⟨nd, hroot, hsum⟩ := h.shape.root_weight
  rw [← h.root_eq] at hroot
  rw [h.weightAt_eq hroot, hsum, leafNodes_weight]

/-- Settles O39: the sums of the finished arena, and TOTAL as the sum of FREQ. -/
theorem weightsAreSumsAndRootIsTotal : Obligations.WeightsAreSumsAndRootIsTotal := by
  intro s hinv ht
  have tr := tree_of_inv hinv ht
  obtain ⟨htot, _⟩ := hinv
  exact ⟨fun i hlt hk => tr.weightAt_children (tr.length_eq ▸ hlt) hk, tr.weightAt_root.trans htot.symm⟩

/-- A path to a leaf has a last step, from an internal node, so every step but that one leads to an index `NSYM` or
above. -/
theorem TreeOf.leaf_depth_le {s : State} (h : TreeOf s) {i : NodeIdx} {p : List Bool}
    (hk : (s.nodeAt i).kind = .leaf) (hp : pathTo s.nodeAt s.root p i) :
    1 ≤ p.length ∧ p.length + s.nsym.toNat ≤ s.node.length := by
  rcases List.eq_nil_or_concat p with rfl | ⟨q, b, rfl⟩
  · cases hp
    exact absurd (h.root_internal.symm.trans hk) (by decide)
  · rw [List.concat_eq_append] at hp ⊢
    obtain ⟨j, hq, hkj, _⟩ := pathTo_split hp
    have hroot := h.root_eq
    have hlt := h.root_lt
    have hle := h.path_lt hlt hq
    have hge := (h.internal_iff (i := j) (by omega)).1 hkj
    rw [List.length_append, List.length_singleton]
    omega

/-- Settles O40: paths exist and are unique, and a leaf's depth is bounded by the number of internal nodes. -/
theorem treeIsStrictAndDepthBounded : Obligations.TreeIsStrictAndDepthBounded := by
  intro s hinv ht
  have tr := tree_of_inv hinv ht
  refine ⟨fun i hlt => ?_, tr.root_internal, fun i p _ hk hp => ?_⟩
  · obtain ⟨p, hp⟩ := tr.reaches (tr.length_eq ▸ hlt)
    exact ⟨p, hp, fun q hq => tr.path_unique hq hp⟩
  · obtain ⟨hpos, hle⟩ := tr.leaf_depth_le hk hp
    have hsize := tr.size
    refine ⟨hpos, ?_⟩
    by_cases hn : s.nsym.toNat = 1
    · rw [if_pos hn] at hsize ⊢
      omega
    · rw [if_neg hn] at hsize ⊢
      omega

/-! ### The order of extraction (R203) -/

/-- The key of a node of an arena (R200). -/
def keyAt (nodes : List NodeRec) (i : Nat) : Key := ⟨((nodes[i]?).map NodeRec.weight).getD 0#32, i⟩

theorem keyAt_of_getElem? {nodes : List NodeRec} {i : Nat} {nd : NodeRec} (h : nodes[i]? = some nd) :
    keyAt nodes i = ⟨nd.weight, i⟩ := by
  simp [keyAt, h]

theorem keyAt_append {nodes : List NodeRec} {i : Nat} (h : i < nodes.length) (more : List NodeRec) :
    keyAt (nodes ++ more) i = keyAt nodes i := by
  rw [keyAt, keyAt, List.getElem?_append_left h]

theorem refs_concat (nodes : List NodeRec) (nd : NodeRec) : refs (nodes ++ [nd]) = refs nodes ++ childrenOf nd := by
  simp [refs]

/-- The keys the loop has taken from the collection, in the order it took them: those of the children, node by node. -/
def takenKeys (nodes : List NodeRec) : List Key := (refs nodes).map (keyAt nodes)

/-- The keys rise in the order they were taken, up to those still in the collection `q`. -/
structure Rising (q : List Key) (nodes : List NodeRec) : Prop where
  taken : (takenKeys nodes).Pairwise fun a b => a.less b = true
  waiting : ∀ a ∈ takenKeys nodes, ∀ k ∈ q, a.less k = true

theorem rising_start {leaves : List NodeRec} (hl : ∀ nd ∈ leaves, nd.kind = .leaf) (q : List Key) :
    Rising q leaves where
  taken := by simp [takenKeys, refs_leaves hl]
  waiting := by simp [takenKeys, refs_leaves hl]

section Pass

variable {leaves nodes : List NodeRec} {q q1 q2 : List Key} {x y : Key}

theorem Arena.keyAt_idx (ha : Arena leaves q nodes) {k : Key} (hk : k ∈ q) : keyAt nodes k.idx = k := by
  obtain ⟨nd, hnd, hw⟩ := ha.keys k hk
  rw [keyAt_of_getElem? hnd, hw]

theorem Arena.idx_lt (ha : Arena leaves q nodes) {k : Key} (hk : k ∈ q) : k.idx < nodes.length :=
  List.mem_range.1 (ha.once.mem_iff.1 (List.mem_append_left _ (List.mem_map_of_mem hk)))

theorem Arena.ref_lt (ha : Arena leaves q nodes) {i : Nat} (hi : i ∈ refs nodes) : i < nodes.length :=
  List.mem_range.1 (ha.once.mem_iff.1 (List.mem_append_right _ hi))

theorem Arena.idx_nodup (ha : Arena leaves q nodes) : (q.map Key.idx).Nodup :=
  (List.nodup_append.1 (ha.once.nodup_iff.2 List.nodup_range)).1

/-- Of a collection without a repeated index ExtractMin takes a key that is less than every other. -/
theorem extractMin_less (hn : (q.map Key.idx).Nodup) (hx : extractMin q = some (x, q1)) :
    (q1.map Key.idx).Nodup ∧ ∀ k ∈ q1, x.less k = true := by
  rw [((extractMin_perm hx).map Key.idx).nodup_iff, List.map_cons, List.nodup_cons] at hn
  obtain ⟨hnot, hn⟩ := hn
  refine ⟨hn, fun k hk => ?_⟩
  have hne : k.idx ≠ x.idx := fun e => hnot (e ▸ List.mem_map_of_mem hk)
  have hleast := extractMin_least hx k hk
  rw [Key.less_eq_false_iff] at hleast
  rw [Key.less_iff]
  omega

variable (hmax : (leaves.map fun nd => nd.weight.toNat).sum ≤ maxCount) (hn : leaves.length ≤ 256)
  (hx : extractMin q = some (x, q1)) (hy : extractMin q1 = some (y, q2)) (ha : Arena leaves q nodes)
include hx hy

theorem extractMin_pair_perm : q.Perm (x :: y :: q2) := (extractMin_perm hx).trans ((extractMin_perm hy).cons x)

theorem extractMin_pair_mem : x ∈ q ∧ y ∈ q :=
  ⟨(extractMin_pair_perm hx hy).mem_iff.2 (by simp), (extractMin_pair_perm hx hy).mem_iff.2 (by simp)⟩

include ha

include hmax in
/-- The key of the node a pass makes is greater than those it takes: its weight is no less, its index greater. -/
theorem Arena.less_new : y.less ⟨x.weight + y.weight, nodes.length⟩ = true := by
  have hlt : y.idx < nodes.length := ha.idx_lt (extractMin_pair_mem hx hy).2
  have hsum := ha.weights
  rw [((extractMin_pair_perm hx hy).map _).sum_eq] at hsum
  simp only [List.map_cons, List.sum_cons] at hsum
  simp only [maxCount] at hmax
  rw [Key.less_iff, BitVec.toNat_add, Nat.mod_eq_of_lt (by omega)]
  dsimp only
  omega

include hn in
/-- A pass takes its two keys after those taken before. -/
theorem Arena.takenKeys_pass (w : Word) :
    takenKeys (nodes ++ [internalNode w (BitVec.ofNat 9 x.idx) (BitVec.ofNat 9 y.idx)]) =
      takenKeys nodes ++ [x, y] := by
  obtain ⟨hxq, hyq⟩ := extractMin_pair_mem hx hy
  have hxlt := ha.idx_lt hxq
  have hylt := ha.idx_lt hyq
  have hsize := ha.size
  have hpos := List.length_pos_of_mem hxq
  have hold : (refs nodes).map (keyAt (nodes ++ [internalNode w (BitVec.ofNat 9 x.idx) (BitVec.ofNat 9 y.idx)])) =
      (refs nodes).map (keyAt nodes) :=
    List.map_congr_left fun i hi => keyAt_append (ha.ref_lt hi) _
  rw [takenKeys, takenKeys, refs_concat, childrenOf_internal (by omega) (by omega), List.map_append, hold,
    List.map_cons, List.map_singleton, keyAt_append hxlt, keyAt_append hylt, ha.keyAt_idx hxq, ha.keyAt_idx hyq]

include hmax hn in
/-- One pass of the loop takes two keys above those taken before and below those it leaves (R203). -/
theorem rising_pass (hr : Rising q nodes) :
    Rising (⟨x.weight + y.weight, nodes.length⟩ :: q2)
      (nodes ++ [internalNode (x.weight + y.weight) (BitVec.ofNat 9 x.idx) (BitVec.ofNat 9 y.idx)]) := by
  obtain ⟨hxq, hyq⟩ := extractMin_pair_mem hx hy
  obtain ⟨hnodup, hleast⟩ := extractMin_less ha.idx_nodup hx
  have hxy : x.less y = true := hleast y ((extractMin_perm hy).mem_iff.2 (by simp))
  have hafter : ∀ k ∈ (⟨x.weight + y.weight, nodes.length⟩ :: q2 : List Key), y.less k = true :=
    List.forall_mem_cons.2 ⟨ha.less_new hmax hx hy, (extractMin_less hnodup hy).2⟩
  have htaken := ha.takenKeys_pass hn hx hy (x.weight + y.weight)
  refine ⟨?taken, ?waiting⟩
  case taken =>
    rw [htaken, List.pairwise_append]
    exact ⟨hr.taken, List.pairwise_pair.2 hxy, fun a hold => by simp [hr.waiting a hold x hxq, hr.waiting a hold y hyq]⟩
  case waiting =>
    intro a hmem k hk
    rw [htaken, List.mem_append, List.mem_cons, List.mem_singleton] at hmem
    rcases hmem with hold | rfl | rfl
    · exact Key.less_trans (hr.waiting a hold y hyq) (hafter k hk)
    · exact Key.less_trans hxy (hafter k hk)
    · exact hafter k hk

end Pass

/-- What every pass of the loop keeps holds at its end, with one key left (R203, R204). -/
theorem combine_keeps {P : List Key → List NodeRec → Prop}
    (hpass : ∀ {q q1 q2 : List Key} {x y : Key} {nodes : List NodeRec}, extractMin q = some (x, q1) →
      extractMin q1 = some (y, q2) → P q nodes → P (⟨x.weight + y.weight, nodes.length⟩ :: q2)
        (nodes ++ [internalNode (x.weight + y.weight) (BitVec.ofNat 9 x.idx) (BitVec.ofNat 9 y.idx)]))
    (passes : Nat) {q : List Key} {nodes : List NodeRec} (hq : q.length = passes + 1) (h : P q nodes) :
    ∃ k, P [k] (combine passes q nodes) := by
  induction passes generalizing q nodes with
  | zero =>
    obtain ⟨k, rfl⟩ := List.length_eq_one_iff.1 hq
    exact ⟨k, h⟩
  | succ passes ih =>
    cases hx : extractMin q with
    | none =>
      rw [extractMin_none hx] at hq
      cases hq
    | some xr =>
      obtain ⟨x, q1⟩ := xr
      have hlen1 := (extractMin_perm hx).length_eq
      rw [List.length_cons] at hlen1
      cases hy : extractMin q1 with
      | none =>
        rw [extractMin_none hy, List.length_nil] at hlen1
        omega
      | some yr =>
        obtain ⟨y, q2⟩ := yr
        have hlen2 := (extractMin_perm hy).length_eq
        rw [List.length_cons] at hlen2
        simp only [combine, hx, hy]
        exact ih (by rw [List.length_cons]; omega) (hpass hx hy h)

theorem treeNodes_eq_combine {f : Byte → Word} (h : 2 ≤ (leafNodes f).length) :
    treeNodes f = combine ((leafNodes f).length - 1) (keysFrom 0 (leafNodes f)) (leafNodes f) := by
  rw [treeNodes]
  split
  · rename_i leaf hleaf
    rw [hleaf, List.length_singleton] at h
    omega
  · rfl

/-- In the tree of two symbols or more the children stand in the order of their keys. -/
theorem TreeOf.refs_rising {s : State} (h : TreeOf s) (hinv : Inv s) (hn : 2 ≤ s.nsym.toNat) :
    (refs s.node).Pairwise fun i j => (keyAt s.node i).less (keyAt s.node j) = true := by
  have hlen := h.leaves_length
  have hle : (leafNodes s.freqAt).length ≤ 256 := hlen ▸ h.nsym_le
  have hmax : ((leafNodes s.freqAt).map fun nd => nd.weight.toNat).sum ≤ maxCount :=
    leafNodes_weight s.freqAt ▸ freqSum_le_of_inv hinv
  obtain ⟨k, -, hr⟩ := combine_keeps (P := fun q nodes => Arena (leafNodes s.freqAt) q nodes ∧ Rising q nodes)
    (fun hx hy ⟨ha, hr⟩ => ⟨arena_pass hle hmax ha hx hy, rising_pass hmax hle hx hy ha hr⟩)
    ((leafNodes s.freqAt).length - 1) (by rw [keysFrom_length]; omega)
    ⟨arena_start leafNodes_kind, rising_start leafNodes_kind _⟩
  rw [h.node_eq, treeNodes_eq_combine (hlen ▸ hn)]
  exact List.pairwise_map.1 hr.taken

/-- The key of a node in use, as the engine reads it (R200). -/
def State.keyOf (s : State) (i : NodeIdx) : Key := ⟨(s.nodeAt i).weight, i.toNat⟩

theorem keyAt_node {s : State} {i : NodeIdx} (hlt : i.toNat < s.node.length) : keyAt s.node i.toNat = s.keyOf i :=
  keyAt_of_getElem? (reads_nodeAt s i hlt)

section Order

variable {s : State} (h : TreeOf s) (hn : 2 ≤ s.nsym.toNat) {i j : NodeIdx} (hi : i.toNat < s.node.length)
  (hki : (s.nodeAt i).kind = .internal)
include h hn hi hki

theorem TreeOf.keyAt_child (b : Bool) :
    keyAt s.node (childOf s.nodeAt i b).toNat = s.keyOf (childOf s.nodeAt i b) :=
  keyAt_node ((h.child_lt hi hki (h.child_present hn hi hki b)).trans hi)

theorem TreeOf.childrenOf_eq : childrenOf (s.nodeAt i) = [(s.nodeAt i).left.toNat, (s.nodeAt i).right.toNat] := by
  have hl : (s.nodeAt i).left ≠ NIL := h.child_present hn hi hki false
  have hr : (s.nodeAt i).right ≠ NIL := h.child_present hn hi hki true
  simp [childrenOf, hki, hl, hr]

/-- The left child was extracted before the right one. -/
theorem TreeOf.left_less_right (hinv : Inv s) :
    (s.keyOf (s.nodeAt i).left).less (s.keyOf (s.nodeAt i).right) = true := by
  have hpair := (List.pairwise_flatMap.1 (h.refs_rising hinv hn)).1 _ (List.mem_of_getElem? (reads_nodeAt s i hi))
  rw [h.childrenOf_eq hn hi hki, List.pairwise_pair] at hpair
  exact h.keyAt_child hn hi hki false ▸ h.keyAt_child hn hi hki true ▸ hpair

/-- The children of an older node were extracted before those of a newer one. -/
theorem TreeOf.right_less_left (hinv : Inv s) (hj : j.toNat < s.node.length) (hkj : (s.nodeAt j).kind = .internal)
    (hij : i.toNat < j.toNat) : (s.keyOf (s.nodeAt i).right).less (s.keyOf (s.nodeAt j).left) = true := by
  have hpair := (List.pairwise_flatMap.1 (h.refs_rising hinv hn)).2
  have hless := List.pairwise_iff_getElem.1 hpair i.toNat j.toNat hi hj hij
  rw [(List.getElem?_eq_some_iff.1 (reads_nodeAt s i hi)).2, (List.getElem?_eq_some_iff.1 (reads_nodeAt s j hj)).2,
    h.childrenOf_eq hn hi hki, h.childrenOf_eq hn hj hkj] at hless
  exact h.keyAt_child hn hi hki true ▸ h.keyAt_child hn hj hkj false ▸ hless _ (by simp [childOf]) _ (by simp [childOf])

end Order

/-- Settles O38: every pass of BUILD's loop keeps `Rising`, so `refs` lists the children in the order of their keys. -/
theorem childrenAreExtractedInKeyOrder : Obligations.ChildrenAreExtractedInKeyOrder := by
  refine ⟨fun s i hinv ht hn hge hlt => ?within, fun s i j hinv ht hn hge hij hlt => ?between⟩
  case within =>
    have tr := tree_of_inv hinv ht
    rw [← tr.length_eq] at hlt
    exact tr.left_less_right hn hlt (tr.internal hge hlt) hinv
  case between =>
    have tr := tree_of_inv hinv ht
    rw [← tr.length_eq] at hlt
    have hi : i.toNat < s.node.length := by omega
    exact tr.right_less_left hn hi (tr.internal hge hi) hinv hlt (tr.internal (by omega) hlt) (by omega)

/-! ### RDNODE (R209) -/

theorem operandNode_eq {s : State} {p : PendCmd} (hp : s.pend = some p) :
    s.operandNode = BitVec.ofNat 9 p.arg.toNat := by
  apply BitVec.eq_of_toNat_eq
  simp [State.operandNode, State.capturedArg, hp]

theorem exec_rdnode (s : State) :
    exec .rdnode s = .next (s.setRes (rdnodeResult s.operandNode s).1 (rdnodeResult s.operandNode s).2).done :=
  exec_always rfl s

theorem rdnodeResult_used {s : State} {i : NodeIdx} (h : i.toNat < s.ncount.toNat) :
    rdnodeResult i s = ((s.nodeAt i).weight, nodeWord (s.nodeAt i)) := if_pos h

theorem rdnodeResult_unused {s : State} {i : NodeIdx} (h : s.ncount.toNat ≤ i.toNat) :
    rdnodeResult i s = (0#32, 0#32) := if_neg (Nat.not_lt.2 h)

/-- The fields of `RES1` (R209). -/
theorem nodeWord_fields (nd : NodeRec) :
    (nodeWord nd).getLsbD 31 = true ∧ (nodeWord nd).getLsbD 30 = decide (nd.kind = .internal) ∧
      (nodeWord nd).extractLsb' 26 4 = 0#4 ∧ (nodeWord nd).extractLsb' 18 8 = nd.sym ∧
      (nodeWord nd).extractLsb' 9 9 = nd.right ∧ (nodeWord nd).extractLsb' 0 9 = nd.left := by
  have hkind : (nd.kind == NodeKind.internal) = decide (nd.kind = .internal) := by cases nd.kind <;> rfl
  refine ⟨?_, ?_, ?_⟩
  · simp only [nodeWord, BitVec.getLsbD_append, Nat.reduceLT, Nat.reduceSub, if_false]
    rfl
  · simp only [nodeWord, BitVec.getLsbD_append, Nat.reduceLT, Nat.reduceSub, if_false, if_true, bit_getLsbD_zero, hkind]
  · simp (disch := decide) only [nodeWord, BitVec.extractLsb'_append_eq_of_le, BitVec.extractLsb'_append_eq_of_add_le,
      BitVec.extractLsb'_eq_self, Nat.reduceSub, and_self]

/-- NIL is past the nodes in use, and without a tree every index is. -/
theorem ncount_le_of_unused {s : State} (hinv : Inv s) {i : Nat} (h : i = 511 ∨ s.tv = false) :
    s.ncount.toNat ≤ i := by
  rcases h with rfl | ht
  · exact Nat.le_of_lt_succ (ncount_lt_of_inv hinv)
  · obtain ⟨_, _, _, hno, _⟩ := hinv
    rw [(hno ht).2]
    exact Nat.zero_le i

/-- Settles O42: the two branches of RDNODE's result, by the node's index. -/
theorem rdnodeReadsTheNode : Obligations.RdnodeReadsTheNode := by
  intro s p hp
  have hidx : (BitVec.ofNat 9 p.arg.toNat).toNat = p.arg.toNat % 512 := BitVec.toNat_ofNat ..
  have hexec := exec_rdnode s
  rw [operandNode_eq hp] at hexec
  have hunused : s.ncount.toNat ≤ p.arg.toNat % 512 →
      rdnodeResult (BitVec.ofNat 9 p.arg.toNat) s = (0#32, 0#32) := fun h => rdnodeResult_unused (hidx ▸ h)
  refine ⟨_, hexec, rfl, sameBut_mono (sameBut_setRes s _ _) (by simp), fun hlt nd hnd => ?used, fun hge => ?unused,
    fun hinv hni => ?outside⟩
  case used =>
    rw [rdnodeResult_used (hidx ▸ hlt), ← hnd]
    exact ⟨rfl, nodeWord_fields nd⟩
  case unused =>
    rw [hunused hge]
    exact ⟨rfl, rfl⟩
  case outside =>
    rw [hunused (ncount_le_of_unused hinv hni)]
    exact ⟨rfl, rfl⟩

end Sys2Proof.Machine

/-! SUPPORT. The code table (43_codetable): RDCODE's window, the codes GENCODE writes, and what the tree they are read off
makes of them: no code begins another, and their Kraft sum. -/

namespace Sys2Proof.Machine

/-! ### RDCODE (R231) -/

theorem operandWindow_toNat {s : State} {p : PendCmd} (hp : s.pend = some p) :
    s.operandWindow.toNat = p.arg.toNat % 8 := by
  simp [State.operandWindow, State.capturedArg, hp]

/-- The window with its first `n` bits placed; `windowWord` is the whole of it (`windowWord_eq`). -/
def windowPrefix (bits : List Bool) (wi n : Nat) : Word :=
  (List.range n).foldl (fun w j => if codeBit bits (32 * wi + j) then w ||| (0x80000000#32 >>> j) else w) 0#32

theorem windowWord_eq (bits : List Bool) (wi : Nat) : windowWord bits wi = windowPrefix bits wi 32 := rfl

theorem windowPrefix_succ (bits : List Bool) (wi n : Nat) :
    windowPrefix bits wi (n + 1) =
      if codeBit bits (32 * wi + n) then windowPrefix bits wi n ||| (0x80000000#32 >>> n)
      else windowPrefix bits wi n := by
  rw [windowPrefix, List.range_succ, List.foldl_append]
  rfl

/-- The one bit that position `n` of a window sets. -/
theorem windowBit_getLsbD {j : Nat} (hj : j < 32) (n : Nat) :
    (0x80000000#32 >>> n).getLsbD (31 - j) = decide (n = j) := by
  have htop : 0x80000000#32 = BitVec.twoPow 32 31 := by decide
  rw [BitVec.getLsbD_ushiftRight, htop, BitVec.getLsbD_twoPow]
  by_cases h : n = j <;> simp [h] <;> omega

theorem windowPrefix_getLsbD (bits : List Bool) (wi n : Nat) {j : Nat} (hj : j < 32) :
    (windowPrefix bits wi n).getLsbD (31 - j) = (decide (j < n) && codeBit bits (32 * wi + j)) := by
  induction n with
  | zero => simp [windowPrefix]
  | succ n ih =>
    rw [windowPrefix_succ, apply_ite (BitVec.getLsbD · (31 - j)), BitVec.getLsbD_or, ih, windowBit_getLsbD hj]
    by_cases hnj : n = j
    · subst hnj
      simp
    · have hlt : j < n + 1 ↔ j < n := by omega
      simp [hnj, hlt]

theorem rdcodeResult_code {s : State} {c : Byte} (hcv : s.cv = true) (hlen : 0 < (s.codeAt c).len) (wi : BitVec 3) :
    rdcodeResult c wi s =
      (1#1 ++ 0#23 ++ BitVec.ofNat 8 (s.codeAt c).len, windowWord (s.codeAt c).bits wi.toNat) := by
  rw [rdcodeResult, if_pos hcv, if_pos hlen]

theorem rdcodeResult_none {s : State} {c : Byte} (h : s.cv = false ∨ (s.codeAt c).len = 0) (wi : BitVec 3) :
    rdcodeResult c wi s = (0#32, 0#32) := by
  rcases h with hcv | hlen
  · rw [rdcodeResult, if_neg (Bool.eq_false_iff.1 hcv)]
  · rw [rdcodeResult, if_neg (Nat.not_lt.2 hlen.le), ite_self]

/-- The fields of `RES0` (R231). -/
theorem codeLenWord_fields (n : BitVec 8) :
    (1#1 ++ 0#23 ++ n).getLsbD 31 = true ∧ (1#1 ++ 0#23 ++ n).extractLsb' 8 23 = 0#23 ∧
      (1#1 ++ 0#23 ++ n).extractLsb' 0 8 = n := by
  simp (disch := decide) only [BitVec.getLsbD_append, BitVec.extractLsb'_append_eq_of_le,
    BitVec.extractLsb'_append_eq_of_add_le, BitVec.extractLsb'_eq_self, Nat.reduceLT, Nat.reduceSub, if_false,
    and_self, and_true]
  rfl

/-- Settles O46: the two branches of RDCODE's result, the window bit by bit. -/
theorem rdcodeReadsAWindow : Obligations.RdcodeReadsAWindow := by
  intro s p c hp
  refine ⟨_, exec_always rfl s, rfl, sameBut_mono (sameBut_setRes s _ _) (by simp), fun hcv hlen => ?code,
    fun hnone => ?none⟩
  case code =>
    simp only [alwaysState, rdcodeResult_code hcv hlen, State.done_res0, State.done_res1, State.setRes_res0,
      State.setRes_res1]
    obtain ⟨hvalid, hreserved, hlength⟩ := codeLenWord_fields (BitVec.ofNat 8 (s.codeAt c).len)
    refine ⟨hvalid, hreserved, by rw [hlength, BitVec.toNat_ofNat], fun j hj => ?_⟩
    rw [windowWord_eq, windowPrefix_getLsbD _ _ _ hj, operandWindow_toNat hp, decide_eq_true hj, Bool.true_and, codeBit]
  case none =>
    simp only [alwaysState, rdcodeResult_none hnone]
    exact ⟨rfl, rfl⟩

/-! ### GENCODE (R230, R232) -/

/-- What GENCODE leaves before it completes (R230). -/
def State.withCodes (s : State) : State := { s with code := codeTableOf s.nodeAt s.root, cv := true }

theorem gencodeBody_eq (s : State) : gatedBody .gencode s = .ok (s.withCodes, []) := rfl

theorem sameBut_withCodes_done (s : State) : SameBut [.code, .cv, .pend] s s.withCodes.done := by
  intro P hP
  cases P with
  | code | cv | pend => exact absurd (by decide) hP
  | _ => rfl

/-- With codes, a symbol without an entry has none. -/
theorem codeAt_eq_nil {s : State} (hinv : Inv s) (hcv : s.cv = true) {c : Byte} (hc : s.freqAt c = 0#32) :
    s.codeAt c = ⟨[]⟩ := by
  have ⟨_, _, ⟨htree, _⟩, _, _, hcode, _⟩ := hinv
  rw [State.codeAt]
  simp only [show s.code = _ from hcode hcv, ((tree_of_inv hinv (htree hcv)).code c).2 hc, Option.getD_some]

/-- With codes, a symbol with a code has an entry. -/
theorem freqAt_ne_zero_of_code {s : State} (hinv : Inv s) (hcv : s.cv = true) {c : Byte}
    (hlen : 0 < (s.codeAt c).len) : s.freqAt c ≠ 0#32 := by
  intro hc
  rw [codeAt_eq_nil hinv hcv hc] at hlen
  exact absurd hlen (by decide)

/-- Settles O43: the state GENCODE leaves meets the invariants, and its codes are those of a state with codes. -/
theorem gencodeGivesEverySymbolItsPath : Obligations.GencodeGivesEverySymbolItsPath := by
  intro s hinv h0
  refine ⟨fun h => ?phase, fun ht hcv => ?codes⟩
  case phase =>
    refine failsWith_of_phase h0 ?_
    rcases h with ht | hcv
    · simp [phaseOk, ht]
    · simp [phaseOk, hcv]
  case codes =>
    have hphase : phaseOk .gencode s = true := by simp [phaseOk, ht, hcv]
    have hcoded : Inv s.withCodes := inv_body hinv hphase (gencodeBody_eq s)
    refine ⟨s.withCodes.done, exec_of_body rfl h0 hphase (gencodeBody_eq s), rfl, rfl, sameBut_withCodes_done s,
      fun c => ⟨fun hc => ?entry, fun hc => ?none⟩⟩
    case entry =>
      obtain ⟨j, hpath, hleaf, hsym, hpos⟩ := codeAt_path hcoded rfl hc
      exact ⟨hpos, j, hpath, hleaf, hsym⟩
    case none =>
      exact congrArg CodeRec.len (codeAt_eq_nil hcoded rfl hc)

/-! ### No code begins another (R233) -/

/-- Settles O44: no path goes on from the leaf where a code ends, so the two codes would end at one leaf. -/
theorem codesArePrefixFree : Obligations.CodesArePrefixFree := by
  rintro s c d hinv hcv hne hc hd ⟨q, hq⟩
  obtain ⟨i, hpathc, hleafc, rfl, _⟩ := codeAt_path hinv hcv (freqAt_ne_zero_of_code hinv hcv hc)
  obtain ⟨j, hpathd, _, rfl, _⟩ := codeAt_path hinv hcv (freqAt_ne_zero_of_code hinv hcv hd)
  rw [← hq] at hpathd
  rw [pathTo_leaf_append hpathc hleafc hpathd, List.append_nil] at hpathd
  exact hne (congrArg (fun k => (s.nodeAt k).sym) (pathTo_unique hpathc hpathd))

/-! ### The Kraft sum (R234) -/

/-- A quantity that every internal node divides among its children comes in full to the leaves: the last node is no
child, and every other node is the child of one. -/
theorem TreeShape.sum_leaves {leaves nodes : List NodeRec} (hs : TreeShape leaves nodes)
    (hl : ∀ nd ∈ leaves, nd.kind = .leaf) {w : Nat → Nat}
    (hw : ∀ i nd, leaves.length ≤ i → nodes[i]? = some nd → ((childrenOf nd).map w).sum = w i) :
    ((List.range leaves.length).map w).sum = w (nodes.length - 1) := by
  obtain ⟨inner, hinner⟩ := hs.leaves_first
  have hshares : (inner.map fun nd => ((childrenOf nd).map w).sum) =
      ((List.range inner.length).map (leaves.length + ·)).map w := by
    refine List.ext_getElem (by simp) fun k hk _ => ?_
    rw [List.length_map] at hk
    simp only [List.getElem_map, List.getElem_range]
    exact hw _ _ (Nat.le_add_right _ _) (by simp [hinner, hk])
  have hrefs : ((refs nodes).map w).sum = (((List.range inner.length).map (leaves.length + ·)).map w).sum := by
    rw [← hshares, hinner, refs, List.flatMap_append, show leaves.flatMap childrenOf = [] from refs_leaves hl,
      List.nil_append, List.map_flatMap, List.flatMap_def, List.sum_flatten, List.map_map]
    rfl
  have hall := (hs.once.map w).sum_eq
  have hsplit : List.range nodes.length =
      List.range leaves.length ++ (List.range inner.length).map (leaves.length + ·) := by
    rw [hinner, List.length_append, List.range_add]
  rw [hsplit, List.map_cons, List.sum_cons, List.map_append, List.sum_append, hrefs] at hall
  omega

open Classical in
/-- The number of bit sequences of length 255 that begin with the path to a node; one code of length `len` takes
`2^(255 - len)` of them (R234). -/
noncomputable def State.shareAt (s : State) (i : NodeIdx) : Nat :=
  if h : ∃ p, pathTo s.nodeAt s.root p i then 2 ^ (255 - h.choose.length) else 0

theorem TreeOf.shareAt_eq {s : State} (h : TreeOf s) {i : NodeIdx} {p : List Bool}
    (hp : pathTo s.nodeAt s.root p i) : s.shareAt i = 2 ^ (255 - p.length) := by
  have hex : ∃ p, pathTo s.nodeAt s.root p i := ⟨p, hp⟩
  rw [State.shareAt, dif_pos hex, h.path_unique hex.choose_spec hp]

/-- With two symbols or more a node's share is that of its two children. -/
theorem TreeOf.shareAt_children {s : State} (h : TreeOf s) (hn : 2 ≤ s.nsym.toNat) {i : NodeIdx}
    (hlt : i.toNat < s.node.length) (hk : (s.nodeAt i).kind = .internal) :
    s.shareAt (s.nodeAt i).left + s.shareAt (s.nodeAt i).right = s.shareAt i := by
  obtain ⟨p, hp⟩ := h.reaches hlt
  have hchild : ∀ b, s.shareAt (childOf s.nodeAt i b) = 2 ^ (255 - (p.length + 1)) := fun b => by
    have hstep : pathTo s.nodeAt i [b] (childOf s.nodeAt i b) := ⟨hk, h.child_present hn hlt hk b, rfl⟩
    rw [h.shareAt_eq (pathTo_append hp hstep), List.length_append, List.length_singleton]
  have hdepth : 255 - p.length = 255 - (p.length + 1) + 1 := by
    have hle := h.path_lt h.root_lt hp
    have hge := (h.internal_iff hlt).1 hk
    have hroot := h.root_eq
    have hmax := h.nsym_le
    rw [h.size, if_neg (by omega)] at hroot
    omega
  have hleft := hchild false
  have hright := hchild true
  simp only [childOf, Bool.false_eq_true, if_false, if_true] at hleft hright
  rw [hleft, hright, h.shareAt_eq hp, hdepth, Nat.pow_succ, Nat.mul_two]

theorem TreeOf.shareAt_root {s : State} (h : TreeOf s) : s.shareAt s.root = 2 ^ 255 :=
  h.shareAt_eq (p := []) rfl

/-- The shares of all leaves. -/
noncomputable def State.leafShares (s : State) : Nat :=
  ((List.range s.nsym.toNat).map fun n => s.shareAt (BitVec.ofNat 9 n)).sum

theorem TreeOf.leafShares_eq {s : State} (h : TreeOf s) (hn : 2 ≤ s.nsym.toNat) : s.leafShares = 2 ^ 255 := by
  have hmax := h.length_pos.2
  have hsum := h.shape.sum_leaves leafNodes_kind (w := fun n => s.shareAt (BitVec.ofNat 9 n)) fun i nd hge hi => by
    have hlt := (List.getElem?_eq_some_iff.1 hi).1
    have hidx : (BitVec.ofNat 9 i).toNat = i := ofNat9_toNat (by omega)
    rw [h.leaves_length] at hge
    rw [← hidx] at hi hlt hge
    have hk := h.internal hge hlt
    rw [Option.some.inj (hi.symm.trans (reads_nodeAt s _ hlt)), h.childrenOf_eq hn hlt hk]
    simpa using h.shareAt_children hn hlt hk
  rw [h.leaves_length, ← h.root_eq] at hsum
  rw [State.leafShares, hsum, BitVec.ofNat_toNat, BitVec.setWidth_eq, h.shareAt_root]

theorem TreeOf.leafShares_of_single {s : State} (h : TreeOf s) (hn : s.nsym.toNat = 1) : s.leafShares = 2 ^ 254 := by
  obtain ⟨p, hp⟩ := h.reaches (i := 0#9) (Nat.zero_lt_two.trans_le h.length_pos.1)
  have hleaf : (s.nodeAt 0#9).kind = .leaf := (h.leaf (i := 0#9) h.nsym_pos).2
  rw [h.path_of_single hn hp (h.leaf_depth_le hleaf hp).1] at hp
  rw [State.leafShares, hn]
  exact (Nat.add_zero _).trans (h.shareAt_eq hp)

/-- The leaves a path can end at are the first `NSYM` nodes. -/
theorem TreeOf.leaf_lt {s : State} (h : TreeOf s) {p : List Bool} {j : NodeIdx} (hp : pathTo s.nodeAt s.root p j)
    (hleaf : (s.nodeAt j).kind = .leaf) : j.toNat < s.nsym.toNat := by
  have hle := h.path_lt h.root_lt hp
  have hroot := h.root_lt
  by_contra hge
  exact absurd ((h.internal (Nat.not_lt.1 hge) (by omega)).symm.trans hleaf) (by decide)

/-- What a symbol's code adds to the Kraft sum, in units of `2^-255`. -/
def State.kraftTerm (s : State) (c : Byte) : Nat :=
  if (s.codeAt c).len = 0 then 0 else 2 ^ (255 - (s.codeAt c).len)

/-- A symbol's term is the share of its leaf. -/
theorem TreeOf.kraftTerm_eq {s : State} (h : TreeOf s) (hinv : Inv s) (hcv : s.cv = true) {i : NodeIdx}
    (hi : i.toNat < s.nsym.toNat) : s.kraftTerm (s.nodeAt i).sym = s.shareAt i := by
  obtain ⟨j, hpath, hleaf, hsym, hpos⟩ := codeAt_path hinv hcv (h.symbol_of_leaf hi)
  cases h.leaf_unique (h.leaf_lt hpath hleaf) hi hsym
  rw [h.shareAt_eq hpath]
  exact if_neg (Nat.ne_of_gt hpos)

theorem TreeOf.kraftSum_eq {s : State} (h : TreeOf s) (hinv : Inv s) (hcv : s.cv = true) :
    (allSyms.map s.kraftTerm).sum = s.leafShares := by
  have hnone : ∀ c, s.freqAt c = 0#32 → s.kraftTerm c = 0 := fun c hc => by
    rw [State.kraftTerm, codeAt_eq_nil hinv hcv hc]
    rfl
  have hleaves : (leafNodes s.freqAt).map (fun nd => s.kraftTerm nd.sym) =
      (List.range s.nsym.toNat).map fun n => s.shareAt (BitVec.ofNat 9 n) := by
    refine List.ext_getElem (by simp [h.leaves_length]) fun n hn _ => ?_
    rw [List.length_map, h.leaves_length] at hn
    have hidx : (BitVec.ofNat 9 n).toNat = n := ofNat9_toNat (hn.trans_le (h.nsym_le.trans (by decide)))
    obtain ⟨_, hget⟩ := List.getElem?_eq_some_iff.1 (h.leaf (hidx.symm ▸ hn)).1
    simp only [hidx] at hget
    rw [List.getElem_map, List.getElem_map, List.getElem_range, hget, h.kraftTerm_eq hinv hcv (hidx.symm ▸ hn)]
  calc (allSyms.map s.kraftTerm).sum
      = (allSyms.map fun c => if s.freqAt c ≠ 0#32 then s.kraftTerm c else 0).sum := by
        refine congrArg List.sum (List.map_congr_left fun c _ => ?_)
        split
        · rfl
        · rename_i hc
          exact hnone c (not_not.1 hc)
    _ = ((allSyms.filter fun c => decide (s.freqAt c ≠ 0#32)).map s.kraftTerm).sum := by
        rw [List.sum_map_ite]
        simp
    _ = s.leafShares := by
        rw [← leafNodes_syms, List.map_map]
        exact congrArg List.sum hleaves

/-- Settles O45: every term of the sum is the share of a leaf, and the leaves share all there is. -/
theorem kraftSumOfTheCodes : Obligations.KraftSumOfTheCodes := by
  intro s hinv hcv
  have ⟨_, _, ⟨htree, _⟩, _⟩ := hinv
  have tr := tree_of_inv hinv (htree hcv)
  refine (tr.kraftSum_eq hinv hcv).trans ?_
  split
  · rename_i hone
    exact tr.leafShares_of_single hone
  · rename_i hmany
    have hpos := tr.nsym_pos
    exact tr.leafShares_eq (by omega)

end Sys2Proof.Machine

/-! SUPPORT. The encoder (44_encode): what a command that appends to OUT leaves, the bound on its bytes, ENCB, ENCEND
and a whole encoding run. -/

namespace Sys2Proof.Machine

/-! ### The bytes of one command (R156, R253) -/

/-- A command the gate lets through writes OUT only if it is CLEAR (R161). -/
theorem alwaysState_out {i : Instr} (h : i ≠ .clear) (s : State) : (alwaysState i s).out = s.out := by
  cases i with
  | clear => exact absurd rfl h
  | _ => rfl

/-- A perform other than CLEAR that leaves no error leaves OUT as it is, or appends the bytes of its pseudocode. -/
theorem exec_out {i : Instr} {s t : State} (h : exec i s = .next t) (hi : i ≠ .clear) (ht : t.err = .none) :
    t.out = s.out ∨ phaseOk i s = true ∧ t.out = s.out ++ appended i s := by
  cases hg : passesGate i with
  | true =>
    rw [exec_always hg] at h
    cases h
    exact .inl (alwaysState_out hi s)
  | false =>
    rw [exec_gated hg] at h
    cases h
    rcases performGated_cases s (phaseOk i s) (gatedBody i s) with
      ⟨_, e⟩ | ⟨_, _, e⟩ | ⟨_, _, x, hb, e⟩ | ⟨_, hp, u, outl, hb, _, e⟩ | ⟨_, _, _, _, _, _, e⟩ <;> rw [e] at ht ⊢
    · exact .inl rfl
    · exact absurd ht ErrCode.noConfusion
    · exact absurd ht (ownErrors_spec (body_error hb)).1
    · obtain ⟨_, hout, _⟩ := body_frame hg hb
      exact .inr ⟨hp, by rw [appended, hb, ← hout]⟩
    · exact .inl rfl

/-- Settles O18: a perform without error appends nothing or the bytes of its pseudocode, and these are bounded. -/
theorem outputOfOneCommandIsBounded : Obligations.OutputOfOneCommandIsBounded := by
  intro i s t hinv he ht hi
  rcases exec_out he hi ht with hout | ⟨hp, hout⟩
  · exact ⟨[], by rw [hout, List.append_nil], Nat.zero_le _⟩
  · refine ⟨appended i s, hout, ?_⟩
    have hle := appended_length_le hinv hp
    cases i <;> exact hle

/-! ### A command that appends to OUT and completes (R153, R156) -/

/-- The block with `out` in OUT and the command completed (R153, R156). -/
def State.finish (s : State) (out : List Byte) : State := { s with out := out, pend := none }

theorem sameBut_finish (s : State) (out : List Byte) : SameBut [.out, .pend] s (s.finish out) := by
  intro P hP
  cases P with
  | out | pend => exact absurd (by decide) hP
  | _ => rfl

/-- The bytes of a command fit, so it completes with them at the tail of OUT. -/
theorem exec_of_body_of_fits {i : Instr} {s u : State} {outl : List Byte} (hg : passesGate i = false)
    (h0 : s.err = .none) (hp : phaseOk i s = true) (hb : gatedBody i s = .ok (u, outl)) (hf : s.fits outl = true) :
    exec i s = .next (u.finish (s.out ++ outl)) := by
  obtain ⟨_, hout, _⟩ := body_frame hg hb
  rw [exec_gated hg, hp, hb, performGated_ok h0, State.commit, if_pos hf, hout, State.finish]

theorem body_finish_frame {i : Instr} {s u : State} {outl : List Byte} (hg : passesGate i = false)
    (hb : gatedBody i s = .ok (u, outl)) (out : List Byte) :
    SameBut (.out :: .pend :: writesOf i) s (u.finish out) := by
  obtain ⟨hframe, _⟩ := body_frame hg hb
  exact sameBut_trans (sameBut_mono hframe (by simp +contextual)) (sameBut_mono (sameBut_finish u out) (by simp))

/-- With OUT empty the bytes of any command fit (R9, R253). -/
theorem fits_of_out_nil {i : Instr} {s u : State} {outl : List Byte} (h : Inv s) (ho : s.out = [])
    (hg : passesGate i = false) (h0 : s.err = .none) (hp : phaseOk i s = true)
    (hb : gatedBody i s = .ok (u, outl)) : s.fits outl = true := by
  have happ : appended i s = outl := by rw [appended, hb]
  exact eq_true_of_ne_false fun hf => not_held_of_out_nil h ho ⟨hg, h0, hp, happ ▸ hf⟩

/-! ### ENCB (R252) -/

/-- What ENCB leaves before it completes (R252). -/
def State.encoded (s : State) (c : Byte) : State :=
  let p := s.packer.putBits (s.codeAt c).bits
  { s with pacc := p.pacc, pfill := p.pfill, ebits := BitVec.ofNat 32 (s.ebits.toNat + (s.codeAt c).len) }

/-- The bytes ENCB emits (R250, R252). -/
def State.encodedBytes (s : State) (c : Byte) : List Byte := (s.packer.putBits (s.codeAt c).bits).emitted

section Encb

variable {s : State} {c : Byte}

theorem encbBody_ok (hlen : 0 < (s.codeAt c).len) (hmax : s.ebits.toNat + (s.codeAt c).len ≤ maxCount) :
    gatedBody (.encb c) s = .ok (s.encoded c, s.encodedBytes c) := by
  simp only [gatedBody, encbBody, if_neg (Nat.ne_of_gt hlen), if_neg (Nat.not_lt.2 hmax), State.encoded,
    State.encodedBytes]

theorem encbBody_unknown (hlen : (s.codeAt c).len = 0) : gatedBody (.encb c) s = .error .unknownSymbol := by
  simp only [gatedBody, encbBody, if_pos hlen]

theorem encbBody_overflow (hlen : 0 < (s.codeAt c).len) (hmax : maxCount < s.ebits.toNat + (s.codeAt c).len) :
    gatedBody (.encb c) s = .error .overflow := by
  simp only [gatedBody, encbBody, if_neg (Nat.ne_of_gt hlen), if_pos hmax]

theorem encodedBytes_length (s : State) (c : Byte) :
    (s.encodedBytes c).length = (s.pfill.toNat + (s.codeAt c).len) / 8 :=
  (putBits_emitted_length s.packer _).trans (Nat.zero_add _)

/-- The packed bits grow by the code (R251, R252). -/
theorem encoded_bits (s : State) (c : Byte) :
    bytesBits (s.encodedBytes c) ++ (s.encoded c).partialBits = s.partialBits ++ (s.codeAt c).bits :=
  putBits_stream s.packer _

theorem encoded_pfill (s : State) (c : Byte) :
    (s.encoded c).pfill.toNat = (s.pfill.toNat + (s.codeAt c).len) % 8 := by
  have hfill := putBits_pfill s.packer (s.codeAt c).bits
  rwa [show s.packer.emitted.length = 0 from rfl, Nat.mul_zero, Nat.zero_add] at hfill

theorem encoded_ebits (hmax : s.ebits.toNat + (s.codeAt c).len ≤ maxCount) :
    (s.encoded c).ebits.toNat = s.ebits.toNat + (s.codeAt c).len :=
  (BitVec.toNat_ofNat _ _).trans (Nat.mod_eq_of_lt (Nat.lt_succ_of_le hmax))

end Encb

/-- Settles O47: the packer's rules for the bits and counts, and the room for the bytes in OUT. -/
theorem encbAppendsTheCode : Obligations.EncbAppendsTheCode := by
  intro s c _ h0
  refine ⟨fun hcv => ?phase, fun hcv hlen hmax hroom => ?fits, fun hcv hlen => ?unknown,
    fun hcv hlen hmax => ?overflow⟩
  case phase => exact failsWith_of_phase h0 hcv
  case fits =>
    have hb := encbBody_ok hlen hmax
    have hfits : s.fits (s.encodedBytes c) = true :=
      (fits_iff s _).2 (.inr (by rw [encodedBytes_length]; exact hroom))
    exact ⟨_, s.encodedBytes c, exec_of_body_of_fits rfl h0 hcv hb hfits, rfl, rfl, encodedBytes_length s c,
      encoded_bits s c, encoded_pfill s c, encoded_ebits hmax,
      sameBut_mono (body_finish_frame rfl hb _) (by simp [writesOf])⟩
  case unknown => exact failsWith_of_body rfl h0 hcv (encbBody_unknown hlen)
  case overflow => exact failsWith_of_body rfl h0 hcv (encbBody_overflow hlen hmax)

/-! ### ENCEND (R255, R256) -/

/-- What ENCEND leaves before it completes (R256). -/
def State.closed (s : State) : State :=
  { s with
    bitcnt := s.ebits
    res0 := s.ebits
    res1 := BitVec.ofNat 32 ((s.ebits.toNat + 7) / 8)
    ebits := 0#32
    pacc := 0#8
    pfill := 0#3 }

theorem encendBody_ok (s : State) : gatedBody .encend s = .ok (s.closed, appended .encend s) := rfl

/-- The packed length is within RES1 (R256). -/
theorem closed_res1 (s : State) : s.closed.res1.toNat = (s.ebits.toNat + 7) / 8 := by
  have hlt := s.ebits.isLt
  exact (BitVec.toNat_ofNat _ _).trans (Nat.mod_eq_of_lt (by omega))

theorem length_appended_encend (s : State) : (appended .encend s).length = if s.pfill = 0#3 then 0 else 1 := by
  rw [appended_encend]
  split <;> rfl

/-- The last byte is the partial byte, its free bits 0 (R255). -/
theorem bytesBits_appended_encend {s : State} (h : InvPacker s) :
    bytesBits (appended .encend s) =
      if s.pfill = 0#3 then [] else s.partialBits ++ List.replicate (8 - s.pfill.toNat) false := by
  obtain ⟨_, hclean⟩ := h
  rw [appended_encend]
  split
  · rfl
  · exact (List.append_nil _).trans (padBits s.pfill.toNat s.pacc s.pfill.isLt hclean)

/-- Settles O48: the last byte, if there is one, has room, and the fields of the closed stream are as written. -/
theorem encendClosesTheStream : Obligations.EncendClosesTheStream := by
  intro s hinv h0
  obtain ⟨_, _, _, _, _, _, hpack, _⟩ := hinv
  refine ⟨fun hcv => ?phase, fun hcv hroom => ?fits⟩
  case phase => exact failsWith_of_phase h0 hcv
  case fits =>
    have hfits : s.fits (appended .encend s) = true :=
      (fits_iff s _).2 (.inr (by rw [length_appended_encend]; exact hroom))
    exact ⟨_, appended .encend s, exec_of_body_of_fits rfl h0 hcv (encendBody_ok s) hfits, rfl, rfl,
      bytesBits_appended_encend hpack, rfl, rfl, closed_res1 s, rfl, rfl, rfl,
      sameBut_mono (body_finish_frame rfl (encendBody_ok s) _) (by simp [writesOf])⟩

/-! ### A command of a run from an idle block (R131, R132) -/

/-- A block between two commands of a run: idle, no error, OUT drained. -/
structure Ready (s : State) : Prop where
  inv : Inv s
  idle : s.pend = none
  noErr : s.err = .none
  noOut : s.out = []

/-- A command whose pseudocode succeeds completes in a run, its bytes are drained, and the block is ready again. -/
theorem Ready.issueAndDrain_of_body {i : Instr} {a : Word} {s u : State} {outl : List Byte} (h : Ready s)
    (hg : passesGate i = false) (hp : phaseOk i (s.issued i a) = true)
    (hb : gatedBody i (s.issued i a) = .ok (u, outl)) :
    issueAndDrain i a s = some (u.finish [], outl) ∧ Ready (u.finish []) ∧
      SameBut (.arg :: writesOf i) s (u.finish []) := by
  have hinv : Inv (s.issued i a) := h.inv
  have hout : (s.issued i a).out ++ outl = outl := congrArg (· ++ outl) h.noOut
  have hfits : (s.issued i a).fits outl = true := fits_of_out_nil hinv h.noOut hg h.noErr hp hb
  have he := exec_of_body_of_fits (s := s.issued i a) hg h.noErr hp hb hfits
  refine ⟨?_, ⟨inv_out (inv_exec hinv he) (Nat.zero_le _), rfl, (body_err hb).trans h.noErr, rfl⟩, fun P hP => ?_⟩
  · rw [issueAndDrain_of_exec h.idle he rfl, hout]
    rfl
  · have hframe := body_finish_frame hg hb [] P
    cases P with
    | pend => exact h.idle.symm
    | out => exact h.noOut.symm
    | arg => exact absurd List.mem_cons_self hP
    | _ => exact hframe (by simpa using hP)

/-- The bytes of a run are those of its first command, then those of the rest. -/
theorem runCommands_cons {i : Instr} {a : Word} {rest : List (Instr × Word)} {s u t : State} {bytes bytes' : List Byte}
    (h : issueAndDrain i a s = some (u, bytes)) (hrest : runCommands rest u = some (t, bytes')) :
    runCommands ((i, a) :: rest) s = some (t, bytes ++ bytes') := by
  simp [runCommands, h, hrest]

/-! ### Encoding a sequence (R257) -/

theorem codeBits_congr {s t : State} (h : t.code = s.code) : t.codeBits = s.codeBits := by
  funext syms
  rw [State.codeBits, State.codeBits, codeAt_congr h]

theorem codeBits_cons (s : State) (c : Byte) (syms : List Byte) :
    s.codeBits (c :: syms) = (s.codeAt c).bits ++ s.codeBits syms := List.flatMap_cons

/-- The zeros that fill `n` bits up to whole bytes (R255). -/
def padding (n : Nat) : List Bool := List.replicate (8 * ((n + 7) / 8) - n) false

theorem bytesBits_pack (bits : List Bool) : bytesBits (pack bits) = bits ++ padding bits.length :=
  packGroups_bits bits.length bits (Nat.le_refl _)

theorem length_pack (bits : List Bool) : (pack bits).length = (bits.length + 7) / 8 := by
  have hlen := congrArg List.length (bytesBits_pack bits)
  rw [bytesBits_length, List.length_append, padding, List.length_replicate] at hlen
  omega

/-- No bits are in the packer where EBITS is a whole number of bytes (R58, R61). -/
theorem partialBits_eq_nil {s : State} (h : s.pfill.toNat = 0) : s.partialBits = [] := by
  rw [State.partialBits, h, List.take_zero]

/-- ENCEND completes the bits of the stream to whole bytes (R255, R256). -/
theorem bytesBits_appended_encend_eq_padding {s : State} (h : InvPacker s) :
    bytesBits (appended .encend s) = s.partialBits ++ padding s.ebits.toNat := by
  have ⟨hfill, _⟩ := h
  rw [bytesBits_appended_encend h, padding]
  split
  · rename_i hz
    have hzero : s.pfill.toNat = 0 := congrArg BitVec.toNat hz
    rw [partialBits_eq_nil hzero, show 8 * ((s.ebits.toNat + 7) / 8) - s.ebits.toNat = 0 by omega]
    rfl
  · rename_i hne
    have hpos : s.pfill.toNat ≠ 0 := fun e => hne (BitVec.eq_of_toNat_eq e)
    rw [show 8 * ((s.ebits.toNat + 7) / 8) - s.ebits.toNat = 8 - s.pfill.toNat by omega]

/-- What an encoding run may change: the fields ENCEND writes, and ARG. -/
def encodeParts : List Part := .arg :: writesOf .encend

section EncodingRun

variable {s : State} (h : Ready s) (hcv : s.cv = true)
include h hcv

/-- ENCB in a run: the bits drained and those left in the packer grow by the code. -/
theorem Ready.issueAndDrain_encb {c : Byte} (hlen : 0 < (s.codeAt c).len)
    (hmax : s.ebits.toNat + (s.codeAt c).len ≤ maxCount) (a : Word) :
    ∃ t bytes, issueAndDrain (.encb c) a s = some (t, bytes) ∧ Ready t ∧ SameBut encodeParts s t ∧
      bytesBits bytes ++ t.partialBits = s.partialBits ++ (s.codeAt c).bits ∧
      t.ebits.toNat = s.ebits.toNat + (s.codeAt c).len := by
  obtain ⟨hrun, hready, hframe⟩ :=
    h.issueAndDrain_of_body (i := .encb c) rfl hcv (encbBody_ok (s := s.issued (.encb c) a) hlen hmax)
  exact ⟨_, _, hrun, hready, sameBut_mono hframe (by simp [writesOf, encodeParts]),
    encoded_bits (s.issued (.encb c) a) c, encoded_ebits (s := s.issued (.encb c) a) hmax⟩

/-- ENCEND in a run: the bits in the packer are drained, and zeros up to a whole byte. -/
theorem Ready.issueAndDrain_encend (a : Word) :
    ∃ t bytes, issueAndDrain .encend a s = some (t, bytes) ∧ Ready t ∧ SameBut encodeParts s t ∧
      bytesBits bytes = s.partialBits ++ padding s.ebits.toNat ∧ t.bitcnt = s.ebits := by
  have ⟨_, _, _, _, _, _, hpack, _⟩ := h.inv
  obtain ⟨hrun, hready, hframe⟩ := h.issueAndDrain_of_body (i := .encend) rfl hcv (encendBody_ok (s.issued .encend a))
  exact ⟨_, _, hrun, hready, hframe, bytesBits_appended_encend_eq_padding hpack, rfl⟩

/-- Encoding symbols over a stream that may be open already appends their codes to its bits, and zeros up to a whole
byte; BITCNT counts the bits of the whole stream. -/
theorem Ready.runCommands_encode {syms : List Byte} (hcode : ∀ c ∈ syms, 0 < (s.codeAt c).len)
    (hmax : s.ebits.toNat + (s.codeBits syms).length ≤ maxCount) :
    ∃ t bytes, runCommands (plain (syms.map .encb ++ [.encend])) s = some (t, bytes) ∧ Ready t ∧
      SameBut encodeParts s t ∧
      bytesBits bytes = s.partialBits ++ s.codeBits syms ++ padding (s.ebits.toNat + (s.codeBits syms).length) ∧
      t.bitcnt.toNat = s.ebits.toNat + (s.codeBits syms).length := by
  induction syms generalizing s with
  | nil =>
    obtain ⟨t, bytes, hrun, hready, hframe, hbits, hcnt⟩ := h.issueAndDrain_encend hcv 0#32
    exact ⟨t, bytes ++ [], runCommands_cons hrun rfl, hready, hframe, by simp [hbits, State.codeBits],
      congrArg BitVec.toNat hcnt⟩
  | cons c syms ih =>
    rw [codeBits_cons, List.length_append] at hmax ⊢
    obtain ⟨u, bytes, hrun, hready, hframe, hbits, hebits⟩ := h.issueAndDrain_encb hcv (hcode c List.mem_cons_self)
      (Nat.le_trans (Nat.add_le_add_left (Nat.le_add_right _ _) _) hmax) 0#32
    have htable : u.code = s.code := hframe .code (by simp [writesOf, encodeParts])
    have htotal : u.ebits.toNat + (u.codeBits syms).length =
        s.ebits.toNat + ((s.codeAt c).bits.length + (s.codeBits syms).length) := by
      rw [hebits, codeBits_congr htable, CodeRec.len, Nat.add_assoc]
    obtain ⟨t, bytes', hrun', hready', hframe', hbits', hcnt⟩ := ih hready
      ((hframe .cv (by simp [writesOf, encodeParts])).trans hcv)
      (fun d hd => by rw [codeAt_congr htable]; exact hcode d (List.mem_cons_of_mem c hd)) (htotal ▸ hmax)
    refine ⟨t, bytes ++ bytes', runCommands_cons hrun hrun', hready', sameBut_trans hframe hframe', ?_,
      hcnt.trans htotal⟩
    rw [htotal, codeBits_congr htable] at hbits'
    rw [bytesBits_append, hbits', ← List.append_assoc, ← List.append_assoc, hbits, List.append_assoc s.partialBits]

end EncodingRun

/-- Settles O49: from no open stream the run gives the bits of `pack`, and bytes with the same bits are the same. -/
theorem encodingASequencePacksItsCodes : Obligations.EncodingASequencePacksItsCodes := by
  intro s syms hinv hidle hout h0 hcv hebits hcode hmax
  have ⟨_, _, _, _, _, _, ⟨hfill, _⟩, _⟩ := hinv
  have hzero : s.ebits.toNat = 0 := congrArg BitVec.toNat hebits
  have hpartial : s.partialBits = [] := partialBits_eq_nil (by rw [hfill, hzero])
  obtain ⟨t, bytes, hrun, hready, _, hbits, hcnt⟩ :=
    Ready.runCommands_encode ⟨hinv, hidle, h0, hout⟩ hcv hcode (by rwa [hzero, Nat.zero_add])
  rw [hzero, Nat.zero_add] at hbits hcnt
  have hpack : bytes = pack (s.codeBits syms) :=
    bytesBits_inj (by rw [hbits, hpartial, List.nil_append, bytesBits_pack])
  exact ⟨t, hpack ▸ hrun, length_pack _, hcnt, hready.noErr⟩

end Sys2Proof.Machine

/-! SUPPORT. The decoder (45_decode): DECSTART, DECB over the declared bits of a byte, DECEND, and a whole decoding
run. -/

namespace Sys2Proof.Machine

/-- The state a command's pseudocode leaves, completed: only PEND and the fields its rule lists differ (R155, R161). -/
theorem body_done_frame {i : Instr} {s u : State} {outl : List Byte} (hg : passesGate i = false)
    (hb : gatedBody i s = .ok (u, outl)) : SameBut (.pend :: writesOf i) s u.done := by
  obtain ⟨hframe, _⟩ := body_frame hg hb
  exact sameBut_trans (sameBut_mono hframe (by simp +contextual)) (sameBut_mono (sameBut_done u) (by simp))

/-! ### DECSTART (R272) -/

/-- What DECSTART leaves before it completes (R272). -/
def State.opened (s : State) (n : Word) : State := { s with drem := n, dpos := s.root, dcount := 0#32, da := true }

theorem decstartBody_ok {s : State} {p : PendCmd} (hp : s.pend = some p) :
    gatedBody .decstart s = .ok (s.opened p.arg, []) := by
  simp only [gatedBody, decstartBody, State.operandBits, State.capturedArg, hp, State.opened]

/-- Settles O50: the phase condition of DECSTART, and the state it leaves with the captured ARG. -/
theorem decstartOpensADecode : Obligations.DecstartOpensADecode := by
  intro s p hp h0
  refine ⟨fun h => ?phase, fun ht hda => ?opens⟩
  case phase =>
    refine failsWith_of_phase h0 ?_
    rcases h with ht | hda
    · simp [phaseOk, ht]
    · simp [phaseOk, hda]
  case opens =>
    have hphase : phaseOk .decstart s = true := by simp [phaseOk, ht, hda]
    have hb := decstartBody_ok hp
    exact ⟨_, exec_of_body rfl h0 hphase hb, rfl, rfl, rfl, rfl, rfl,
      sameBut_mono (body_done_frame rfl hb) (by simp [writesOf])⟩

/-! ### DECB (R270, R271, R273, R274) -/

/-- The declared bits of a byte given to DECB: from bit 7 down, while DREM lasts (R270, R274). -/
def State.declared (s : State) (b : Byte) : List Bool := (byteBits b).take s.drem.toNat

/-- The tree walk from the walk position (R271). -/
def State.walkOver (s : State) (bits : List Bool) : Option (NodeIdx × List Byte) :=
  decodeBits s.nodeAt s.root s.dpos bits

/-- What DECB leaves before it completes, the walk over its declared bits ending at `j` with `syms` emitted (R273). -/
def State.walked (s : State) (b : Byte) (j : NodeIdx) (syms : List Byte) : State :=
  { s with
    dpos := j
    drem := s.drem - BitVec.ofNat 32 (s.declared b).length
    dcount := s.dcount + BitVec.ofNat 32 syms.length }

section Decb

variable {s : State} {b : Byte} {j : NodeIdx} {syms : List Byte}

theorem length_declared (s : State) (b : Byte) : (s.declared b).length = min s.drem.toNat 8 :=
  List.length_take

theorem declared_of_drem_zero (h : s.drem = 0#32) (b : Byte) : s.declared b = [] := by
  rw [State.declared, h]
  rfl

theorem decbBody_ok (h : s.walkOver (s.declared b) = some (j, syms)) :
    gatedBody (.decb b) s = .ok (s.walked b j syms, syms) := by
  have hd : decodeBits s.nodeAt s.root s.walk.dpos (takenBits bitPositions b s.walk.drem) = some (j, syms) := h
  simp only [gatedBody, decbBody, walkBits_eq, hd]
  rfl

theorem decbBody_badCode (h : s.walkOver (s.declared b) = none) : gatedBody (.decb b) s = .error .badCode := by
  have hd : decodeBits s.nodeAt s.root s.walk.dpos (takenBits bitPositions b s.walk.drem) = none := h
  simp only [gatedBody, decbBody, walkBits_eq, hd]

/-- DECB looks at the declared bits of its byte only (R274). -/
theorem decbBody_congr {b' : Byte} (h : s.declared b = s.declared b') :
    gatedBody (.decb b) s = gatedBody (.decb b') s := by
  have hd : takenBits bitPositions b s.walk.drem = takenBits bitPositions b' s.walk.drem := h
  simp only [gatedBody, decbBody, walkBits_eq, hd]

theorem walked_drem (s : State) (b : Byte) (j : NodeIdx) (syms : List Byte) :
    (s.walked b j syms).drem.toNat = s.drem.toNat - 8 := by
  have hlen := length_declared s b
  show (s.drem - BitVec.ofNat 32 (s.declared b).length).toNat = _
  rw [BitVec.toNat_sub, BitVec.toNat_ofNat]
  omega

/-- The tree an open decode walks over. -/
theorem tree_of_open (hinv : Inv s) (hda : s.da = true) : TreeOf s := by
  have ⟨_, _, ⟨_, htree⟩, _⟩ := hinv
  exact tree_of_inv hinv (htree hda)

/-- The walk position of an open decode is an internal node of the tree (R61). -/
theorem dpos_of_open (hinv : Inv s) (hda : s.da = true) :
    s.dpos.toNat < s.node.length ∧ (s.nodeAt s.dpos).kind = .internal := by
  have ⟨_, _, _, _, _, _, _, hwalk, _⟩ := hinv
  obtain ⟨hlt, hkind⟩ := hwalk hda
  exact ⟨(tree_of_open hinv hda).length_eq ▸ hlt, hkind⟩

/-- DCOUNT does not wrap: DECB emits at most one symbol for each declared bit (R17, R271). -/
theorem walked_dcount (hinv : Inv s) (hda : s.da = true) (h : s.walkOver (s.declared b) = some (j, syms)) :
    (s.walked b j syms).dcount.toNat = s.dcount.toNat + syms.length := by
  obtain ⟨hlt, hkind⟩ := dpos_of_open hinv hda
  obtain ⟨_, _, hemitted⟩ := (tree_of_open hinv hda).walk_end hlt hkind h
  have ⟨_, _, _, _, _, _, _, _, _, _, hcount⟩ := hinv
  have hcount : s.dcount.toNat + s.drem.toNat ≤ maxCount := hcount
  have hlen := length_declared s b
  show (s.dcount + BitVec.ofNat 32 syms.length).toNat = _
  rw [BitVec.toNat_add, BitVec.toNat_ofNat]
  unfold maxCount at hcount
  omega

end Decb

/-- Settles O51: the walk decides between the two outcomes of DECB's pseudocode, and its symbols have room in OUT. -/
theorem decbWalksTheDeclaredBits : Obligations.DecbWalksTheDeclaredBits := by
  intro s b hinv h0
  refine ⟨fun hda => ?phase, fun hda j syms hwalk hroom => ?walks, fun hda hwalk => ?missing⟩
  case phase => exact failsWith_of_phase h0 hda
  case walks =>
    have hb := decbBody_ok hwalk
    have hfits : s.fits syms = true := (fits_iff s _).2 (.inr hroom)
    exact ⟨_, exec_of_body_of_fits rfl h0 hda hb hfits, rfl, rfl, rfl, walked_drem s b j syms,
      walked_dcount hinv hda hwalk, sameBut_mono (body_finish_frame rfl hb _) (by simp [writesOf])⟩
  case missing => exact failsWith_of_body rfl h0 hda (decbBody_badCode hwalk)

/-- Settles O53: DECB's pseudocode looks at the declared bits only, and the walk over no bits stays where it is. -/
theorem bitsBeyondTheCountAreDiscarded : Obligations.BitsBeyondTheCountAreDiscarded := by
  refine ⟨fun s b b' h => ?same, fun s b h0 hda hdrem => ?none⟩
  case same =>
    rw [exec_gated rfl, exec_gated rfl, decbBody_congr h]
    rfl
  case none =>
    have hdecl := declared_of_drem_zero hdrem b
    have hwalk : s.walkOver (s.declared b) = some (s.dpos, []) := by rw [hdecl]; rfl
    have hsame : s.walked b s.dpos [] = s := by
      simp only [State.walked, hdecl, List.length_nil, BitVec.sub_zero, BitVec.add_zero]
    have hb : gatedBody (.decb b) s = .ok (s, []) := (decbBody_ok hwalk).trans (by rw [hsame])
    exact ⟨s.done, exec_of_body rfl h0 hda hb, rfl, sameBut_done s⟩

/-! ### BAD_CODE (R275) -/

/-- The walk from an internal node meets a missing child exactly at a bit 1 in the single-symbol wrapper. -/
theorem TreeOf.decodeBits_eq_none_iff {s : State} (h : TreeOf s) {i : NodeIdx} (hlt : i.toNat < s.node.length)
    (hk : (s.nodeAt i).kind = .internal) (bits : List Bool) :
    decodeBits s.nodeAt s.root i bits = none ↔ s.nsym.toNat = 1 ∧ true ∈ bits := by
  induction bits generalizing i with
  | nil => simp [decodeBits]
  | cons b bits ih =>
    have hnil := h.child_nil hlt hk (b := b)
    by_cases hc : childOf s.nodeAt i b = NIL
    · obtain ⟨hone, rfl⟩ := hnil.1 hc
      simp [decodeBits, hc, hone]
    · have htail : s.nsym.toNat = 1 ∧ true ∈ b :: bits ↔ s.nsym.toNat = 1 ∧ true ∈ bits := by
        rw [List.mem_cons]
        exact and_congr_right fun hone => or_iff_right fun hb => hc (hnil.2 ⟨hone, hb.symm⟩)
      rw [htail, decodeBits, if_neg hc]
      cases hkind : (s.nodeAt (childOf s.nodeAt i b)).kind with
      | leaf => simp only [Option.map_eq_none_iff, ih h.root_lt h.root_internal]
      | internal => exact ih ((h.child_lt hlt hk hc).trans hlt) hkind

/-- The walk position of an open decode is such a node. -/
theorem walkOver_eq_none_iff {s : State} (hinv : Inv s) (hda : s.da = true) (bits : List Bool) :
    s.walkOver bits = none ↔ s.nsym.toNat = 1 ∧ true ∈ bits := by
  obtain ⟨hlt, hkind⟩ := dpos_of_open hinv hda
  exact (tree_of_open hinv hda).decodeBits_eq_none_iff hlt hkind bits

/-- A command whose pseudocode succeeds leaves ERR as it is, completed or held (R154, R157). -/
theorem exec_err_of_body_ok {i : Instr} {s t u : State} {outl : List Byte} (hg : passesGate i = false)
    (h0 : s.err = .none) (hp : phaseOk i s = true) (hb : gatedBody i s = .ok (u, outl)) (h : exec i s = .next t) :
    t.err = s.err := by
  rw [exec_gated hg, hp, hb, performGated_ok h0] at h
  cases h
  rcases commit_cases s u outl with ⟨_, e⟩ | ⟨_, e⟩ <;> rw [e]
  show u.err = s.err
  exact body_err hb

/-- Settles O52: DECB fails exactly where the walk meets a missing child. -/
theorem badCodeOnlyAtTheWrapper : Obligations.BadCodeOnlyAtTheWrapper := by
  intro s t b hinv h0 hda he
  have hone : s.nsym = 1#9 ↔ s.nsym.toNat = 1 := BitVec.toNat_inj.symm
  rw [hone, show (byteBits b).take s.drem.toNat = s.declared b from rfl, ← walkOver_eq_none_iff hinv hda]
  cases hwalk : s.walkOver (s.declared b) with
  | none =>
    rw [exec_gated rfl, show phaseOk (.decb b) s = true from hda, decbBody_badCode hwalk, performGated_error h0] at he
    cases he
    exact iff_of_true rfl rfl
  | some r =>
    have herr : t.err = .none := (exec_err_of_body_ok (i := .decb b) rfl h0 hda (decbBody_ok hwalk) he).trans h0
    exact iff_of_false (by rw [herr]; decide) (Option.some_ne_none r)

/-! ### DECEND (R276) -/

/-- What DECEND leaves before it completes (R276). -/
def State.decodeEnded (s : State) : State := { s with da := false, res0 := s.dcount, res1 := 0#32 }

theorem decendBody_ok {s : State} (hdrem : s.drem = 0#32) (hdpos : s.dpos = s.root) :
    gatedBody .decend s = .ok (s.decodeEnded, []) :=
  if_neg fun h => h.elim (· hdrem) (· hdpos)

theorem decendBody_truncated {s : State} (h : s.drem ≠ 0#32 ∨ s.dpos ≠ s.root) :
    gatedBody .decend s = .error .truncatedStream :=
  if_pos h

/-- Settles O54: the phase condition of DECEND and its one check. -/
theorem decendChecksTheEnd : Obligations.DecendChecksTheEnd := by
  intro s h0
  refine ⟨fun hda => ?phase, fun hda hdrem hdpos => ?ends, fun hda h => ?truncated⟩
  case phase => exact failsWith_of_phase h0 hda
  case ends =>
    have hb := decendBody_ok hdrem hdpos
    exact ⟨_, exec_of_body rfl h0 hda hb, rfl, rfl, rfl, rfl,
      sameBut_mono (body_done_frame rfl hb) (by simp [writesOf])⟩
  case truncated => exact failsWith_of_body rfl h0 hda (decendBody_truncated h)

/-! ### Decoding a stream (R277) -/

/-- The walk over the codes of a symbol sequence emits the sequence and is back at the root (R232, R271). -/
theorem decodeBits_codeBits {s : State} (hinv : Inv s) (hcv : s.cv = true) {syms : List Byte}
    (hcode : ∀ c ∈ syms, 0 < (s.codeAt c).len) :
    decodeBits s.nodeAt s.root s.root (s.codeBits syms) = some (s.root, syms) := by
  have ⟨_, _, ⟨htree, _⟩, _⟩ := hinv
  induction syms with
  | nil => rfl
  | cons c syms ih =>
    have hentry := freqAt_ne_zero_of_code hinv hcv (hcode c List.mem_cons_self)
    obtain ⟨j, hpath, hleaf, hsym, _⟩ := codeAt_path hinv hcv hentry
    rw [codeBits_cons, decodeBits_path _ hpath (tree_of_inv hinv (htree hcv)).root_internal hleaf,
      ih fun d hd => hcode d (List.mem_cons_of_mem c hd), hsym]
    rfl

/-- The first bits of a buffer are those of its first byte, then those of the rest (R83). -/
theorem take_bytesBits_cons (b : Byte) (packed : List Byte) (n : Nat) :
    (bytesBits (b :: packed)).take n = (byteBits b).take n ++ (bytesBits packed).take (n - 8) :=
  List.take_append

/-- What a decoding run may change: the fields DECSTART, DECB and DECEND write, and ARG. -/
def decodeParts : List Part := [.arg, .drem, .dpos, .dcount, .out, .da, .res0, .res1]

section DecodingRun

variable {s : State} (h : Ready s)
include h

/-- DECSTART in a run: the walk is at the root, with the declared bits to come. -/
theorem Ready.issueAndDrain_decstart (htv : s.tv = true) (hda : s.da = false) (n : Word) :
    ∃ t, issueAndDrain .decstart n s = some (t, []) ∧ Ready t ∧ SameBut decodeParts s t ∧ t.da = true ∧
      t.drem = n ∧ t.dpos = s.root ∧ t.dcount = 0#32 := by
  have hphase : phaseOk .decstart (s.issued .decstart n) = true := by simp [phaseOk, State.issued, htv, hda]
  obtain ⟨hrun, hready, hframe⟩ := h.issueAndDrain_of_body rfl hphase (decstartBody_ok rfl)
  exact ⟨_, hrun, hready, sameBut_mono hframe (by simp [writesOf, decodeParts]), rfl, rfl, rfl, rfl⟩

section Open

variable (hda : s.da = true)
include hda

/-- DECB in a run: the symbols of the walk over its declared bits are drained. -/
theorem Ready.issueAndDrain_decb {b : Byte} {j : NodeIdx} {syms : List Byte}
    (hwalk : s.walkOver (s.declared b) = some (j, syms)) (a : Word) :
    ∃ t, issueAndDrain (.decb b) a s = some (t, syms) ∧ Ready t ∧ SameBut (.arg :: writesOf (.decb b)) s t ∧
      t.dpos = j ∧ t.drem.toNat = s.drem.toNat - 8 ∧ t.dcount.toNat = s.dcount.toNat + syms.length := by
  obtain ⟨hrun, hready, hframe⟩ :=
    h.issueAndDrain_of_body (i := .decb b) rfl hda (decbBody_ok (s := s.issued (.decb b) a) hwalk)
  exact ⟨_, hrun, hready, hframe, rfl, walked_drem s b j syms, walked_dcount h.inv hda hwalk⟩

/-- DECEND in a run, at the root with no bit left. -/
theorem Ready.issueAndDrain_decend (hdrem : s.drem = 0#32) (hdpos : s.dpos = s.root) (a : Word) :
    ∃ t, issueAndDrain .decend a s = some (t, []) ∧ Ready t ∧ SameBut decodeParts s t ∧ t.da = false ∧
      t.res0 = s.dcount := by
  obtain ⟨hrun, hready, hframe⟩ :=
    h.issueAndDrain_of_body (i := .decend) rfl hda (decendBody_ok (s := s.issued .decend a) hdrem hdpos)
  exact ⟨_, hrun, hready, sameBut_mono hframe (by simp [writesOf, decodeParts]), rfl, rfl⟩

/-- A walk over bits in two parts is a walk over the first, then one over the second: the first meets no missing child
where the whole meets none. -/
theorem Ready.walkOver_append {bits bits' : List Bool} {k : NodeIdx} {syms : List Byte}
    (hwalk : s.walkOver (bits ++ bits') = some (k, syms)) :
    ∃ j out out', s.walkOver bits = some (j, out) ∧ decodeBits s.nodeAt s.root j bits' = some (k, out') ∧
      syms = out ++ out' := by
  have hfirst : s.walkOver bits ≠ none := fun hnone => by
    obtain ⟨hone, hbit⟩ := (walkOver_eq_none_iff h.inv hda _).1 hnone
    have hall := (walkOver_eq_none_iff h.inv hda _).2 ⟨hone, List.mem_append_left bits' hbit⟩
    exact Option.some_ne_none _ (hwalk.symm.trans hall)
  obtain ⟨⟨j, out⟩, hout⟩ := Option.ne_none_iff_exists'.1 hfirst
  rw [State.walkOver, decodeBits_append hout] at hwalk
  obtain ⟨⟨k', out'⟩, hout', e⟩ := Option.map_eq_some_iff.1 hwalk
  cases e
  exact ⟨j, out, out', hout, hout', rfl⟩

/-- DECB of each of enough bytes, and DECEND: where the walk over the declared bits ends at the root, its symbols are
drained, whatever the further bits are. -/
theorem Ready.runCommands_decb_decend {packed syms : List Byte}
    (hlen : s.drem.toNat ≤ 8 * packed.length)
    (hwalk : s.walkOver ((bytesBits packed).take s.drem.toNat) = some (s.root, syms)) :
    ∃ t, runCommands (plain (packed.map .decb ++ [.decend])) s = some (t, syms) ∧ Ready t ∧
      SameBut decodeParts s t ∧ t.da = false ∧ t.res0.toNat = s.dcount.toNat + syms.length := by
  induction packed generalizing s syms with
  | nil =>
    have hdrem : s.drem = 0#32 := BitVec.eq_of_toNat_eq (Nat.le_zero.1 hlen)
    rw [hdrem] at hwalk
    obtain ⟨hdpos, rfl⟩ : s.dpos = s.root ∧ [] = syms := by
      simpa [State.walkOver, decodeBits, bytesBits] using hwalk
    obtain ⟨t, hrun, hready, hframe, hclosed, hres⟩ := h.issueAndDrain_decend hda hdrem hdpos 0#32
    exact ⟨t, runCommands_cons hrun rfl, hready, hframe, hclosed, congrArg BitVec.toNat hres⟩
  | cons b packed ih =>
    rw [take_bytesBits_cons] at hwalk
    obtain ⟨j, out, out', hfirst, hrest, rfl⟩ := h.walkOver_append hda hwalk
    obtain ⟨u, hrun, hready, hframe, hdpos, hdrem, hcount⟩ := h.issueAndDrain_decb hda hfirst 0#32
    have hroot : u.root = s.root := hframe .root (by simp [writesOf])
    have hnode : u.nodeAt = s.nodeAt := nodeAt_congr (hframe .node (by simp [writesOf]))
    have hopen : u.da = true := (hframe .da (by simp [writesOf])).trans hda
    have hlen' : u.drem.toNat ≤ 8 * packed.length := by
      rw [List.length_cons] at hlen
      omega
    obtain ⟨t, hrun', hready', hframe', hclosed, hres⟩ := ih hready hopen hlen'
      (by rw [State.walkOver, hnode, hroot, hdpos, hdrem]; exact hrest)
    refine ⟨t, runCommands_cons hrun hrun', hready',
      sameBut_trans (sameBut_mono hframe (by simp [writesOf, decodeParts])) hframe', hclosed, ?_⟩
    rw [hres, hcount, List.length_append, Nat.add_assoc]

end Open

/-- A whole decoding run over a tree, with codes or without: any bits over which the walk from the root ends at the
root, and any bytes that begin with them. -/
theorem Ready.runCommands_decode (htv : s.tv = true) (hda : s.da = false) {bits : List Bool} {packed syms : List Byte}
    (hwalk : decodeBits s.nodeAt s.root s.root bits = some (s.root, syms)) (hmax : bits.length ≤ maxCount)
    (hbits : (bytesBits packed).take bits.length = bits) :
    ∃ t, runCommands ([(.decstart, BitVec.ofNat 32 bits.length)] ++ plain (packed.map .decb ++ [.decend])) s =
        some (t, syms) ∧ Ready t ∧ SameBut decodeParts s t ∧ t.da = false ∧ t.res0.toNat = syms.length := by
  obtain ⟨u, hrun, hready, hframe, hopen, hdrem, hdpos, hcount⟩ :=
    h.issueAndDrain_decstart htv hda (BitVec.ofNat 32 bits.length)
  have hroot : u.root = s.root := hframe .root (by decide)
  have hnode : u.nodeAt = s.nodeAt := nodeAt_congr (hframe .node (by decide))
  have hn : u.drem.toNat = bits.length := by
    rw [hdrem, BitVec.toNat_ofNat]
    exact Nat.mod_eq_of_lt (Nat.lt_succ_of_le hmax)
  have hlen : bits.length ≤ 8 * packed.length := by
    have hle := congrArg List.length hbits
    rw [List.length_take, bytesBits_length] at hle
    omega
  obtain ⟨t, hrun', hready', hframe', hclosed, hres⟩ := hready.runCommands_decb_decend hopen (hn ▸ hlen)
    (by rw [State.walkOver, hn, hbits, hnode, hroot, hdpos]; exact hwalk)
  refine ⟨t, (runCommands_cons_of_silent hrun _).trans hrun', hready', sameBut_trans hframe hframe', hclosed, ?_⟩
  rw [hres, hcount]
  exact Nat.zero_add _

end DecodingRun

/-- Settles O55: the codes are bits over which the walk from the root emits the sequence and ends at the root. -/
theorem decodingAStreamGivesItsSymbols : Obligations.DecodingAStreamGivesItsSymbols := by
  intro s syms packed hinv hidle hout h0 hcv hda hcode hmax hbits
  have ⟨_, _, ⟨htree, _⟩, _⟩ := hinv
  obtain ⟨t, hrun, hready, _, hclosed, hres⟩ :=
    Ready.runCommands_decode ⟨hinv, hidle, h0, hout⟩ (htree hcv) hda (decodeBits_codeBits hinv hcv hcode) hmax hbits
  exact ⟨t, hrun, hready.noErr, hclosed, hres⟩

end Sys2Proof.Machine

/-! SUPPORT. The commands every state takes, CLEAR and NOP (46_pipeline R300, R301), and the round trip of the command
sequences of Compress and Decompress (R303, R304, R307): the table one leaves is the table the other loads, and equal
tables give equal trees. -/

namespace Sys2Proof.Machine

/-! ### NOP and CLEAR (R300, R301) -/

/-- Settles O27: NOP passes the error gate and only completes. -/
theorem nopWritesNothing : Obligations.NopWritesNothing :=
  fun s => ⟨s.done, exec_always rfl s, rfl, sameBut_done s⟩

theorem sameBut_clearBlock_done (s : State) : SameBut [.arg] s.resetBlock s.clearBlock.done := by
  intro P hP
  cases P with
  | arg => exact absurd (by decide) hP
  | _ => rfl

/-- After CLEAR every register but ID and ARG reads 0: no other register's word depends on ARG. -/
theorem portRead_clear (s : State) {idx : RegIdx} (hid : idx ≠ 0#4) (harg : Reg.ofIdx idx ≠ .arg) :
    (portRead idx s.clearBlock.done).2 = 0#32 := by
  have hword : s.clearBlock.done.regWord (Reg.ofIdx idx) = s.resetBlock.regWord (Reg.ofIdx idx) := by
    cases hr : Reg.ofIdx idx with
    | arg => exact absurd hr harg
    | _ => rfl
  rw [portRead_idle (State.done_pend _), hword]
  exact regWord_resetBlock s fun h => hid (ofIdx_eq_id h)

/-- Settles O26: CLEAR passes the error gate, and what it leaves differs from a reset event's state in ARG only. -/
theorem clearLeavesTheResetStateButArg : Obligations.ClearLeavesTheResetStateButArg :=
  fun s => ⟨s.clearBlock.done, exec_always rfl s, rfl, sameBut_clearBlock_done s, rfl, rfl, rfl, rfl, rfl, rfl,
    freqAt_resetBlock s, portRead_clear s (by decide) (by decide), portRead_clear s (by decide) (by decide)⟩

/-! ### Runs in two parts -/

theorem plain_append (is js : List Instr) : plain (is ++ js) = plain is ++ plain js := List.map_append

/-- The bytes of a run in two parts are those of the first, then those of the second. -/
theorem runCommands_append {l l' : List (Instr × Word)} {s u t : State} {bytes bytes' : List Byte}
    (h : runCommands l s = some (u, bytes)) (h' : runCommands l' u = some (t, bytes')) :
    runCommands (l ++ l') s = some (t, bytes ++ bytes') := by
  induction l generalizing s bytes with
  | nil =>
    cases h
    exact h'
  | cons c l ih =>
    obtain ⟨i, a⟩ := c
    cases hfirst : issueAndDrain i a s with
    | none => simp [runCommands, hfirst] at h
    | some r =>
      obtain ⟨v, out⟩ := r
      simp only [runCommands, hfirst, Option.map_eq_some_iff, Prod.mk.injEq] at h
      obtain ⟨⟨_, out'⟩, hrest, rfl, rfl⟩ := h
      rw [List.append_assoc]
      exact runCommands_cons hfirst (ih hrest)

theorem runCommands_singleton {i : Instr} {a : Word} {s t : State} {bytes : List Byte}
    (h : issueAndDrain i a s = some (t, bytes)) : runCommands [(i, a)] s = some (t, bytes) := by
  rw [runCommands_cons h rfl, List.append_nil]

theorem runCommands_clear {s : State} (hp : s.pend = none) :
    runCommands (plain [.clear]) s = some (s.cleared 0#32, []) :=
  runCommands_singleton (issueAndDrain_clear hp 0#32)

/-! ### From a filled table to the tree and the codes (R206, R230) -/

/-- A block ready for the second half of Compress or Decompress (R303, R304): a tree, with codes or without, no stream
open on either side, no write lost. -/
structure Built (codes : Bool) (s : State) : Prop where
  ready : Ready s
  tree : s.tv = true
  coded : s.cv = codes
  noDecode : s.da = false
  noBits : s.ebits = 0#32
  notLost : s.lost = false

theorem nsym_ne_zero {s : State} (h : InvNsym s) {c : Byte} (hc : s.freqAt c ≠ 0#32) : s.nsym ≠ 0#9 := by
  intro e
  have hzero : entryCount s.freqAt = 0 := Eq.trans (Eq.symm h) (congrArg BitVec.toNat e)
  exact hc ((entryCount_zero_iff _).1 hzero c)

/-- BUILD in a run, where COUNT or LOADF has put an entry in the table a CLEAR left. -/
theorem issueAndDrain_build {s t : State} {a : Word} (hinv : Inv t) (hframe : SameBut tableParts (s.cleared a) t)
    {c : Byte} (hc : t.freqAt c ≠ 0#32) :
    ∃ u, issueAndDrain .build 0#32 t = some (u, []) ∧ Built false u ∧ u.freqAt = t.freqAt := by
  obtain ⟨_, hidle, h0, htv, hout⟩ := (loadable_cleared s a).of_sameBut hinv hframe
  have ⟨_, hns, _⟩ := hinv
  obtain ⟨hrun, hready, hbuild⟩ := Ready.issueAndDrain_of_body (i := .build) (a := 0#32) ⟨hinv, hidle, h0, hout⟩ rfl
    (phaseOk_build htv) (buildBody_ok (nsym_ne_zero hns hc))
  have htrans := sameBut_trans (l := tableParts ++ writesOf .build) (sameBut_mono hframe (by decide))
    (sameBut_mono hbuild (by decide))
  exact ⟨_, hrun, ⟨hready, rfl, htrans .cv (by decide), htrans .da (by decide), htrans .ebits (by decide),
    htrans .lost (by decide)⟩, freqAt_congr (hbuild .freq (by decide))⟩

/-- GENCODE in a run, after BUILD. -/
theorem Built.issueAndDrain_gencode {s : State} (h : Built false s) :
    ∃ t, issueAndDrain .gencode 0#32 s = some (t, []) ∧ Built true t ∧ t.freqAt = s.freqAt := by
  have hphase : phaseOk .gencode (s.issued .gencode 0#32) = true := by
    simp [phaseOk, State.issued, h.tree, h.coded]
  obtain ⟨hrun, hready, hframe⟩ := h.ready.issueAndDrain_of_body rfl hphase (gencodeBody_eq _)
  exact ⟨_, hrun, ⟨hready, h.tree, rfl, h.noDecode, h.noBits, h.notLost⟩, freqAt_congr (hframe .freq (by decide))⟩

/-- Equal tables give the same tree (R208), whatever made them. -/
theorem tree_eq_of_freqAt_eq {s t : State} (hs : TreeOf s) (ht : TreeOf t) (h : t.freqAt = s.freqAt) :
    t.nodeAt = s.nodeAt ∧ t.root = s.root := by
  have hnode : t.node = s.node := by rw [ht.node_eq, hs.node_eq, h]
  exact ⟨nodeAt_congr hnode, BitVec.eq_of_toNat_eq (by rw [ht.root_eq, hs.root_eq, hnode])⟩

theorem Built.treeOf {codes : Bool} {s : State} (h : Built codes s) : TreeOf s := tree_of_inv h.ready.inv h.tree

/-! ### Compress (R303) -/

/-- The first half of Compress: the table has the bytes of the buffer, and they have codes. -/
theorem runCommands_clear_to_gencode {s : State} {buf : List Byte} (hp : s.pend = none) (hne : buf ≠ [])
    (hlen : buf.length ≤ maxCount) :
    ∃ t, runCommands (plain ([.clear] ++ buf.map .count ++ [.build, .gencode])) s = some (t, []) ∧ Built true t ∧
      ∀ c, t.freqAt c ≠ 0#32 ↔ c ∈ buf := by
  have hzero : freqSum (s.cleared 0#32).freqAt = 0 := freqSum_resetBlock s
  obtain ⟨u, hcount, hinv, hframe, hfreq, _⟩ :=
    (loadable_cleared s 0#32).runCommands_count (buf := buf) (by rwa [hzero, Nat.zero_add])
  have hentry : ∀ c, u.freqAt c ≠ 0#32 ↔ c ∈ buf := fun c => by
    rw [← List.count_pos_iff, Nat.pos_iff_ne_zero, ne_eq, ← BitVec.toNat_inj, hfreq, freqAt_cleared, BitVec.toNat_ofNat,
      Nat.zero_mod, Nat.zero_add]
  obtain ⟨c, hc⟩ := List.exists_mem_of_ne_nil buf hne
  obtain ⟨v, hbuild, hbuilt, hv⟩ := issueAndDrain_build hinv hframe ((hentry c).2 hc)
  obtain ⟨t, hgencode, hcoded, ht⟩ := hbuilt.issueAndDrain_gencode
  refine ⟨t, ?_, hcoded, by rwa [ht, hv]⟩
  rw [plain_append, plain_append]
  exact runCommands_append (runCommands_append (runCommands_clear hp) hcount)
    (runCommands_cons hbuild (runCommands_singleton hgencode))

/-- With codes, exactly the symbols with an entry have one. -/
theorem Built.code_pos {s : State} (h : Built true s) {c : Byte} (hc : s.freqAt c ≠ 0#32) : 0 < (s.codeAt c).len := by
  obtain ⟨_, _, _, _, hpos⟩ := codeAt_path h.ready.inv h.coded hc
  exact hpos

/-- The second half of Compress: the bytes begin with the codes of the symbols, and BITCNT is their length. -/
theorem Built.runCommands_encode {s : State} (h : Built true s) {syms : List Byte}
    (hentry : ∀ c ∈ syms, s.freqAt c ≠ 0#32) (hmax : (s.codeBits syms).length ≤ maxCount) :
    ∃ t packed, runCommands (plain (syms.map .encb ++ [.encend])) s = some (t, packed) ∧ Ready t ∧
      SameBut encodeParts s t ∧ (bytesBits packed).take (s.codeBits syms).length = s.codeBits syms ∧
      t.bitcnt = BitVec.ofNat 32 (s.codeBits syms).length := by
  have ⟨_, _, _, _, _, _, ⟨hfill, _⟩, _⟩ := h.ready.inv
  have hzero : s.ebits.toNat = 0 := congrArg BitVec.toNat h.noBits
  have hpartial : s.partialBits = [] := partialBits_eq_nil (by rw [hfill, hzero])
  obtain ⟨t, packed, hrun, hready, hframe, hbits, hcnt⟩ :=
    h.ready.runCommands_encode h.coded (fun c hc => h.code_pos (hentry c hc)) (by rwa [hzero, Nat.zero_add])
  rw [hpartial, List.nil_append] at hbits
  rw [hzero, Nat.zero_add] at hcnt
  exact ⟨t, packed, hrun, hready, hframe, by rw [hbits, List.take_left],
    by rw [← hcnt, BitVec.ofNat_toNat, BitVec.setWidth_eq]⟩

/-! ### Decompress (R304) -/

/-- The first half of Decompress: the table in any order gives the tree of the table. -/
theorem runCommands_clear_to_build {s : State} {table : Byte → Word} {order : List Byte} (hp : s.pend = none)
    (hsum : freqSum table ≤ maxCount) (horder : ∀ c, table c ≠ 0#32 ↔ c ∈ order) {d : Byte} (hd : table d ≠ 0#32) :
    ∃ t, runCommands (plain [.clear] ++ order.map (fun c => (.loadf c, table c)) ++ plain [.build]) s = some (t, []) ∧
      Built false t ∧ t.freqAt = table := by
  obtain ⟨u, hload, hinv, hframe, hfreq⟩ := (loadable_cleared s 0#32).runCommands_loadf hsum (fun c => by
    rw [freqAt_cleared]; exact Nat.zero_le _) order
  have htable : u.freqAt = table := funext fun c => by
    rw [hfreq, freqAt_cleared]
    exact ite_eq_left_iff.2 fun hc => (not_not.1 (mt (horder c).1 hc)).symm
  obtain ⟨t, hbuild, hbuilt, ht⟩ := issueAndDrain_build hinv hframe (c := d) (by rwa [htable])
  exact ⟨t, runCommands_append (runCommands_append (runCommands_clear hp) hload) (runCommands_singleton hbuild), hbuilt,
    ht.trans htable⟩

/-- The second half of Decompress, on the tree of the table the codes were made from: bytes that begin with the codes
of the symbols decode to the symbols. -/
theorem Built.runCommands_decode {s t : State} (ht : Built false t) (hs : Built true s) (htable : t.freqAt = s.freqAt)
    {packed syms : List Byte} (hentry : ∀ c ∈ syms, s.freqAt c ≠ 0#32) (hmax : (s.codeBits syms).length ≤ maxCount)
    (hbits : (bytesBits packed).take (s.codeBits syms).length = s.codeBits syms) :
    ∃ u, runCommands ([(.decstart, BitVec.ofNat 32 (s.codeBits syms).length)] ++
        plain (packed.map .decb ++ [.decend])) t = some (u, syms) ∧ Ready u ∧ SameBut decodeParts t u := by
  obtain ⟨hnode, hroot⟩ := tree_eq_of_freqAt_eq hs.treeOf ht.treeOf htable
  have hwalk : decodeBits t.nodeAt t.root t.root (s.codeBits syms) = some (t.root, syms) := by
    rw [hnode, hroot]
    exact decodeBits_codeBits hs.ready.inv hs.coded fun c hc => hs.code_pos (hentry c hc)
  obtain ⟨u, hrun, hready, hframe, _⟩ := ht.ready.runCommands_decode ht.tree ht.noDecode hwalk hmax hbits
  exact ⟨u, hrun, hready, hframe⟩

/-! ### The round trip (R307) -/

theorem compressCommands_eq (buf : List Byte) :
    compressCommands buf =
      plain ([.clear] ++ buf.map .count ++ [.build, .gencode]) ++ plain (buf.map .encb ++ [.encend]) := by
  rw [← plain_append, ← List.append_assoc]
  rfl

theorem decompressCommands_eq (packed : List Byte) (bits : Word) (table : Byte → Word) (order : List Byte) :
    decompressCommands packed bits table order =
      plain [.clear] ++ order.map (fun c => (.loadf c, table c)) ++ plain [.build] ++
        ([(.decstart, bits)] ++ plain (packed.map .decb ++ [.decend])) :=
  List.append_assoc _ _ _

/-- Settles O56: the two halves of each run; ENCB and ENCEND leave the table of the tree the codes come from. -/
theorem compressThenDecompressGivesTheBuffer : Obligations.CompressThenDecompressGivesTheBuffer := by
  intro s s' buf order hp hp' hne hlen _ horder
  obtain ⟨t0, hrun0, hcoded, hentry⟩ := runCommands_clear_to_gencode hp hne hlen
  refine ⟨t0, [], hrun0, fun hmax => ?_⟩
  have hsyms : ∀ c ∈ buf, t0.freqAt c ≠ 0#32 := fun c => (hentry c).2
  obtain ⟨t, packed, hrun, hready, hframe, hbits, hcnt⟩ := hcoded.runCommands_encode hsyms hmax
  have htable : t.freqAt = t0.freqAt := freqAt_congr (hframe .freq (by decide))
  have hloads : ∀ c, t0.freqAt c ≠ 0#32 ↔ c ∈ order := fun c => (hentry c).trans (horder c).symm
  obtain ⟨c, hc⟩ := List.exists_mem_of_ne_nil buf hne
  obtain ⟨u0, hload, hbuilt, hloaded⟩ :=
    runCommands_clear_to_build hp' (freqSum_le_of_inv hcoded.ready.inv) hloads (hsyms c hc)
  obtain ⟨u, hdecode, hend, hframe'⟩ := hbuilt.runCommands_decode hcoded hloaded hsyms hmax hbits
  refine ⟨t, u, packed, ?_, hready.noErr, (hframe .lost (by decide)).trans hcoded.notLost, ?_, hend.noErr,
    (hframe' .lost (by decide)).trans hbuilt.notLost⟩
  · rw [compressCommands_eq]
    exact runCommands_append hrun0 hrun
  · rw [decompressCommands_eq, htable, hcnt]
    exact runCommands_append hload hdecode

end Sys2Proof.Machine

/-! SUPPORT. The errors (60_exceptions): the words that are illegal and what their perform does, the error state and the
two ways out of it, and which commands raise which code. -/

namespace Sys2Proof.Machine

/-! ### Illegal words (30_encoding R126, R127; R327) -/

theorem opcField_toNat (w : Word) : (opcField w).toNat = w.toNat % 256 := by
  simp [opcField]

theorem symField_toNat (w : Word) : (symField w).toNat = w.toNat / 256 % 256 := by
  simp [symField, Nat.shiftRight_eq_div_pow]

theorem rsvField_toNat (w : Word) : (rsvField w).toNat = w.toNat / 65536 := by
  have hw : w.toNat / 65536 < 65536 := by have := w.isLt; omega
  simp only [rsvField, BitVec.extractLsb'_toNat, Nat.shiftRight_eq_div_pow]
  exact Nat.mod_eq_of_lt hw

theorem formN_eq_error_iff {c : Byte} {i : Instr} : (∃ e, formN c i = .error e) ↔ c ≠ 0#8 := by
  by_cases h : c = 0#8 <;> simp [formN, h]

/-- The opcodes of the form-N rows (R124, R125). -/
def formNOpcodes : List Nat := [0x00, 0x01, 0x04, 0x05, 0x07, 0x08, 0x0A, 0x0D]

/-- The words that decode as ILLEGAL, in fields: each arm of the decoder, form N, form S and the reserved opcodes apart
(R126). -/
theorem decode_eq_error_iff {w : Word} : (∃ e, decode w = .error e) ↔
    0x0E ≤ (opcField w).toNat ∨ rsvField w ≠ 0#16 ∨ ((opcField w).toNat ∈ formNOpcodes ∧ symField w ≠ 0#8) := by
  unfold decode
  split
  case isTrue hr => simp [hr]
  case isFalse hr =>
    split
    case h_1 ho | h_2 ho | h_5 ho | h_6 ho | h_8 ho | h_9 ho | h_11 ho | h_14 ho =>
      simp [formN_eq_error_iff, ho, hr, formNOpcodes]
    case h_3 ho | h_4 ho | h_7 ho | h_10 ho | h_12 ho | h_13 ho => simp [ho, hr, formNOpcodes]
    case h_15 =>
      have hopc : 0x0E ≤ (opcField w).toNat := by grind
      simp [hopc]

theorem performIllegal_of_noErr {s : State} (h0 : s.err = .none) : performIllegal s = s.fail .illegalCmd :=
  if_neg (not_not.2 h0)

theorem performIllegal_of_err {s : State} (h0 : s.err ≠ .none) : performIllegal s = s.done := if_pos h0

/-- The engine performs a pending illegal word (R126, R153). -/
theorem engineTurn_of_illegal {s : State} {p : PendCmd} {e : Illegal} (hp : s.pend = some p)
    (hd : decode p.word = .error e) : engineTurn s = .next (performIllegal s) := by
  simp only [engineTurn, hp, hd]

/-- Settles O3: the words by the decoder's arms, the perform by the error gate. -/
theorem illegalWordsRaiseIllegalCmd : Obligations.IllegalWordsRaiseIllegalCmd := by
  refine ⟨fun w => ?words, fun s p e hp hd h0 => ?raised, fun s p e hp hd h0 => ?gated⟩
  case words =>
    rw [decode_eq_error_iff, opcField_toNat, ne_eq, ne_eq, ← BitVec.toNat_inj, ← BitVec.toNat_inj, rsvField_toNat,
      symField_toNat]
    exact Iff.rfl
  case raised =>
    refine ⟨s.fail .illegalCmd, ?_, rfl, rfl, rfl, rfl, sameBut_fail s _⟩
    rw [engineTurn_of_illegal hp hd, performIllegal_of_noErr h0]
  case gated =>
    refine ⟨s.done, ?_, rfl, sameBut_done s⟩
    rw [engineTurn_of_illegal hp hd, performIllegal_of_err h0]

/-! ### The error state (R333, R334) -/

/-- Under an error a command changes PEND and the two result registers at most, or is CLEAR (R154, R333). -/
theorem exec_under_error {i : Instr} {s t : State} (h0 : s.err ≠ .none) (h : exec i s = .next t) :
    SameBut [.pend, .res0, .res1] s t ∨ (i = .clear ∧ t = s.clearBlock.done) := by
  cases hg : passesGate i with
  | true =>
    rw [exec_always hg] at h
    cases h
    cases i with
    | clear => exact .inr ⟨rfl, rfl⟩
    | rdfreq | rdcode | rdnode => exact .inl (sameBut_setRes s _ _)
    | _ => exact .inl (sameBut_mono (sameBut_done s) (by decide))
  | false =>
    rw [exec_gated hg, performGated_err h0] at h
    cases h
    exact .inl (sameBut_mono (sameBut_done s) (by decide))

/-- The pending command is CLEAR. -/
def ClearPending (s : State) : Prop := ∃ p, s.pend = some p ∧ decode p.word = .ok .clear

theorem engineTurn_under_error {s t : State} (h0 : s.err ≠ .none) (h : engineTurn s = .next t) :
    SameBut [.pend, .res0, .res1] s t ∨ (ClearPending s ∧ t = s.clearBlock.done) := by
  rcases engineTurn_cases h with ⟨_, rfl⟩ | ⟨p, i, hp, hd, he⟩ | ⟨_, _, _, _, rfl⟩
  · exact .inl (sameBut_refl _ t)
  · rcases exec_under_error h0 he with hs | ⟨rfl, rfl⟩
    · exact .inl hs
    · exact .inr ⟨⟨p, hp, hd⟩, rfl⟩
  · rw [performIllegal_of_err h0]
    exact .inl (sameBut_mono (sameBut_done s) (by decide))

/-- The fields a step may change in the error state, OUT among them: that it stays empty is `InvError`. -/
def errorParts : List Part := [.out, .pend, .arg, .res0, .res1, .lost, .host, .sched, .draws]

theorem sameBut_of_sched {l : List Part} (hl : .sched ∈ l) {s t : State} {rest : List Turn}
    (h : SameBut l { s with sched := rest } t) : SameBut l s t := by
  intro P hP
  have hsame := h P hP
  cases P with
  | sched => exact absurd hl hP
  | _ => exact hsame

/-- The way out of the error state: a CLEAR or a reset event, and the block at its reset values but for ARG (R334). -/
def LeavesError (s t : State) : Prop :=
  SameBut [.arg, .host, .sched] s.resetBlock t ∧ (ClearPending s ∨ ResetNext s)

/-- The engine's turn of a step, whatever turns are listed after it. -/
theorem engine_step_under_error {s t : State} {rest : List Turn} (h0 : s.err ≠ .none)
    (h : engineTurn { s with sched := rest } = .next t) : SameBut errorParts s t ∨ LeavesError s t := by
  rcases engineTurn_under_error (s := { s with sched := rest }) h0 h with hs | ⟨hc, rfl⟩
  · exact .inl (sameBut_of_sched (by decide) (sameBut_mono hs (by decide)))
  · refine .inr ⟨?_, .inl hc⟩
    exact sameBut_of_sched (s := s.resetBlock) (by decide) (sameBut_mono (sameBut_clearBlock_done _) (by decide))

/-- The host's turn of a step, whatever turns are listed after it. -/
theorem host_step_under_error (s : State) (rest : List Turn) :
    SameBut errorParts s (hostTurn { s with sched := rest }) ∨ LeavesError s (hostTurn { s with sched := rest }) := by
  rcases hostTurn_frame { s with sched := rest } with hs | ⟨w, prog, hp, hw, e⟩ | ⟨w, prog, _, _, e⟩
  · exact .inl (sameBut_of_sched (by decide) (sameBut_mono hs (by decide)))
  · rw [e]
    refine .inr ⟨?_, .inr (.inr ⟨w, prog, hp, hw⟩)⟩
    exact sameBut_of_sched (s := s.resetBlock) (by decide) (sameBut_mono (sameBut_withProg _ prog) (by decide))
  · rw [e]
    left
    intro P hP
    cases P with
    | lost | host | sched => exact absurd (by decide) hP
    | _ => rfl

/-- A step of any agent in the error state (R333, R334). -/
theorem step_under_error {s t : State} (h0 : s.err ≠ .none) (h : step s = .next t) :
    SameBut errorParts s t ∨ LeavesError s t := by
  rcases step_cases h with ⟨rest, _, he⟩ | ⟨rest, _, rfl⟩ | ⟨rest, hs, rfl⟩ | ⟨_, he, _⟩ | ⟨_, rfl⟩
  · exact engine_step_under_error h0 he
  · exact host_step_under_error s rest
  · refine .inr ⟨?_, .inr (.inl (by rw [hs]; rfl))⟩
    exact sameBut_of_sched (s := s.resetBlock) (by decide) (sameBut_refl _ _)
  · exact engine_step_under_error (rest := s.sched) h0 he
  · exact host_step_under_error s s.sched

theorem out_nil_of_error {s : State} (h : Inv s) (h0 : s.err ≠ .none) : s.out = [] := by
  obtain ⟨_, _, _, _, _, _, _, _, _, herr, _⟩ := h
  exact herr h0

/-- Settles O8: what a step can do under an error; OUT is empty before and after by the invariants. -/
theorem errorStateIsLeftOnlyByClearOrReset : Obligations.ErrorStateIsLeftOnlyByClearOrReset := by
  intro s t hinv h0 h
  rcases step_under_error h0 h with hs | ⟨hs, hway⟩
  · have herr : t.err = s.err := hs .err (by decide)
    have hempty : t.out = [] := out_nil_of_error (everyStepKeepsTheInvariants s t hinv h) (herr ▸ h0)
    refine .inl ⟨herr, hempty, fun P hP => ?_⟩
    by_cases ho : P = .out
    · subst ho
      exact hempty.trans (out_nil_of_error hinv h0).symm
    · exact hs P (List.not_mem_cons_of_ne_of_not_mem ho hP)
  · exact .inr ⟨hs .err (by decide), hs, hway⟩

/-! ### Which commands raise which code (R320) -/

theorem ErrCode.code_le (e : ErrCode) : e.code.toNat ≤ 7 := by
  cases e <;> decide

/-- An error raised by a command is SEQUENCE, by one with a phase condition, or one of its own checks (R154). -/
theorem exec_raises {i : Instr} {s t : State} (h0 : s.err = .none) (h : exec i s = .next t) (ht : t.err ≠ .none) :
    (passesGate i = false ∧ t.err = .sequence) ∨ t.err ∈ ownErrors i := by
  cases hg : passesGate i with
  | true =>
    rw [exec_always hg] at h
    cases h
    exact absurd ((alwaysState_err i s).elim (·.trans h0) id) ht
  | false =>
    rw [exec_gated hg] at h
    cases h
    rcases performGated_cases s (phaseOk i s) (gatedBody i s) with
      ⟨hn, _⟩ | ⟨_, _, e⟩ | ⟨_, _, x, hb, e⟩ | ⟨_, _, u, outl, hb, _, e⟩ | ⟨_, _, _, _, _, _, e⟩
    · exact absurd h0 hn
    · exact .inl ⟨rfl, by rw [e, State.fail_err]⟩
    · exact .inr (by rw [e, State.fail_err]; exact body_error hb)
    · rw [e] at ht
      exact absurd ((body_err hb).trans h0) ht
    · rw [e] at ht
      exact absurd h0 ht

/-- Settles O9: the errors of the perform of a pending word; each command's own by `ownErrors`. -/
theorem errorCodesAndWhoRaisesThem : Obligations.ErrorCodesAndWhoRaisesThem := by
  refine ⟨⟨rfl, rfl, rfl, rfl, rfl, rfl, rfl, rfl⟩, fun s => s.err.code_le, fun s t p hp h h0 ht => ?_⟩
  cases hd : decode p.word with
  | error e =>
    rw [engineTurn_of_illegal hp hd, performIllegal_of_noErr h0] at h
    cases h
    exact ⟨e, rfl⟩
  | ok i =>
    rw [engineTurn_of_decode hp hd] at h
    rcases exec_raises h0 h ht with ⟨hg, hcode⟩ | hown
    · rw [hcode]
      refine ⟨i, rfl, ?_, ?_, ?_, fun c => ?_, fun c => ?_⟩ <;> rintro rfl <;> cases hg
    · cases i with
      | count c =>
        rw [List.mem_singleton.1 hown]
        exact ⟨c, .inl rfl⟩
      | loadf c =>
        rw [List.mem_singleton.1 hown]
        exact ⟨c, .inr (.inl rfl)⟩
      | build => rw [List.mem_singleton.1 hown]
      | encb c =>
        rcases List.mem_pair.1 hown with hcode | hcode <;> rw [hcode]
        · exact ⟨c, rfl⟩
        · exact ⟨c, .inr (.inr rfl)⟩
      | decb b =>
        rw [List.mem_singleton.1 hown]
        exact ⟨b, rfl⟩
      | decend => rw [List.mem_singleton.1 hown]
      | _ => cases hown

end Sys2Proof.Machine
